-- ==== Sys2Proof/Word.lean ====
section
/-! DEFINITION. The word and byte types of the register window and the data memory. -/

namespace Sys2Proof

/-- A register or command word: 32 bits (`REG_W`, 00_scope.md R10). -/
abbrev Word := BitVec 32

/-- A byte of data memory: one pixel, or one packed plane row (00_scope.md R10). -/
abbrev Byte := BitVec 8

end Sys2Proof
end

