-- ==== Sys2Proof/Syntax.lean ====
section
/-! DEFINITION. The commands: one constructor per row of spec/opcode_table.json. -/

namespace Sys2Proof

/-- A command word, decoded (30_encoding.md R71, R74). No command carries an operand (R72); the row
ILLEGAL keeps its two fields, so that every word is some command (log 13). -/
inductive Instr where
  /-- NOP, 44_commands.md R168. -/
  | nop
  /-- CONVERT, 44_commands.md R165. -/
  | convert
  /-- REORDER, 42_tile_reorder.md R127. -/
  | reorder
  /-- PACK, 43_bitplane_pack.md R148. -/
  | pack
  /-- CLEAR, 44_commands.md R169. -/
  | clear
  /-- Every other word, by its fields OP (bits 3:0) and RSVD (bits 31:4), 30_encoding.md R74. -/
  | illegal (op : BitVec 4) (rsvd : BitVec 28)
deriving DecidableEq, Repr

end Sys2Proof
end

