-- ==== Sys2Proof/WellFormed.lean ====
section
/-! DEFINITION. Which terms of Instr stand for a command word. -/

namespace Sys2Proof

/-- The fields of an illegal word: a reserved opcode, or reserved bits set on a legal one
(30_encoding.md R74). -/
def illegalFields (op : BitVec 4) (rsvd : BitVec 28) : Bool :=
  decide (5 ≤ op.toNat) || decide (rsvd ≠ 0)

/-- The five commands are well formed; an illegal one only if its fields are those of no command. -/
def Instr.wellFormed : Instr → Bool
  | .nop => true
  | .convert => true
  | .reorder => true
  | .pack => true
  | .clear => true
  | .illegal op rsvd => illegalFields op rsvd

end Sys2Proof
end

