-- ==== Sys2Proof/Decode.lean ====
section
/-! DEFINITION. Decoding of command words and of the bytes they are laid out in, and the encoder. -/

namespace Sys2Proof

/-- Field OP of a command word, bits 3:0 (30_encoding.md R70). -/
def opField (w : Word) : BitVec 4 := w.extractLsb' 0 4

/-- Field RSVD of a command word, bits 31:4 (30_encoding.md R70). -/
def rsvdField (w : Word) : BitVec 28 := w.extractLsb' 4 28

/-- Decoding of a command word is total (30_encoding.md R74). -/
def decode (w : Word) : Instr :=
  if 5 ≤ (opField w).toNat then .illegal (opField w) (rsvdField w)
  else if rsvdField w ≠ 0 then .illegal (opField w) (rsvdField w)
  else if opField w = 0 then .nop
  else if opField w = 1 then .convert
  else if opField w = 2 then .reorder
  else if opField w = 3 then .pack
  else .clear

/-- Byte lane `k` of a register word, bits `8k+7 : 8k` (20_memory.md R55). -/
def lane (w : Word) (k : Nat) : Byte := w.extractLsb' (8 * k) 8

/-- A register word as the four bytes it lies in, lowest address first (20_memory.md R55). -/
def wordBytes (w : Word) : List Byte := [lane w 0, lane w 1, lane w 2, lane w 3]

/-- The register word of four bytes, lowest address first (20_memory.md R55). -/
def wordOfBytes (b0 b1 b2 b3 : Byte) : Word := b3 ++ b2 ++ b1 ++ b0

/-- Why bytes hold no command word. -/
inductive DecodeError where
  /-- Fewer than the four bytes every command has (30_encoding.md R70). -/
  | truncated
deriving DecidableEq, Repr

/-- The command at the front of a byte sequence, and the bytes after it. -/
def decodeBytes : List Byte → Except DecodeError (Instr × List Byte)
  | b0 :: b1 :: b2 :: b3 :: rest => .ok (decode (wordOfBytes b0 b1 b2 b3), rest)
  | _ => .error .truncated

/-- The word of a table row of `nbits` bits, every bit above them 0. -/
def tableWord (nbits w : Nat) : Word := BitVec.ofNat 32 (w % 2 ^ nbits)

/-- The command the decoder reads from an opcode-table word of `nbits` bits; no command is longer
than 32 bits (30_encoding.md R70). -/
def decodeTableWord (nbits w : Nat) : Option Instr :=
  if nbits ≤ 32 then
    match decodeBytes (wordBytes (tableWord nbits w)) with
    | .ok (i, _) => some i
    | .error _ => none
  else none

/-- The word of a command: RSVD in bits 31:4, OP in bits 3:0 (30_encoding.md R70). -/
def commandWord (op : BitVec 4) (rsvd : BitVec 28) : Word := rsvd ++ op

/-- The word of each command (30_encoding.md R71, R74). -/
def encode : Instr → Word
  | .nop => commandWord 0x0 0
  | .convert => commandWord 0x1 0
  | .reorder => commandWord 0x2 0
  | .pack => commandWord 0x3 0
  | .clear => commandWord 0x4 0
  | .illegal op rsvd => commandWord op rsvd

end Sys2Proof
end

