-- ==== Sys2Proof/Config.lean ====
section
/-! DEFINITION. What the implementation fixes (00_scope.md R10) and the free values the spec leaves open. -/

namespace Sys2Proof.Config

/-- The ID register's constant (10_state.md R23). -/
def idWord : Word := 0x42500001

/-- `ROW_WIDTH` after reset: 128 pixels (00_scope.md R10). -/
def rowWidthReset : Word := 128

/-- `TILE_SIZE`: pixels on a side of a tile (00_scope.md R10). -/
def tileSize : Nat := 8

/-- `TILE_BYTES`: pixel bytes of a tile (00_scope.md R10). -/
def tileBytes : Nat := 64

/-- `BLOCK_BYTES`: encoded bytes of a tile (00_scope.md R10). -/
def blockBytes : Nat := 16

/-- The size of data memory, `2^ADDR_W` (00_scope.md R10, 10_state.md R36). -/
def memorySize : Nat := 4294967296

/-- FREE VALUE (log 4). The `n`-th drawn `LATENCY`: host steps between a job's acceptance and its
completion, finite, unbounded, possibly different for each job (70_reset_and_hazards.md R215). -/
opaque latency : Nat → Nat

/-- FREE VALUE (logs 5 and 6). The `n`-th drawn byte, where the spec says "any value"
(20_memory.md R62, 70_reset_and_hazards.md R201). -/
opaque freeByte : Nat → Byte

/-- FREE VALUE (log 8). `REG_BASE` in words: the platform's choice (20_memory.md R59). -/
opaque regBaseWords : Nat

/-- `REG_BASE`, 4-byte aligned (92_eei_decisions.md, OPEN parameters). -/
def regBase : Nat := 4 * regBaseWords

end Sys2Proof.Config
end

