-- ==== Sys2Proof/Machine/State.lean ====
section
/-! DEFINITION. The machine's state, the host's pending operations, and the state after reset. -/

namespace Sys2Proof.Machine

/-- The jobs, `Op` of 10_state.md R40. -/
inductive JobOp where
  | convert
  | reorder
  | pack
deriving DecidableEq, Repr

/-- The named registers of the window (10_state.md R22); offsets 0x28 to 0x3C have no name (R32). -/
inductive Reg where
  | id
  | ctrl
  | cmd
  | status
  | srcBase
  | srcLen
  | dstBase
  | rowWidth
  | tileCount
  | outLen
deriving DecidableEq, Repr

/-- CTRL (10_state.md R24): bits 31:2 read 0 and hold nothing. -/
structure Ctrl where
  /-- Bit 0: the source region is stored bottom-up. -/
  rowOrder : Bool
  /-- Bit 1: interrupt enable. -/
  ie : Bool
deriving DecidableEq, Repr

/-- STATUS (10_state.md R26): bits 7:4 and 31:16 read 0 and hold nothing. -/
structure Status where
  busy : Bool
  done : Bool
  err : Bool
  drop : Bool
  errCode : BitVec 4
  errDetail : BitVec 4
deriving DecidableEq, Repr

/-- A region of data memory, `(base, len)` (00_scope.md R14). -/
structure Region where
  base : Nat
  len : Nat
deriving DecidableEq, Repr

/-- One host operation: the bus transactions of 30_encoding.md R76, taken one access at a time
(logs 2, 10, 14). A register access names its byte offset in the window and its size in bytes (20_memory.md R55). -/
inductive HostOp where
  /-- A write of `size` bytes at window offset `off`; `v` is the value of a 32-bit one (`wr`). -/
  | regWrite (off : BitVec 6) (size : Nat) (v : Word)
  /-- A read of `size` bytes at window offset `off` (`rd`). -/
  | regRead (off : BitVec 6) (size : Nat)
  /-- Repeated 32-bit reads at `off` until `value &&& mask = v` (`poll`). -/
  | poll (off : BitVec 6) (mask v : Word)
  /-- A write of one byte of data memory (`mem`). -/
  | memWrite (a : Nat) (v : Byte)
  /-- A read of one byte of data memory (`memchk`). -/
  | memRead (a : Nat)
  /-- Waits for the interrupt line to be 1 (70_reset_and_hazards.md R203, step 6). -/
  | waitIrq
  /-- The reset input (70_reset_and_hazards.md R200). -/
  | reset
  /-- The bitmap host looks at the STATUS value it has just read, and reads the output at `d` or hands on a failure
  (40_host_header.md R102; 70_reset_and_hazards.md R203, step 7; log 17). -/
  | handOn (d : Nat)
  /-- The bitmap host reads the `n` output bytes at `a` that it still lacks, `got` read so far, newest first; then it
  hands them on (log 17). -/
  | gather (a n : Nat) (got : List Byte)
deriving DecidableEq, Repr

/-- One value the host has read. -/
inductive HostRead where
  /-- A register read at window offset `off` returned `v`. -/
  | reg (off : BitVec 6) (v : Word)
  /-- A data-memory read at `a` returned `v`. -/
  | mem (a : Nat) (v : Byte)
  /-- The host took the interrupt. -/
  | irq
deriving DecidableEq, Repr

/-- The host's results that are no output (40_host_header.md R101). -/
inductive HostError where
  | invalidFormat
  | truncatedHeader
  | unsupportedWidth
  | unsupportedHeight
  | unsupportedColorDepth
  | unsupportedCompression
  | malformedPixelData
  | invalidDimensions
  /-- ILLEGAL_COMMAND, RANGE or OVERLAP: a failure of the host's own programming. -/
  | ownProgramming (code detail : BitVec 4)
deriving DecidableEq, Repr

/-- What the bitmap host hands on for one job (40_host_header.md R101, R102). -/
inductive HostResult where
  /-- The output stream, handed to the I/O collaborator. -/
  | output (bytes : List Byte)
  /-- A failure, with no bytes. -/
  | failure (e : HostError)
deriving DecidableEq, Repr

/-- Data memory: the bytes that differ from the unlisted one, by rising address. -/
abbrev Memory := List Host.Cell

/-- Everything the spec gives the machine (INVENTORY.md, State), the host's pending operations and
its reads, and the model's own fields for what the spec leaves open. -/
structure State where
  /-- CTRL, 10_state.md R24. -/
  ctrl : Ctrl
  /-- STATUS, 10_state.md R26. -/
  status : Status
  /-- SRC_BASE, 10_state.md R28. -/
  srcBase : Word
  /-- SRC_LEN, 10_state.md R28. -/
  srcLen : Word
  /-- DST_BASE, 10_state.md R28. -/
  dstBase : Word
  /-- ROW_WIDTH, 10_state.md R29. -/
  rowWidth : Word
  /-- TILE_COUNT, 10_state.md R30. -/
  tileCount : Word
  /-- OUT_LEN, 10_state.md R31. -/
  outLen : Word
  /-- The job in progress, 10_state.md R40. -/
  job : Option JobOp
  /-- Data memory, 10_state.md R36. -/
  mem : Memory
  /-- The host's operations not yet performed, next first (log 2). -/
  hostOps : List HostOp
  /-- What the host has read, newest first (log 3). -/
  hostReads : List HostRead
  /-- What the bitmap host has handed on, newest first (log 17). -/
  handedOn : List HostResult
  /-- The platform's regions with side effects, 20_memory.md R58 (log 7). -/
  devices : List Region
  /-- Host steps left before the running job completes (log 4). -/
  delay : Nat
  /-- The host broke 20_memory.md R62 during the running job (log 6). -/
  raced : Bool
  /-- Free values drawn so far (log 5). -/
  draws : Nat
deriving DecidableEq, Repr

/-- Why the machine stops with a fault. -/
inductive Fault where
  /-- Raised by a host access to data memory at 2^32 or above, which 10_state.md R36 says does not
  exist. SAFE: the model stops (log 10). -/
  | noSuchAddress (a : Nat)
deriving DecidableEq, Repr

/-- Why the machine gives no meaning. -/
inductive Refusal where
  /-- A command that has no meaning yet; no arm of exec answers it. SAFE: the model stops. -/
  | notModelled (mnemonic : String)
  /-- Raised at acceptance of CONVERT, REORDER or PACK when the source or destination region holds
  memory with side effects: 20_memory.md R58 tells a model to refuse it. SAFE: the model stops (log 7). -/
  | sideEffectRegion
  /-- Raised by a host access to memory with side effects, whose effect the spec does not give
  (20_memory.md R58). SAFE: the model stops (log 7). -/
  | sideEffectAccess (a : Nat)
deriving DecidableEq, Repr

/-- STATUS = 0 (10_state.md R43). -/
def Status.zero : Status :=
  { busy := false, done := false, err := false, drop := false, errCode := 0, errDetail := 0 }

/-- The machine right after reset (10_state.md R43, 70_reset_and_hazards.md R200): no data memory
listed, nothing asked of it by the host. The model's own fields: logs 1 to 7, 17. -/
def State.reset : State :=
  { ctrl := { rowOrder := false, ie := false }
    status := Status.zero
    srcBase := 0
    srcLen := 0
    dstBase := 0
    rowWidth := Config.rowWidthReset
    tileCount := 0
    outLen := 0
    job := none
    mem := []
    hostOps := []
    hostReads := []
    handedOn := []
    devices := []
    delay := 0
    raced := false
    draws := 0 }

end Sys2Proof.Machine
end

