-- ==== Sys2Proof/Machine/Ops.lean ====
section
/-! DEFINITION. Shared operations: data memory, regions, the loop of the rules, status updates, errors, free values. -/

namespace Sys2Proof.Machine

/-- What a byte of data memory that nothing has written reads as (log 1). -/
def unlistedByte : Byte := 0

/-- `MemRead(a, 1)` (00_scope.md R13). -/
def memRead : Memory → Nat → Byte
  | [], _ => unlistedByte
  | (k, w) :: m, a => if k = a then w else memRead m a

/-- `MemWrite(a, 1, v)` (00_scope.md R13), in the canonical form. -/
def memWrite : Memory → Nat → Byte → Memory
  | [], a, v => if v = unlistedByte then [] else [(a, v)]
  | (k, w) :: m, a, v =>
    if a < k then (if v = unlistedByte then (k, w) :: m else (a, v) :: (k, w) :: m)
    else if a = k then (if v = unlistedByte then m else (a, v) :: m)
    else (k, w) :: memWrite m a v

/-- Every address listed is above `lo`, the addresses rise, and no entry is the unlisted byte. -/
def memSorted (lo : Nat) : Memory → Bool
  | [] => true
  | (k, w) :: m => decide (lo ≤ k) && decide (w ≠ unlistedByte) && memSorted (k + 1) m

/-- The canonical form of data memory. -/
def Memory.wf (m : Memory) : Bool := memSorted 0 m

/-- Every listed byte lies in the data memory that exists (10_state.md R36). -/
def memInSpace (m : Memory) : Bool := m.all fun c => decide (c.1 < Config.memorySize)

/-- Bytes at `a`, `a + 1`, … (30_encoding.md R76, `mem`). -/
def memWriteBytes : Memory → Nat → List Byte → Memory
  | m, _, [] => m
  | m, a, b :: bs => memWriteBytes (memWrite m a b) (a + 1) bs

/-- The byte sequence of a region (00_scope.md R14). -/
def memBytes (m : Memory) (base len : Nat) : List Byte :=
  (List.range len).map fun i => memRead m (base + i)

/-- `for i in 0..n-1` (00_scope.md R13): the body runs for i = 0, 1, …, n-1 in that order. -/
def forUp (n : Nat) (body : Nat → Memory → Memory) (m : Memory) : Memory :=
  match n with
  | 0 => m
  | k + 1 => body k (forUp k body m)

/-- Whether address `a` is in the region. -/
def Region.holds (r : Region) (a : Nat) : Bool := decide (r.base ≤ a) && decide (a < r.base + r.len)

/-- Whether two regions share a byte, as 60_exceptions.md R181 computes it. -/
def Region.overlaps (r t : Region) : Bool :=
  decide (0 < r.len) && decide (0 < t.len) &&
    decide (t.base < r.base + r.len) && decide (r.base < t.base + t.len)

/-- The platform's map has no region with side effects under `r` (20_memory.md R58). -/
def State.ordinary (s : State) (r : Region) : Bool := s.devices.all fun d => !d.overlaps r

/-- The platform's map gives address `a` side effects (20_memory.md R58). -/
def State.sideEffectAt (s : State) (a : Nat) : Bool := s.devices.any fun d => d.holds a

/-- `clearStatus()` (44_commands.md R160): BUSY keeps its value. -/
def clearStatus (s : State) : State :=
  { s with status :=
    { s.status with done := false, err := false, drop := false, errCode := 0, errDetail := 0 } }

/-- `TILE_COUNT <- 0 ; OUT_LEN <- 0` (44_commands.md R160). -/
def zeroCounts (s : State) : State := { s with tileCount := 0, outLen := 0 }

/-- `raise Error(code, detail)` (60_exceptions.md R184): the block's only exception. Nothing returns
from it (R186): the record stays until CLEAR, the next accepted command or reset. -/
def raiseError (code detail : BitVec 4) (s : State) : State :=
  { s with status := { s.status with err := true, errCode := code, errDetail := detail } }

/-- A command that ends in an error at acceptance (44_commands.md R160). -/
def failCommand (code detail : BitVec 4) (s : State) : State :=
  raiseError code detail (zeroCounts s)

/-- A word written while BUSY = 1 (70_reset_and_hazards.md R210). -/
def dropWord (s : State) : State := { s with status := { s.status with drop := true } }

/-- The next LATENCY (log 4): the free value the counter selects, and the counter moved on. -/
def drawLatency (s : State) : State :=
  { s with delay := Config.latency s.draws, draws := s.draws + 1 }

/-- `start(op, N)` (44_commands.md R161), with the job's LATENCY drawn (log 4). -/
def startJob (op : JobOp) (n : Nat) (s : State) : State :=
  drawLatency
    { s with
      status := { s.status with busy := true }
      tileCount := BitVec.ofNat 32 n
      outLen := 0
      job := some op
      raced := false }

/-- The end of every completion (44_commands.md R165): `OUT_LEN <- L ; BUSY <- 0 ; DONE <- 1 ; job <- none`. -/
def finishJob (len : Nat) (s : State) : State :=
  { s with
    outLen := BitVec.ofNat 32 len
    status := { s.status with busy := false, done := true }
    job := none
    raced := false }

/-- Every byte of the region is any value (20_memory.md R62, 70_reset_and_hazards.md R201): byte `i` is the
free value of number `draws + i` (logs 5, 6). -/
def drawRegion (r : Region) (s : State) : State :=
  { s with
    mem := forUp r.len (fun i m => memWrite m (r.base + i) (Config.freeByte (s.draws + i))) s.mem
    draws := s.draws + r.len }

/-- A value reaches the host (log 3). -/
def noteRead (x : HostRead) (s : State) : State := { s with hostReads := x :: s.hostReads }

/-- The host hands a result on (40_host_header.md R102, log 17). -/
def handResult (r : HostResult) (s : State) : State := { s with handedOn := r :: s.handedOn }

/-- The operation stays the host's next one. -/
def keepHostOp (op : HostOp) (s : State) : State := { s with hostOps := op :: s.hostOps }

end Sys2Proof.Machine
end

