-- ==== Sys2Proof/Machine/Operands.lean ====
section
/-! DEFINITION. A job's operands, the quantities derived from them, its regions and its address map. -/

namespace Sys2Proof.Machine

/-- `rows = SRC_LEN / W` (30_encoding.md R73). -/
def State.rows (s : State) : Nat := s.srcLen.toNat / s.rowWidth.toNat

/-- `TPR = W / 8` (30_encoding.md R73). -/
def State.tilesPerRow (s : State) : Nat := s.rowWidth.toNat / Config.tileSize

/-- `N` (30_encoding.md R73): by rows and columns for CONVERT and REORDER, by length for PACK. -/
def tilesOf (op : JobOp) (s : State) : Nat :=
  match op with
  | .convert => s.rows / Config.tileSize * s.tilesPerRow
  | .reorder => s.rows / Config.tileSize * s.tilesPerRow
  | .pack => s.srcLen.toNat / Config.tileBytes

/-- Bytes a job writes for one tile (44_commands.md R163). -/
def bytesPerTile : JobOp → Nat
  | .convert => Config.blockBytes
  | .reorder => Config.tileBytes
  | .pack => Config.blockBytes

/-- `L`, the job's output length (44_commands.md R163). -/
def outputLength (op : JobOp) (s : State) : Nat := bytesPerTile op * tilesOf op s

/-- The SRC region (00_scope.md R15). -/
def State.srcRegion (s : State) : Region := { base := s.srcBase.toNat, len := s.srcLen.toNat }

/-- The DST region of a job (00_scope.md R15). -/
def dstRegion (op : JobOp) (s : State) : Region :=
  { base := s.dstBase.toNat, len := outputLength op s }

/-- `srcRow(y)`: where image row `y` is stored (41_scanline_normalizer.md R111). -/
def srcRow (bottomUp : Bool) (rows y : Nat) : Nat := if bottomUp then rows - 1 - y else y

/-- `srcOff(t, r, c)` of the tile_reorder_stage (42_tile_reorder.md R123), for row width `w`. -/
def srcOff (bottomUp : Bool) (w rows t r c : Nat) : Nat :=
  srcRow bottomUp rows (8 * (t / (w / 8)) + r) * w + 8 * (t % (w / 8)) + c

/-- The inverse of the address map: the (tile, row, column) of stored offset `o` (42_tile_reorder.md R125). -/
def tileOfOff (bottomUp : Bool) (w rows o : Nat) : Nat × Nat × Nat :=
  let y := srcRow bottomUp rows (o / w)
  let x := o % w
  (y / 8 * (w / 8) + x / 8, y % 8, x % 8)

/-- `srcAddr(t, r, c)` under the operand registers (42_tile_reorder.md R123). -/
def State.srcAddr (s : State) (t r c : Nat) : Nat :=
  s.srcBase.toNat + srcOff s.ctrl.rowOrder s.rowWidth.toNat s.rows t r c

/-- `norm(y, x)`: the normalized pixel at image row `y`, column `x` (41_scanline_normalizer.md R112). -/
def State.norm (s : State) (y x : Nat) : Byte :=
  memRead s.mem
    (s.srcBase.toNat + srcRow s.ctrl.rowOrder s.rows y * s.rowWidth.toNat + x)

/-- `Tile_t` of CONVERT and REORDER, 64 bytes in row-major order (42_tile_reorder.md R124). -/
def State.tile (s : State) (t : Nat) : List Byte :=
  (List.range Config.tileBytes).map fun i => memRead s.mem (s.srcAddr t (i / 8) (i % 8))

/-- `T` of PACK: the `t`-th 64 bytes of the source region (43_bitplane_pack.md R148). -/
def State.packedTile (s : State) (t : Nat) : List Byte :=
  memBytes s.mem (s.srcBase.toNat + Config.tileBytes * t) Config.tileBytes

/-- Address `a` is in the source region of the job that runs. -/
def State.jobReads (s : State) (a : Nat) : Bool := s.job.isSome && s.srcRegion.holds a

/-- Address `a` is in the destination region of the job that runs. -/
def State.jobWrites (s : State) (a : Nat) : Bool :=
  match s.job with
  | none => false
  | some op => (dstRegion op s).holds a

end Sys2Proof.Machine
end

