-- ==== Sys2Proof/Machine/Packing.lean ====
section
/-! DEFINITION. The packing functions of 43_bitplane_pack.md: rows, tiles, and the decoding of a block. -/

namespace Sys2Proof.Machine

/-- One plane of a tile row: bit `plane` of pixel column `c` goes to bit `7 - c`, the OR form of
43_bitplane_pack.md R141. -/
def packPlane (plane : Nat) (p : List Byte) : Byte :=
  (List.range 8).foldl (fun acc c => acc ||| (((p.getD c 0 >>> plane) &&& 1) <<< (7 - c))) 0

/-- `packRow(p) = (lo, hi)` (43_bitplane_pack.md R141). -/
def packRow (p : List Byte) : Byte × Byte := (packPlane 0 p, packPlane 1 p)

/-- Row `r` of a 64-byte tile, `T[8r .. 8r + 8)` (43_bitplane_pack.md R143). -/
def tileRow (tile : List Byte) (r : Nat) : List Byte :=
  (List.range 8).map fun c => tile.getD (8 * r + c) 0

/-- `packTile(T)`: the eight low-plane bytes, then the eight high-plane bytes (43_bitplane_pack.md R143). -/
def packTile (tile : List Byte) : List Byte :=
  ((List.range 8).map fun r => (packRow (tileRow tile r)).1) ++
    ((List.range 8).map fun r => (packRow (tileRow tile r)).2)

/-- The 2-bit pixel (r, c) of a 16-byte block (43_bitplane_pack.md R145). -/
def unpackPixel (block : List Byte) (r c : Nat) : Byte :=
  (((block.getD (8 + r) 0 >>> (7 - c)) &&& 1) <<< 1) ||| ((block.getD r 0 >>> (7 - c)) &&& 1)

/-- The tile a 16-byte block encodes (43_bitplane_pack.md R145). -/
def unpackTile (block : List Byte) : List Byte :=
  (List.range 64).map fun i => unpackPixel block (i / 8) (i % 8)

end Sys2Proof.Machine
end

