-- ==== Sys2Proof/Machine/Completion.lean ====
section
/-! DEFINITION. The block's one step: completion of the job in progress (44_commands.md R166), and reset. -/

namespace Sys2Proof.Machine

/-- The memory CONVERT leaves: the loop of 44_commands.md R165, byte by byte in its order (log 11). -/
def convertLoop (s : State) : Memory :=
  forUp (tilesOf .convert s)
    (fun t m =>
      forUp 8
        (fun r m =>
          let p := (List.range 8).map fun c => memRead m (s.srcAddr t r c)
          let q := packRow p
          memWrite (memWrite m (s.dstBase.toNat + 16 * t + r) q.1)
            (s.dstBase.toNat + 16 * t + 8 + r) q.2)
        m)
    s.mem

/-- The memory REORDER leaves: the loop of 42_tile_reorder.md R127. -/
def reorderLoop (s : State) : Memory :=
  forUp (tilesOf .reorder s)
    (fun t m =>
      forUp 8
        (fun r m =>
          forUp 8
            (fun c m =>
              memWrite m (s.dstBase.toNat + 64 * t + 8 * r + c) (memRead m (s.srcAddr t r c)))
            m)
        m)
    s.mem

/-- The memory PACK leaves: the loop of 43_bitplane_pack.md R148. -/
def packLoop (s : State) : Memory :=
  forUp (tilesOf .pack s)
    (fun t m =>
      let b := packTile (memBytes m (s.srcBase.toNat + 64 * t) 64)
      forUp 16 (fun i m => memWrite m (s.dstBase.toNat + 16 * t + i) (b.getD i 0)) m)
    s.mem

/-- The memory a job leaves when the host kept its duties. -/
def jobMemory (op : JobOp) (s : State) : Memory :=
  match op with
  | .convert => convertLoop s
  | .reorder => reorderLoop s
  | .pack => packLoop s

/-- Completion of job `op` (44_commands.md R166). When the host broke 20_memory.md R62 during the job, every
destination byte is any value (log 6); the registers change as always. -/
def completeJob (op : JobOp) (s : State) : State :=
  let s1 := if s.raced then drawRegion (dstRegion op s) s else { s with mem := jobMemory op s }
  finishJob (outputLength op s) s1

/-- Reset (70_reset_and_hazards.md R200): every register and the job, no byte of data memory. The host's list of
operations, what it has read and handed on, the platform's map and the count of draws are not the block's. -/
def resetRegisters (s : State) : State :=
  { State.reset with
    mem := s.mem
    hostOps := s.hostOps
    hostReads := s.hostReads
    handedOn := s.handedOn
    devices := s.devices
    draws := s.draws }

/-- Reset taken at any step; during a job every destination byte is any value (70_reset_and_hazards.md R201). -/
def resetBlock (s : State) : State :=
  match s.job with
  | none => resetRegisters s
  | some op => resetRegisters (drawRegion (dstRegion op s) s)

end Sys2Proof.Machine
end

