-- ==== Sys2Proof/Machine/Flags.lean ====
section
/-! DEFINITION. CTRL and STATUS as words, the interrupt line, and the block's errors with their codes. -/

namespace Sys2Proof.Machine

/-- A flag as a bit. -/
def flagBit (b : Bool) : BitVec 1 := BitVec.ofBool b

/-- STATUS as a word (10_state.md R27). -/
def Status.word (st : Status) : Word :=
  (0 : BitVec 16) ++ st.errDetail ++ st.errCode ++ (0 : BitVec 4) ++
    flagBit st.drop ++ flagBit st.err ++ flagBit st.done ++ flagBit st.busy

/-- CTRL as a word (10_state.md R24). -/
def Ctrl.word (c : Ctrl) : Word := (0 : BitVec 30) ++ flagBit c.ie ++ flagBit c.rowOrder

/-- What a write of `v` leaves in CTRL (10_state.md R24). -/
def ctrlOfWord (v : Word) : Ctrl := { rowOrder := v.getLsbD 0, ie := v.getLsbD 1 }

/-- The interrupt line (60_exceptions.md R190). -/
def State.irq (s : State) : Bool := s.ctrl.ie && (s.status.done || s.status.err)

/-- The block's errors (60_exceptions.md R182), one per code and detail. -/
inductive BlockError where
  /-- ILLEGAL_COMMAND: OP in 0x5 to 0xF. -/
  | reservedOpcode
  /-- ILLEGAL_COMMAND: OP legal, RSVD not zero. -/
  | reservedBits
  /-- INVALID_DIMENSIONS: ROW_WIDTH = 0. -/
  | zeroWidth
  /-- INVALID_DIMENSIONS: ROW_WIDTH not a multiple of 8. -/
  | widthNotTiled
  /-- INVALID_DIMENSIONS: the row count not a multiple of 8. -/
  | rowsNotTiled
  /-- INVALID_DIMENSIONS: PACK's SRC_LEN not a multiple of 64. -/
  | partialTile
  /-- MALFORMED_PIXEL_DATA: SRC_LEN not a multiple of ROW_WIDTH. -/
  | shortRow
  /-- RANGE: the source passes the top of memory. -/
  | srcRange
  /-- RANGE: the destination passes the top of memory. -/
  | dstRange
  /-- OVERLAP: source and destination share a byte. -/
  | overlap
deriving DecidableEq, Repr

/-- ERRCODE (60_exceptions.md R182). -/
def BlockError.code : BlockError → BitVec 4
  | .reservedOpcode => 1
  | .reservedBits => 1
  | .zeroWidth => 2
  | .widthNotTiled => 2
  | .rowsNotTiled => 2
  | .partialTile => 2
  | .shortRow => 3
  | .srcRange => 4
  | .dstRange => 4
  | .overlap => 5

/-- ERRDETAIL (60_exceptions.md R182). -/
def BlockError.detail : BlockError → BitVec 4
  | .reservedOpcode => 1
  | .reservedBits => 2
  | .zeroWidth => 1
  | .widthNotTiled => 2
  | .rowsNotTiled => 3
  | .partialTile => 4
  | .shortRow => 1
  | .srcRange => 1
  | .dstRange => 2
  | .overlap => 1

/-- Every error of the table (60_exceptions.md R182). -/
def allErrors : List BlockError :=
  [.reservedOpcode, .reservedBits, .zeroWidth, .widthNotTiled, .rowsNotTiled, .partialTile,
    .shortRow, .srcRange, .dstRange, .overlap]

/-- The error of an illegal word, by its fields: the opcode is looked at first (30_encoding.md R74). -/
def illegalError (op : BitVec 4) : BlockError :=
  if 5 ≤ op.toNat then .reservedOpcode else .reservedBits

end Sys2Proof.Machine
end

