-- ==== Sys2Proof/Machine/Checks.lean ====
section
/-! DEFINITION. The checks a job's command makes at acceptance, in the order of 60_exceptions.md R181. -/

namespace Sys2Proof.Machine

/-- The dimension checks of CONVERT and REORDER (60_exceptions.md R181). -/
def checkRows (s : State) : Except BlockError Unit :=
  if s.rowWidth.toNat = 0 then .error .zeroWidth
  else if s.srcLen.toNat % s.rowWidth.toNat ≠ 0 then .error .shortRow
  else if s.rowWidth.toNat % 8 ≠ 0 then .error .widthNotTiled
  else if s.rows % 8 ≠ 0 then .error .rowsNotTiled
  else .ok ()

/-- The dimension check of PACK (60_exceptions.md R181). -/
def checkTiles (s : State) : Except BlockError Unit :=
  if s.srcLen.toNat % 64 ≠ 0 then .error .partialTile else .ok ()

/-- The dimension checks of a job. -/
def checkDims (op : JobOp) (s : State) : Except BlockError Unit :=
  match op with
  | .convert => checkRows s
  | .reorder => checkRows s
  | .pack => checkTiles s

/-- The range and overlap checks (60_exceptions.md R181); sums are exact. -/
def checkRegions (op : JobOp) (s : State) : Except BlockError Unit :=
  if s.srcBase.toNat + s.srcLen.toNat > Config.memorySize then .error .srcRange
  else if s.dstBase.toNat + outputLength op s > Config.memorySize then .error .dstRange
  else if (dstRegion op s).overlaps s.srcRegion then .error .overlap
  else .ok ()

/-- `check(op)` (60_exceptions.md R181): the first failing check, or the tile count N. -/
def check (op : JobOp) (s : State) : Except BlockError Nat :=
  match checkDims op s with
  | .error e => .error e
  | .ok () =>
    match checkRegions op s with
    | .error e => .error e
    | .ok () => .ok (tilesOf op s)

end Sys2Proof.Machine
end

