-- ==== Sys2Proof/Machine/Commands.lean ====
section
/-! DEFINITION. The meaning of every command: its acceptance (44_commands.md R160). -/

namespace Sys2Proof.Machine

/-- What a step answers. -/
abbrev Result := Host.Outcome State Fault Refusal

/-- A job's regions are ordinary memory (20_memory.md R58). -/
def regionsOrdinary (op : JobOp) (s : State) : Bool :=
  s.ordinary s.srcRegion && s.ordinary (dstRegion op s)

/-- A job command written with BUSY = 0 (44_commands.md R160): its checks, then its start or its error.
A job that would touch memory with side effects is refused (20_memory.md R58). -/
def acceptJob (op : JobOp) (s : State) : Result :=
  let s1 := clearStatus s
  match check op s1 with
  | .error e => .next (failCommand e.code e.detail s1)
  | .ok n => if regionsOrdinary op s1 then .next (startJob op n s1) else .refused .sideEffectRegion

/-- A word written while BUSY = 1 is dropped, whatever it is (70_reset_and_hazards.md R210). -/
def unlessBusy (accept : State → Result) (s : State) : Result :=
  if s.status.busy then .next (dropWord s) else accept s

/-- NOP (44_commands.md R168): no state changes. -/
def execNop (s : State) : Result := unlessBusy (fun s => .next s) s

/-- CONVERT, acceptance (44_commands.md R165); its completion is `completeConvert`. -/
def execConvert (s : State) : Result := unlessBusy (acceptJob .convert) s

/-- REORDER, acceptance (42_tile_reorder.md R127); its completion is `completeReorder`. -/
def execReorder (s : State) : Result := unlessBusy (acceptJob .reorder) s

/-- PACK, acceptance (43_bitplane_pack.md R148); its completion is `completePack`. -/
def execPack (s : State) : Result := unlessBusy (acceptJob .pack) s

/-- CLEAR (44_commands.md R169). -/
def execClear (s : State) : Result := unlessBusy (fun s => .next (clearStatus s)) s

/-- An illegal word ends with ILLEGAL_COMMAND (44_commands.md R160, 30_encoding.md R74). -/
def execIllegal (op : BitVec 4) (_rsvd : BitVec 28) (s : State) : Result :=
  unlessBusy
    (fun s => .next (failCommand (illegalError op).code (illegalError op).detail (clearStatus s))) s

end Sys2Proof.Machine
end

