-- ==== Sys2Proof/Machine/Dispatch.lean ====
section
/-! DEFINITION. The dispatch of a command word to its meaning, one arm per constructor. -/

namespace Sys2Proof.Machine

open Sys2Proof

/-- The effect of command `i` presented to the block (44_commands.md R160). -/
def exec (i : Instr) (s : State) : Host.Outcome State Fault Refusal :=
  match i with
  | .nop => Sys2Proof.Machine.execNop s
  | .convert => Sys2Proof.Machine.execConvert s
  | .reorder => Sys2Proof.Machine.execReorder s
  | .pack => Sys2Proof.Machine.execPack s
  | .clear => Sys2Proof.Machine.execClear s
  | .illegal op rsvd => Sys2Proof.Machine.execIllegal op rsvd s

end Sys2Proof.Machine
end

