-- ==== Sys2Proof/Machine/Registers.lean ====
section
/-! DEFINITION. The register window (10_state.md R22): offsets, reads, and writes of every register but CMD. -/

namespace Sys2Proof.Machine

/-- A register's byte offset in the window (10_state.md R22). -/
def Reg.offset : Reg → BitVec 6
  | .id => 0x00
  | .ctrl => 0x04
  | .cmd => 0x08
  | .status => 0x0C
  | .srcBase => 0x10
  | .srcLen => 0x14
  | .dstBase => 0x18
  | .rowWidth => 0x1C
  | .tileCount => 0x20
  | .outLen => 0x24

/-- Every named register. -/
def allRegs : List Reg :=
  [.id, .ctrl, .cmd, .status, .srcBase, .srcLen, .dstBase, .rowWidth, .tileCount, .outLen]

/-- The register at a byte offset; none at the reserved offsets (10_state.md R32). -/
def regAt (off : BitVec 6) : Option Reg := allRegs.find? fun r => r.offset == off

/-- The accesses the window supports: 32 bits at a 4-byte-aligned offset (20_memory.md R55). -/
def supportedAccess (off : BitVec 6) (size : Nat) : Bool :=
  decide (size = 4) && decide (off.toNat % 4 = 0)

/-- What a register reads as (10_state.md R22 to R31); CMD reads 0 (R25). -/
def readReg (r : Reg) (s : State) : Word :=
  match r with
  | .id => Config.idWord
  | .ctrl => s.ctrl.word
  | .cmd => 0
  | .status => s.status.word
  | .srcBase => s.srcBase
  | .srcLen => s.srcLen
  | .dstBase => s.dstBase
  | .rowWidth => s.rowWidth
  | .tileCount => s.tileCount
  | .outLen => s.outLen

/-- What a read access returns: 0 at a reserved offset (10_state.md R32) and for an unsupported access
(20_memory.md R55). -/
def readWindow (off : BitVec 6) (size : Nat) (s : State) : Word :=
  if supportedAccess off size then
    match regAt off with
    | some r => readReg r s
    | none => 0
  else 0

/-- A write of a read-write register with BUSY = 0 (10_state.md R24, R28, R29). Read-only registers ignore it
(R33); CMD stores nothing, its effect is a command (R25). -/
def storeReg (r : Reg) (v : Word) (s : State) : State :=
  match r with
  | .id => s
  | .ctrl => { s with ctrl := ctrlOfWord v }
  | .cmd => s
  | .status => s
  | .srcBase => { s with srcBase := v }
  | .srcLen => { s with srcLen := v }
  | .dstBase => { s with dstBase := v }
  | .rowWidth => { s with rowWidth := v }
  | .tileCount => s
  | .outLen => s

/-- A write of a register other than CMD: ignored while BUSY = 1 (70_reset_and_hazards.md R211). -/
def writeReg (r : Reg) (v : Word) (s : State) : State := if s.status.busy then s else storeReg r v s

/-- The register file a run's end observes: the sixteen words of the window (70_reset_and_hazards.md R216). -/
def registerFile (s : State) : List Word :=
  (List.range 16).map fun i => readWindow (BitVec.ofNat 6 (4 * i)) 4 s

end Sys2Proof.Machine
end

