-- ==== Sys2Proof/Machine/HostStep.lean ====
section
/-! DEFINITION. One operation of the host: register and memory accesses, the interrupt, reset. -/

namespace Sys2Proof.Machine

/-- A write access to the window: a CMD write presents its word to the block (10_state.md R25), another register
takes the value, a reserved offset and an unsupported access ignore it (R32, 20_memory.md R55). -/
def hostRegWrite (off : BitVec 6) (size : Nat) (v : Word) (s : State) : Result :=
  if supportedAccess off size then
    match regAt off with
    | some .cmd => exec (decode v) s
    | some r => .next (writeReg r v s)
    | none => .next s
  else .next s

/-- A read access to the window: no side effect on the block (10_state.md R22). -/
def hostRegRead (off : BitVec 6) (size : Nat) (s : State) : State :=
  noteRead (.reg off (readWindow off size s)) s

/-- One read of a `poll` (30_encoding.md R76): the operation is done when the masked value is `v`, otherwise it
stays the host's next (log 14). -/
def hostPoll (off : BitVec 6) (mask v : Word) (s : State) : State :=
  let s1 := hostRegRead off 4 s
  if readWindow off 4 s &&& mask = v then s1 else keepHostOp (.poll off mask v) s1

/-- A host write of one byte of data memory; into the running job's source or destination it breaks
20_memory.md R62 (log 6). -/
def hostMemWrite (a : Nat) (v : Byte) (s : State) : Result :=
  if Config.memorySize ≤ a then .fault (.noSuchAddress a)
  else if s.sideEffectAt a then .refused (.sideEffectAccess a)
  else .next { s with
    mem := memWrite s.mem a v
    raced := s.raced || s.jobReads a || s.jobWrites a }

/-- What a host read of one byte of data memory returns: what memory holds, or any value in the running job's
destination (20_memory.md R62, log 6). -/
def hostByte (a : Nat) (s : State) : Byte :=
  if s.jobWrites a then Config.freeByte s.draws else memRead s.mem a

/-- A host read of one byte of data memory. -/
def hostMemRead (a : Nat) (s : State) : Result :=
  if Config.memorySize ≤ a then .fault (.noSuchAddress a)
  else if s.sideEffectAt a then .refused (.sideEffectAccess a)
  else .next (noteRead (.mem a (hostByte a s))
    { s with draws := if s.jobWrites a then s.draws + 1 else s.draws })

/-- Waiting for the level of irq (60_exceptions.md R190, log 14). -/
def hostWaitIrq (s : State) : State := if s.irq then noteRead .irq s else keepHostOp .waitIrq s

/-- What the host makes of a recorded block error (40_host_header.md R101). -/
def hostErrorOf (code detail : BitVec 4) : HostError :=
  if code = 2 then .invalidDimensions
  else if code = 3 then .malformedPixelData
  else .ownProgramming code detail

/-- The failure that a STATUS word with ERR = 1 shows the host (10_state.md R27). -/
def hostErrorOfWord (v : Word) : HostError := hostErrorOf (v.extractLsb' 8 4) (v.extractLsb' 12 4)

/-- The host acts on the STATUS value that is its newest read (40_host_header.md R102; 70_reset_and_hazards.md R203,
step 7): on DONE it reads OUT_LEN and goes on to read that many bytes at `d`; on ERR it hands on the failure; with
neither, or if its newest read is no STATUS read, it hands on nothing (log 17). DESIGN CHOICE (log 17): DROP is not looked
at, so a host that launches onto a block still busy, breaking step 1 of R203, and whose CONVERT is dropped for it takes
the DONE of the job that ran for its own; the spec names no host result for that. -/
def hostHandOn (d : Nat) (s : State) : State :=
  match s.hostReads with
  | .reg off v :: _ =>
    if off = Reg.status.offset then
      if v.getLsbD 1 then
        keepHostOp (.gather d (readWindow Reg.outLen.offset 4 s).toNat []) (hostRegRead Reg.outLen.offset 4 s)
      else if v.getLsbD 2 then handResult (.failure (hostErrorOfWord v)) s
      else s
    else s
  | _ => s

/-- The host reads the next output byte, as any other host read, or hands on what it has read (log 17). -/
def hostGather (a n : Nat) (got : List Byte) (s : State) : Result :=
  match n with
  | 0 => .next (handResult (.output got.reverse) s)
  | n + 1 =>
    match hostMemRead a s with
    | .next t => .next (keepHostOp (.gather (a + 1) n (hostByte a s :: got)) t)
    | .fault f => .fault f
    | .refused r => .refused r

/-- One host operation, already taken off the host's list. -/
def hostStep (op : HostOp) (s : State) : Result :=
  match op with
  | .regWrite off size v => hostRegWrite off size v s
  | .regRead off size => .next (hostRegRead off size s)
  | .poll off mask v => .next (hostPoll off mask v s)
  | .memWrite a v => hostMemWrite a v s
  | .memRead a => hostMemRead a s
  | .waitIrq => .next (hostWaitIrq s)
  | .reset => .next (resetBlock s)
  | .handOn d => .next (hostHandOn d s)
  | .gather a n got => hostGather a n got s

/-- The host's turn: its next operation, or nothing when it has none left (log 12). -/
def hostTurn (s : State) : Result :=
  match s.hostOps with
  | [] => .next s
  | op :: rest => hostStep op { s with hostOps := rest }

/-- One step of the machine. The block's completion is taken when the running job's LATENCY has passed
(44_commands.md R166, log 4); otherwise the host moves, and a running job has one host step less to wait. -/
def machineStep (s : State) : Result :=
  match s.job with
  | none => hostTurn s
  | some op => if s.delay = 0 then .next (completeJob op s) else hostTurn { s with delay := s.delay - 1 }

/-- The state whose next step presents command word `w` to the block: a 32-bit write to CMD is the host's next
operation, and a running job does not complete before it. -/
def withCommand (w : Word) (s : State) : State :=
  { s with
    hostOps := .regWrite Reg.cmd.offset 4 w :: s.hostOps
    delay := if s.job.isSome && s.delay == 0 then 1 else s.delay }

end Sys2Proof.Machine
end

