-- ==== Sys2Proof/Machine/Step.lean ====
section
/-! DEFINITION. The step, and the placing of a command where the next step takes it from. -/

namespace Sys2Proof.Machine

/-- One step of host and block (00_scope.md R9). -/
def step (s : State) : Host.Outcome State Fault Refusal := machineStep s

/-- `s` with the command word `w` of `nbits` bits as the next thing the block is given (log 2). -/
def State.withFetchWord (s : State) (nbits w : Nat) : State := withCommand (tableWord nbits w) s

end Sys2Proof.Machine
end

