-- ==== Sys2Proof/Machine/Program.lean ====
section
/-! DEFINITION. Host program notation (30_encoding.md R76, R77) and register accesses by platform address (20_memory.md R55). -/

namespace Sys2Proof.Machine

/-- `wr REG, v` (30_encoding.md R76). -/
def hostWr (r : Reg) (v : Word) : HostOp := .regWrite r.offset 4 v

/-- `rd REG` (30_encoding.md R76). -/
def hostRd (r : Reg) : HostOp := .regRead r.offset 4

/-- `poll REG, m, v` (30_encoding.md R76). -/
def hostPollReg (r : Reg) (mask v : Word) : HostOp := .poll r.offset mask v

/-- `mem A, b0 b1 …` (30_encoding.md R76): one host write per byte. -/
def hostMem (a : Nat) : List Byte → List HostOp
  | [] => []
  | b :: bs => .memWrite a b :: hostMem (a + 1) bs

/-- `memchk A, …` for `n` bytes (30_encoding.md R76): one host read per byte. -/
def hostMemchk (a n : Nat) : List HostOp := (List.range n).map fun i => .memRead (a + i)

/-- `nop` (30_encoding.md R77). -/
def pseudoNop : List HostOp := [hostWr .cmd 0x0]

/-- `convert` (30_encoding.md R77). -/
def pseudoConvert : List HostOp := [hostWr .cmd 0x1]

/-- `reorder` (30_encoding.md R77). -/
def pseudoReorder : List HostOp := [hostWr .cmd 0x2]

/-- `pack` (30_encoding.md R77). -/
def pseudoPack : List HostOp := [hostWr .cmd 0x3]

/-- `clear` (30_encoding.md R77). -/
def pseudoClear : List HostOp := [hostWr .cmd 0x4]

/-- `wait` (30_encoding.md R77). -/
def pseudoWait : List HostOp := [hostPollReg .status 0x1 0x0]

/-- `setup s, l, d` (30_encoding.md R77). -/
def pseudoSetup (s l d : Word) : List HostOp := [hostWr .srcBase s, hostWr .srcLen l, hostWr .dstBase d]

/-- `width w` (30_encoding.md R77). -/
def pseudoWidth (w : Word) : List HostOp := [hostWr .rowWidth w]

/-- `order o, ie` (30_encoding.md R77). -/
def pseudoOrder (o ie : Bool) : List HostOp := [hostWr .ctrl (Ctrl.word { rowOrder := o, ie := ie })]

/-- The host's sequence for one job (70_reset_and_hazards.md R203, steps 4 to 6): the operand registers, the command
word, the wait. -/
def jobProgram (o ie : Bool) (s l d w cmd : Word) : List HostOp :=
  pseudoOrder o ie ++ pseudoSetup s l d ++ pseudoWidth w ++ [hostWr .cmd cmd] ++ pseudoWait

/-- What the end of a run observes (70_reset_and_hazards.md R216): the register file and data memory. -/
def observation (s : State) : List Word × Memory := (registerFile s, s.mem)

/-- The little-endian value of an access's bytes, lowest address first (20_memory.md R55). -/
def wordOfLanes (bytes : List Byte) : Word :=
  wordOfBytes (bytes.getD 0 0) (bytes.getD 1 0) (bytes.getD 2 0) (bytes.getD 3 0)

/-- Whether a platform address is in the register window (10_state.md R22, 20_memory.md R59). -/
def inWindow (addr : Nat) : Bool := decide (Config.regBase ≤ addr) && decide (addr < Config.regBase + 64)

/-- The window offset of a platform address in the window. -/
def windowOffset (addr : Nat) : BitVec 6 := BitVec.ofNat 6 (addr - Config.regBase)

/-- A host bus write of `bytes` that starts at a platform address in the window, as the window sees it. DESIGN CHOICE
(log 8): an access that starts outside the window, one that runs into it among them, is none of the block's. -/
def busWrite (addr : Nat) (bytes : List Byte) : Option HostOp :=
  if inWindow addr then some (.regWrite (windowOffset addr) bytes.length (wordOfLanes bytes)) else none

/-- A host bus read of `size` bytes that starts at a platform address in the window; none outside, as for `busWrite`
(DESIGN CHOICE, log 8). -/
def busRead (addr size : Nat) : Option HostOp :=
  if inWindow addr then some (.regRead (windowOffset addr) size) else none

/-- The bytes the block returns for a host bus read: byte `k` carries bits `8k+7 : 8k` (20_memory.md R55). The block
returns nothing for a read that starts outside the window: what it returns is the platform's (DESIGN CHOICE, log 8). -/
def busReadBytes (addr size : Nat) (s : State) : Option (List Byte) :=
  if inWindow addr then
    some ((List.range size).map fun k => lane (readWindow (windowOffset addr) size s) k)
  else none

end Sys2Proof.Machine
end

