-- ==== Sys2Proof/Machine/Header.lean ====
section
/-! DEFINITION. The host's software before the block: the Header Parser, the caller's validation, the program it runs (40_host_header.md). -/

namespace Sys2Proof.Machine

/-- ImageMetadata (40_host_header.md R90 to R92). -/
structure ImageMetadata where
  offset : Nat
  width : Int
  height : Int
  bpp : Nat
  compression : Nat
deriving DecidableEq, Repr

/-- `B[i]` (00_scope.md R14). -/
def byteAt (b : List Byte) (i : Nat) : Byte := b.getD i 0

/-- `u16(B, o)` (40_host_header.md R92). -/
def u16 (b : List Byte) (o : Nat) : BitVec 16 := byteAt b (o + 1) ++ byteAt b o

/-- `u32(B, o)` (40_host_header.md R92). -/
def u32 (b : List Byte) (o : Nat) : Word :=
  wordOfBytes (byteAt b o) (byteAt b (o + 1)) (byteAt b (o + 2)) (byteAt b (o + 3))

/-- `s32(B, o)`, two's complement (40_host_header.md R92). -/
def s32 (b : List Byte) (o : Nat) : Int := (u32 b o).toInt

/-- The fields the parser reads (40_host_header.md R91). -/
def metadataOf (b : List Byte) : ImageMetadata :=
  { offset := (u32 b 0x0A).toNat
    width := s32 b 0x12
    height := s32 b 0x16
    bpp := (u16 b 0x1C).toNat
    compression := (u32 b 0x1E).toNat }

/-- `parse(B)` (40_host_header.md R94). -/
def parseHeader (b : List Byte) : Except HostError ImageMetadata :=
  if b.length < 2 then .error .truncatedHeader
  else if byteAt b 0 ≠ 0x42 ∨ byteAt b 1 ≠ 0x4D then .error .invalidFormat
  else if b.length < 34 then .error .truncatedHeader
  else .ok (metadataOf b)

/-- `validate(m)` (40_host_header.md R95). -/
def validateHeader (m : ImageMetadata) : Except HostError Unit :=
  if m.width ≠ 128 then .error .unsupportedWidth
  else if m.height.natAbs % 8 ≠ 0 then .error .unsupportedHeight
  else if m.bpp > 8 then .error .unsupportedColorDepth
  else if m.compression ≠ 0 then .error .unsupportedCompression
  else .ok ()

/-- The pixel-data region must begin inside the buffer (40_host_header.md R97). -/
def checkPixelOffset (b : List Byte) (m : ImageMetadata) : Except HostError Unit :=
  if m.offset > b.length then .error .malformedPixelData else .ok ()

/-- The host's whole examination of a bitmap, before it programs the block (40_host_header.md R96). DESIGN CHOICE (log 19):
the pixel offset (R97) is checked last, so a bitmap that also violates a rule of R95 fails with that rule's result; the spec
orders R94 and R95 only. -/
def examine (b : List Byte) : Except HostError ImageMetadata :=
  match parseHeader b with
  | .error e => .error e
  | .ok m =>
    match validateHeader m with
    | .error e => .error e
    | .ok () =>
      match checkPixelOffset b m with
      | .error e => .error e
      | .ok () => .ok m

/-- The program for a bitmap of `len` bytes at `a` with its output at `d` (40_host_header.md R98). -/
def bitmapProgram (a d len : Nat) (ie : Bool) (m : ImageMetadata) : List HostOp :=
  pseudoOrder true ie ++
    [hostWr .srcBase (BitVec.ofNat 32 (a + m.offset)),
     hostWr .srcLen (BitVec.ofNat 32 (len - m.offset)),
     hostWr .dstBase (BitVec.ofNat 32 d),
     hostWr .rowWidth (BitVec.ofInt 32 m.width)] ++
    pseudoConvert ++ pseudoWait

/-- A host that converts bitmap `b`: it places the bytes at `a`, runs the program and acts on the STATUS value its wait
read, or fails and leaves the block alone (40_host_header.md R96, R98, R102). -/
def launchBitmap (b : List Byte) (a d : Nat) (ie : Bool) (s : State) : Except HostError State :=
  match examine b with
  | .error e => .error e
  | .ok m =>
    .ok { s with
      hostOps := s.hostOps ++ hostMem a b ++ bitmapProgram a d b.length ie m ++ [.handOn d] }

end Sys2Proof.Machine
end

