-- ==== Sys2Proof/Safety.lean ====
section
/-! DEFINITION. The invariant of the machine, and what a run must keep for the spec's guarantees to hold. -/

namespace Sys2Proof.Machine

/-- At most one of BUSY, DONE and ERR is 1 (10_state.md R26). -/
def Status.exclusive (st : Status) : Prop :=
  ¬(st.busy = true ∧ st.done = true) ∧ ¬(st.busy = true ∧ st.err = true) ∧
    ¬(st.done = true ∧ st.err = true)

/-- ERRCODE and ERRDETAIL are those of one of the table's errors when ERR = 1, and 0 when ERR = 0
(10_state.md R26, 60_exceptions.md R182). -/
def Status.recordLegal (st : Status) : Prop :=
  if st.err then ∃ e ∈ allErrors, st.errCode = e.code ∧ st.errDetail = e.detail
  else st.errCode = 0 ∧ st.errDetail = 0

/-- The running job passed its checks with the operands the registers hold, TILE_COUNT holds its N and OUT_LEN
is 0 (44_commands.md R161, R162; 70_reset_and_hazards.md R213). -/
def State.jobChecked (s : State) (op : JobOp) : Prop :=
  check op s = .ok (tilesOf op s) ∧ s.tileCount = BitVec.ofNat 32 (tilesOf op s) ∧ s.outLen = 0

/-- The machine's invariant. -/
structure State.Inv (s : State) : Prop where
  /-- The memory is in its canonical form. -/
  memWf : Memory.wf s.mem = true
  /-- No byte is listed outside data memory. -/
  memSpace : memInSpace s.mem = true
  /-- `job = none` exactly when BUSY = 0 (10_state.md R40). -/
  busyJob : s.status.busy = s.job.isSome
  /-- At most one of BUSY, DONE, ERR. -/
  exclusive : s.status.exclusive
  /-- The error record is one of the table's. -/
  record : s.status.recordLegal
  /-- DROP is set only when a job runs or has run since the record was cleared. -/
  dropJob : s.status.drop = true → s.status.busy = true ∨ s.status.done = true
  /-- After an error TILE_COUNT and OUT_LEN are 0 (60_exceptions.md R184). -/
  errCounts : s.status.err = true → s.tileCount = 0 ∧ s.outLen = 0
  /-- The running job passed its checks. -/
  jobOk : ∀ op, s.job = some op → s.jobChecked op
  /-- A race is recorded only against a running job. -/
  racedJob : s.raced = true → s.job.isSome = true

/-- The operation the host would perform now keeps its duty to the running job (20_memory.md R62). -/
def HostOp.dutiful (op : HostOp) (s : State) : Bool :=
  match op with
  | .regWrite _ _ _ => true
  | .regRead _ _ => true
  | .poll _ _ _ => true
  | .memWrite a _ => !s.jobReads a && !s.jobWrites a
  | .memRead a => !s.jobWrites a
  | .waitIrq => true
  | .reset => true
  | .handOn _ => true
  | .gather a n _ => n == 0 || !s.jobWrites a

/-- The run has ended: nothing left for the host, no job (70_reset_and_hazards.md R216). -/
def State.ended (s : State) : Bool := s.hostOps.isEmpty && s.job.isNone

/-- The block completes its job in the next step. -/
def State.completesNow (s : State) : Bool := s.job.isSome && s.delay == 0

/-- The state the host's next operation acts on, the operation `op` taken off its list and the running job one
host step nearer to completion. -/
def State.hostMoves (s : State) (rest : List HostOp) : State :=
  { s with hostOps := rest, delay := if s.job.isSome then s.delay - 1 else s.delay }

/-! ### The states and conditions the claims speak of -/

/-- `(rows / 8) * (W / 8)`, the tile count of CONVERT and REORDER (42_tile_reorder.md R122). -/
def rowTiles (s : State) : Nat :=
  s.srcLen.toNat / s.rowWidth.toNat / 8 * (s.rowWidth.toNat / 8)

/-- `SRC_LEN / 64`, the tile count of PACK (43_bitplane_pack.md R148). -/
def lengthTiles (s : State) : Nat := s.srcLen.toNat / 64

/-- The dimensions CONVERT and REORDER ask for (60_exceptions.md R181). -/
def RowDims (s : State) : Prop :=
  0 < s.rowWidth.toNat ∧ s.srcLen.toNat % s.rowWidth.toNat = 0 ∧ s.rowWidth.toNat % 8 = 0 ∧
    s.srcLen.toNat / s.rowWidth.toNat % 8 = 0

/-- The source, and a destination of `len` bytes, end inside data memory (60_exceptions.md R181). -/
def InRange (s : State) (len : Nat) : Prop :=
  s.srcBase.toNat + s.srcLen.toNat ≤ 2 ^ 32 ∧ s.dstBase.toNat + len ≤ 2 ^ 32

/-- The source and a destination of `len` bytes share a byte (60_exceptions.md R181). -/
def SharesByte (s : State) (len : Nat) : Prop :=
  0 < len ∧ 0 < s.srcLen.toNat ∧ s.srcBase.toNat < s.dstBase.toNat + len ∧
    s.dstBase.toNat < s.srcBase.toNat + s.srcLen.toNat

/-- No region with side effects touches the source or a destination of `len` bytes (20_memory.md R58). -/
def OrdinaryMemory (s : State) (len : Nat) : Prop :=
  ∀ d ∈ s.devices,
    d.overlaps { base := s.srcBase.toNat, len := s.srcLen.toNat } = false ∧
      d.overlaps { base := s.dstBase.toNat, len := len } = false

/-- A destination of `len` bytes passes every check that is about regions. -/
def RegionsFit (s : State) (len : Nat) : Prop :=
  InRange s len ∧ ¬SharesByte s len ∧ OrdinaryMemory s len

/-- The word that commands a job. -/
def commandOf : JobOp → Instr
  | .convert => .convert
  | .reorder => .reorder
  | .pack => .pack

/-- The job's tile count N. -/
def jobTiles : JobOp → State → Nat
  | .convert, s => rowTiles s
  | .reorder, s => rowTiles s
  | .pack, s => lengthTiles s

/-- The bytes a job writes for one tile (44_commands.md R163). -/
def jobBytes : JobOp → Nat
  | .convert => 16
  | .reorder => 64
  | .pack => 16

/-- A job's command passes all its checks. -/
def JobReady : JobOp → State → Prop
  | .convert, s => RowDims s ∧ RegionsFit s (16 * rowTiles s)
  | .reorder, s => RowDims s ∧ RegionsFit s (64 * rowTiles s)
  | .pack, s => s.srcLen.toNat % 64 = 0 ∧ RegionsFit s (16 * lengthTiles s)

/-- The bytes a job writes for tile `t`, from the memory it found (44_commands.md R165, 42_tile_reorder.md R127,
43_bitplane_pack.md R148). -/
def jobBlock : JobOp → State → Nat → List Byte
  | .convert, s, t => packTile (s.tile t)
  | .reorder, s, t => s.tile t
  | .pack, s, t => packTile (s.packedTile t)

/-- `s` with BUSY = DONE = DROP = 0, the error recorded and the counts 0 (60_exceptions.md R184). -/
def errorState (code detail : BitVec 4) (s : State) : State :=
  { s with
    status := { busy := false, done := false, err := true, drop := false, errCode := code, errDetail := detail }
    tileCount := 0
    outLen := 0 }

/-- `s` with job `op` of `n` tiles started (44_commands.md R161) and its LATENCY drawn (log 4). -/
def startedState (op : JobOp) (n : Nat) (s : State) : State :=
  { s with
    status := { busy := true, done := false, err := false, drop := false, errCode := 0, errDetail := 0 }
    tileCount := BitVec.ofNat 32 n
    outLen := 0
    job := some op
    raced := false
    delay := Config.latency s.draws
    draws := s.draws + 1 }

/-- `s` with its job completed after `len` bytes (44_commands.md R165), memory `m`. -/
def doneState (len : Nat) (m : Memory) (s : State) : State :=
  { s with
    status := { s.status with busy := false, done := true }
    outLen := BitVec.ofNat 32 len
    job := none
    mem := m
    raced := false }

end Sys2Proof.Machine
end

