-- ==== Sys2Proof/Certificates/Slice0/Obligations.lean ====
section
/-! DEFINITION. The statements for the provers. -/

open Sys2Proof Sys2Proof.Machine

/-! ### Encoding -/

/-- The words of the opcode map (30_encoding.md R71), and four words of its reserved rows. -/
def Obligations.OpcodeMapWordsDecode : Prop :=
  decode 0x00000000 = .nop ∧ decode 0x00000001 = .convert ∧ decode 0x00000002 = .reorder ∧
    decode 0x00000003 = .pack ∧ decode 0x00000004 = .clear ∧
    decode 0x00000005 = .illegal 5 0 ∧ decode 0x0000000F = .illegal 15 0 ∧
    decode 0x00000011 = .illegal 1 1 ∧ decode 0xFFFFFFF0 = .illegal 0 0xFFFFFFF

/-- Decode and encode agree on every command and on every word: no bit of a command word is dropped
(30_encoding.md R70, R74). -/
def Obligations.DecodeInvertsEncode : Prop :=
  (∀ i : Instr, i.wellFormed = true → decode (encode i) = i) ∧
    ∀ w : Word, (decode w).wellFormed = true ∧ encode (decode w) = w

/-- 30_encoding.md R74: what every word decodes to, by its low four bits and the rest, and what presenting it does. -/
def Obligations.DecodingOfEveryWord : Prop :=
  ∀ w : Word,
    (5 ≤ w.toNat % 16 →
      ∃ op rsvd, decode w = .illegal op rsvd ∧ op.toNat = w.toNat % 16 ∧ rsvd.toNat = w.toNat / 16 ∧
        ∀ s : State, s.status.busy = false → exec (decode w) s = .next (errorState 1 1 s)) ∧
    (w.toNat % 16 < 5 → w.toNat / 16 ≠ 0 →
      ∃ op rsvd, decode w = .illegal op rsvd ∧ op.toNat = w.toNat % 16 ∧ rsvd.toNat = w.toNat / 16 ∧
        ∀ s : State, s.status.busy = false → exec (decode w) s = .next (errorState 1 2 s)) ∧
    (w.toNat % 16 < 5 → w.toNat / 16 = 0 →
      some (decode w) = [Instr.nop, .convert, .reorder, .pack, .clear][w.toNat % 16]?) ∧
    ∀ s : State, s.status.busy = true →
      exec (decode w) s = .next { s with status := { s.status with drop := true } }

/-- A command word is laid out in four bytes, little-endian; the decoder reads it there, and rejects only byte
sequences shorter than a word (30_encoding.md R70, 20_memory.md R55). -/
def Obligations.CommandBytesAreLittleEndian : Prop :=
  (∀ (w : Word) (rest : List Byte),
      decodeBytes (BitVec.ofNat 8 w.toNat :: BitVec.ofNat 8 (w.toNat / 2 ^ 8) ::
        BitVec.ofNat 8 (w.toNat / 2 ^ 16) :: BitVec.ofNat 8 (w.toNat / 2 ^ 24) :: rest) =
        .ok (decode w, rest)) ∧
    ∀ bs : List Byte, decodeBytes bs = .error .truncated ↔ bs.length < 4

/-- When the host's next operation is a 32-bit write of `w` to CMD and no completion is due, the step is exec of the
decoded word, at the state with that operation taken and a running job one host step nearer its completion
(log 4); and `withFetchWord` makes it so. -/
def Obligations.StepPresentsCommandWord : Prop :=
  (∀ (s : State) (w : Word) (rest : List HostOp), s.completesNow = false →
      s.hostOps = .regWrite 0x08 4 w :: rest → step s = exec (decode w) (s.hostMoves rest)) ∧
    ∀ (s : State) (w : Word),
      ∃ d, step (s.withFetchWord 32 w.toNat) = exec (decode w) { s with delay := d } ∧
        (s.job = none → d = s.delay)

/-! ### Commands -/

/-- 44_commands.md R168: accepted, NOP changes no state; while busy it is dropped. -/
def Obligations.NopChangesNothing : Prop :=
  ∀ s : State,
    (s.status.busy = false → exec .nop s = .next s) ∧
      (s.status.busy = true → exec .nop s = .next { s with status := { s.status with drop := true } })

/-- 44_commands.md R169: accepted, CLEAR clears the record and nothing else, so STATUS is 0 and irq is 0; while busy
it is dropped. -/
def Obligations.ClearClearsTheRecord : Prop :=
  ∀ s : State,
    (s.status.busy = false →
      ∃ t, exec .clear s = .next t ∧
        t = { s with status :=
          { busy := false, done := false, err := false, drop := false, errCode := 0, errDetail := 0 } } ∧
        t.status.word = 0 ∧ t.irq = false) ∧
      (s.status.busy = true → exec .clear s = .next { s with status := { s.status with drop := true } })

/-- CONVERT whose operands pass every check starts its job with N tiles and touches no memory
(44_commands.md R161, R165). The drawn LATENCY is the model's (log 4). -/
def Obligations.ConvertStarts : Prop :=
  ∀ s : State, s.status.busy = false → RowDims s → RegionsFit s (16 * rowTiles s) →
    exec .convert s = .next (startedState .convert (rowTiles s) s)

/-- REORDER whose operands pass every check starts its job (44_commands.md R161, 42_tile_reorder.md R127). The drawn
LATENCY is the model's (log 4). -/
def Obligations.ReorderStarts : Prop :=
  ∀ s : State, s.status.busy = false → RowDims s → RegionsFit s (64 * rowTiles s) →
    exec .reorder s = .next (startedState .reorder (rowTiles s) s)

/-- PACK whose operands pass every check starts its job, whatever ROW_WIDTH and ROW_ORDER hold
(44_commands.md R161, 43_bitplane_pack.md R148). The drawn LATENCY is the model's (log 4). -/
def Obligations.PackStarts : Prop :=
  ∀ s : State, s.status.busy = false → s.srcLen.toNat % 64 = 0 → RegionsFit s (16 * lengthTiles s) →
    exec .pack s = .next (startedState .pack (lengthTiles s) s)

/-- An illegal word ends with ILLEGAL_COMMAND, detail 1 for a reserved opcode and 2 for reserved bits on a legal one,
and changes nothing but the record and the counts (60_exceptions.md R182, R184). -/
def Obligations.IllegalWordEndsInError : Prop :=
  ∀ (s : State) (op : BitVec 4) (rsvd : BitVec 28), s.status.busy = false →
    (5 ≤ op.toNat → exec (.illegal op rsvd) s = .next (errorState 1 1 s)) ∧
      (op.toNat < 5 → exec (.illegal op rsvd) s = .next (errorState 1 2 s))

/-- 70_reset_and_hazards.md R210: while busy every word only sets DROP; the job's later completion leaves STATUS
0x0000000A; DROP is cleared only by a CMD write other than NOP with BUSY = 0 (44_commands.md R160), or by reset. -/
def Obligations.BusyWordIsDropped : Prop :=
  (∀ (s : State) (i : Instr), s.status.busy = true →
      exec i s = .next { s with status := { s.status with drop := true } }) ∧
    (∀ (s : State) (op : JobOp), s.Inv → s.job = some op → s.status.drop = true → s.delay = 0 →
      ∃ t, step s = .next t ∧ t.status.drop = true ∧ t.status.word = 0x0000000A ∧ t.job = none) ∧
    ∀ s t : State, s.Inv → step s = .next t → s.status.drop = true → t.status.drop = false →
      ∃ op rest, s.hostOps = op :: rest ∧
        (op = .reset ∨ ∃ w, op = .regWrite 0x08 4 w ∧ decode w ≠ .nop ∧ s.status.busy = false)

/-- The dimension checks of CONVERT and REORDER, in the order of 60_exceptions.md R181: each failing check, the ones
before it passed, is the error reported. -/
def Obligations.RowJobsReportFirstFailingDimension : Prop :=
  ∀ (s : State) (i : Instr), (i = .convert ∨ i = .reorder) → s.status.busy = false →
    (s.rowWidth.toNat = 0 → exec i s = .next (errorState 2 1 s)) ∧
    (0 < s.rowWidth.toNat → s.srcLen.toNat % s.rowWidth.toNat ≠ 0 →
      exec i s = .next (errorState 3 1 s)) ∧
    (0 < s.rowWidth.toNat → s.srcLen.toNat % s.rowWidth.toNat = 0 → s.rowWidth.toNat % 8 ≠ 0 →
      exec i s = .next (errorState 2 2 s)) ∧
    (0 < s.rowWidth.toNat → s.srcLen.toNat % s.rowWidth.toNat = 0 → s.rowWidth.toNat % 8 = 0 →
      s.srcLen.toNat / s.rowWidth.toNat % 8 ≠ 0 → exec i s = .next (errorState 2 3 s))

/-- PACK's dimension check (60_exceptions.md R181): a length that is no whole number of tiles. -/
def Obligations.PackReportsPartialTile : Prop :=
  ∀ s : State, s.status.busy = false → s.srcLen.toNat % 64 ≠ 0 →
    exec .pack s = .next (errorState 2 4 s)

/-- The region checks of every job, after its dimensions passed (60_exceptions.md R181): source range, then
destination range, then overlap. Sums are exact. -/
def Obligations.RegionErrorsInOrder : Prop :=
  ∀ (s : State) (op : JobOp) (len : Nat), s.status.busy = false →
    len = jobBytes op * jobTiles op s →
    (match op with
      | .convert => RowDims s
      | .reorder => RowDims s
      | .pack => s.srcLen.toNat % 64 = 0) →
    (2 ^ 32 < s.srcBase.toNat + s.srcLen.toNat →
      exec (commandOf op) s = .next (errorState 4 1 s)) ∧
    (s.srcBase.toNat + s.srcLen.toNat ≤ 2 ^ 32 → 2 ^ 32 < s.dstBase.toNat + len →
      exec (commandOf op) s = .next (errorState 4 2 s)) ∧
    (InRange s len → SharesByte s len → exec (commandOf op) s = .next (errorState 5 1 s))

/-- 60_exceptions.md R185, with R184: a command that ends in an error leaves BUSY = DONE = DROP = 0, one of the table's
records, TILE_COUNT = OUT_LEN = 0, no job, every other register and all of memory as before, and irq = IE; and it has
read no memory: over any other memory it ends in the same error. -/
def Obligations.ErrorsArePrecise : Prop :=
  ∀ (s t : State) (i : Instr), s.Inv → s.status.busy = false → i ≠ .nop → exec i s = .next t →
    t.status.err = true →
    t = errorState t.status.errCode t.status.errDetail s ∧ t.job = none ∧ t.irq = s.ctrl.ie ∧
      (∃ e ∈ allErrors, t.status.errCode = e.code ∧ t.status.errDetail = e.detail) ∧
      ∀ m : Memory, exec i { s with mem := m } = .next { t with mem := m }

/-- 60_exceptions.md R186: a recorded error is left only by a CMD write other than NOP, or by reset. -/
def Obligations.ErrorRecordStaysUntilCommandOrReset : Prop :=
  ∀ s t : State, s.Inv → step s = .next t → s.status.err = true → t.status ≠ s.status →
    ∃ op rest, s.hostOps = op :: rest ∧
      (op = .reset ∨ ∃ w, op = .regWrite 0x08 4 w ∧ decode w ≠ .nop)

/-! ### Completion -/

/-- A job completes after the host steps its LATENCY leaves it, unless reset: until then it runs with the same
operands; then BUSY = 0 and DONE = 1 (44_commands.md R166, 70_reset_and_hazards.md R215). The countdown is the model's
(log 4). -/
def Obligations.JobCompletesAfterItsLatency : Prop :=
  ∀ (s t : State) (op : JobOp) (k : Nat), s.Inv → s.job = some op → HostOp.reset ∉ s.hostOps →
    Host.Core.run Sys2Proof.core k s = .next t →
    (k ≤ s.delay →
      t.job = some op ∧ t.delay = s.delay - k ∧ t.srcBase = s.srcBase ∧ t.srcLen = s.srcLen ∧
        t.dstBase = s.dstBase ∧ t.rowWidth = s.rowWidth ∧ t.ctrl = s.ctrl) ∧
      (k = s.delay + 1 →
        t.job = none ∧ t.status.busy = false ∧ t.status.done = true ∧
          t.outLen = BitVec.ofNat 32 (jobBytes op * jobTiles op s))

/-- Completion of CONVERT: block `i` of the destination is the packed tile `i` of the image, OUT_LEN = 16 * N, DONE;
every byte outside the destination and every other register is as before (44_commands.md R165, 43_bitplane_pack.md R144). -/
def Obligations.ConvertWritesPackedTiles : Prop :=
  ∀ s : State, s.Inv → s.job = some .convert → s.delay = 0 → s.raced = false →
    ∃ m, step s = .next (doneState (16 * rowTiles s) m s) ∧
      (∀ i, i < rowTiles s → memBytes m (s.dstBase.toNat + 16 * i) 16 = packTile (s.tile i)) ∧
      ∀ a, ¬(s.dstBase.toNat ≤ a ∧ a < s.dstBase.toNat + 16 * rowTiles s) → memRead m a = memRead s.mem a

/-- Completion of REORDER: the destination is the tile sequence, whole bytes unmasked (42_tile_reorder.md R127). -/
def Obligations.ReorderWritesTiles : Prop :=
  ∀ s : State, s.Inv → s.job = some .reorder → s.delay = 0 → s.raced = false →
    ∃ m, step s = .next (doneState (64 * rowTiles s) m s) ∧
      (∀ i, i < rowTiles s → memBytes m (s.dstBase.toNat + 64 * i) 64 = s.tile i) ∧
      ∀ a, ¬(s.dstBase.toNat ≤ a ∧ a < s.dstBase.toNat + 64 * rowTiles s) → memRead m a = memRead s.mem a

/-- Completion of PACK: block `i` of the destination is the packed `i`-th 64 source bytes (43_bitplane_pack.md R148). -/
def Obligations.PackWritesPackedTiles : Prop :=
  ∀ s : State, s.Inv → s.job = some .pack → s.delay = 0 → s.raced = false →
    ∃ m, step s = .next (doneState (16 * lengthTiles s) m s) ∧
      (∀ i, i < lengthTiles s →
        memBytes m (s.dstBase.toNat + 16 * i) 16 =
          packTile (memBytes s.mem (s.srcBase.toNat + 64 * i) 64)) ∧
      ∀ a, ¬(s.dstBase.toNat ≤ a ∧ a < s.dstBase.toNat + 16 * lengthTiles s) → memRead m a = memRead s.mem a

/-- From the CMD write to the end of the job: a ready command, written to an idle block whose host has nothing else to
do, ends with STATUS = 2, OUT_LEN = L, the job's blocks in the destination and nothing else of memory changed, whatever
LATENCY is drawn (44_commands.md R160, R161, R165, R166). The number of steps is the model's (log 4). -/
def Obligations.CommandedJobDelivers : Prop :=
  ∀ (s : State) (op : JobOp), s.Inv → s.status.busy = false → JobReady op s →
    s.hostOps = [.regWrite 0x08 4 (encode (commandOf op))] →
    ∃ t, Host.Core.run Sys2Proof.core (Config.latency s.draws + 2) s = .next t ∧
      t.status.word = 2 ∧ t.job = none ∧ t.hostOps = [] ∧
      t.tileCount.toNat = jobTiles op s ∧ t.outLen.toNat = jobBytes op * jobTiles op s ∧
      t.ctrl = s.ctrl ∧ t.srcBase = s.srcBase ∧ t.srcLen = s.srcLen ∧ t.dstBase = s.dstBase ∧
      t.rowWidth = s.rowWidth ∧
      (∀ i, i < jobTiles op s →
        memBytes t.mem (s.dstBase.toNat + jobBytes op * i) (jobBytes op) = jobBlock op s i) ∧
      ∀ a, ¬(s.dstBase.toNat ≤ a ∧ a < s.dstBase.toNat + jobBytes op * jobTiles op s) →
        memRead t.mem a = memRead s.mem a

/-- The host's sequence for a job (70_reset_and_hazards.md R203, steps 4 to 6): the operand writes, the command, the wait.
On an idle block it runs to its end: the last STATUS read is 2 when the operands pass their checks, and the job's blocks
lie in the destination; when a check fails it shows the error at once, after seven steps, and memory is as it was. -/
def Obligations.HostJobSequenceRunsToItsEnd : Prop :=
  ∀ (s s1 : State) (op : JobOp) (o ie : Bool) (src len dst w : Word), s.Inv → s.job = none →
    s.hostOps = jobProgram o ie src len dst w (encode (commandOf op)) →
    s1 = { s with
      ctrl := { rowOrder := o, ie := ie }
      srcBase := src
      srcLen := len
      dstBase := dst
      rowWidth := w } →
    (JobReady op s1 →
      ∃ k t, Host.Core.run Sys2Proof.core k s = .next t ∧ t.ended = true ∧ t.irq = ie ∧
        t.hostReads.head? = some (.reg 0x0C 2) ∧ t.outLen.toNat = jobBytes op * jobTiles op s1 ∧
        (∀ i, i < jobTiles op s1 →
          memBytes t.mem (dst.toNat + jobBytes op * i) (jobBytes op) = jobBlock op s1 i) ∧
        ∀ a, ¬(dst.toNat ≤ a ∧ a < dst.toNat + jobBytes op * jobTiles op s1) →
          memRead t.mem a = memRead s.mem a) ∧
      ∀ e, check op s1 = .error e →
        ∃ t, Host.Core.run Sys2Proof.core 7 s = .next t ∧ t.ended = true ∧ t.irq = ie ∧ t.mem = s.mem ∧
          t.hostReads.head? = some (.reg 0x0C t.status.word) ∧
          t.status = (errorState e.code e.detail s1).status

/-- CONVERT's output equals PACK applied to REORDER's output with the same operands (44_commands.md R167): `s1` completes
REORDER, `s2` packs the bytes it wrote, `s3` completes CONVERT of what `s1` read. -/
def Obligations.ConvertIsPackAfterReorder : Prop :=
  ∀ s1 s2 s3 t1 t2 t3 : State, s1.Inv → s2.Inv → s3.Inv →
    s1.job = some .reorder → s2.job = some .pack → s3.job = some .convert →
    s1.delay = 0 → s2.delay = 0 → s3.delay = 0 →
    s1.raced = false → s2.raced = false → s3.raced = false →
    step s1 = .next t1 → step s2 = .next t2 → step s3 = .next t3 →
    s3.srcBase = s1.srcBase → s3.srcLen = s1.srcLen → s3.rowWidth = s1.rowWidth →
    s3.ctrl.rowOrder = s1.ctrl.rowOrder →
    (∀ i, i < s1.srcLen.toNat →
      memRead s3.mem (s1.srcBase.toNat + i) = memRead s1.mem (s1.srcBase.toNat + i)) →
    s2.srcBase = s1.dstBase → s2.srcLen = t1.outLen →
    (∀ i, i < t1.outLen.toNat →
      memRead s2.mem (s1.dstBase.toNat + i) = memRead t1.mem (s1.dstBase.toNat + i)) →
    t2.outLen = t3.outLen ∧
      ∀ i, i < t3.outLen.toNat →
        memRead t2.mem (s2.dstBase.toNat + i) = memRead t3.mem (s3.dstBase.toNat + i)

/-- The destination bytes are a function of the source bytes and the operands alone (44_commands.md R167): two
completions of one command that agree on these agree on every destination byte, wherever each writes them. -/
def Obligations.OutputDependsOnSourceAndOperands : Prop :=
  ∀ (s s' t t' : State) (op : JobOp), s.Inv → s'.Inv → s.job = some op → s'.job = some op →
    s.delay = 0 → s'.delay = 0 → s.raced = false → s'.raced = false →
    s'.srcLen = s.srcLen →
    (op ≠ .pack → s'.rowWidth = s.rowWidth ∧ s'.ctrl.rowOrder = s.ctrl.rowOrder) →
    (∀ i, i < s.srcLen.toNat →
      memRead s'.mem (s'.srcBase.toNat + i) = memRead s.mem (s.srcBase.toNat + i)) →
    step s = .next t → step s' = .next t' →
    t'.outLen = t.outLen ∧
      ∀ i, i < t.outLen.toNat →
        memRead t'.mem (s'.dstBase.toNat + i) = memRead t.mem (s.dstBase.toNat + i)

/-- 43_bitplane_pack.md R146: bit 7 of destination byte 0 of a CONVERT is bit 0 of the image's top-left pixel, source
byte (rows - 1) * W when ROW_ORDER = 1 and 0 when ROW_ORDER = 0. -/
def Obligations.FirstBitIsTopLeftPixel : Prop :=
  ∀ s t : State, s.Inv → s.job = some .convert → s.delay = 0 → s.raced = false → 0 < s.srcLen.toNat →
    step s = .next t →
    (memRead t.mem s.dstBase.toNat).getLsbD 7 =
      (memRead s.mem
        (s.srcBase.toNat +
          if s.ctrl.rowOrder then (s.srcLen.toNat / s.rowWidth.toNat - 1) * s.rowWidth.toNat else 0)).getLsbD 0

/-! ### Races and reset -/

/-- 20_memory.md R62: a host write into the source or destination of the running job marks the race, and the mark stays
until the job ends; a job so marked completes as any other (`doneState`: no job, BUSY, DONE, OUT_LEN, nothing else of the
block) but for memory, where every destination byte is a free value and every other byte as before; a host read of the
destination returns a free value. The free values are those of log 5, the mark is the model's field (log 6). -/
def Obligations.BrokenHostDutyLeavesFreeBytes : Prop :=
  (∀ (s : State) (op : JobOp) (a : Nat) (v : Byte), s.job = some op → a < 2 ^ 32 →
      s.sideEffectAt a = false → (s.srcRegion.holds a = true ∨ (dstRegion op s).holds a = true) →
      hostStep (.memWrite a v) s = .next { s with mem := memWrite s.mem a v, raced := true }) ∧
    (∀ s t : State, s.Inv → s.raced = true → step s = .next t →
      t.raced = true ∨ s.delay = 0 ∨ ∃ rest, s.hostOps = .reset :: rest) ∧
    (∀ (s : State) (op : JobOp), s.Inv → s.job = some op → s.delay = 0 → s.raced = true →
      ∃ m, step s = .next { doneState (jobBytes op * jobTiles op s) m s with
          draws := s.draws + jobBytes op * jobTiles op s } ∧
        ∀ a, memRead m a =
          if (dstRegion op s).holds a then Config.freeByte (s.draws + (a - s.dstBase.toNat))
          else memRead s.mem a) ∧
    ∀ (s : State) (op : JobOp) (a : Nat), s.job = some op → a < 2 ^ 32 → s.sideEffectAt a = false →
      (dstRegion op s).holds a = true →
      hostStep (.memRead a) s =
        .next { s with
          hostReads := .mem a (Config.freeByte s.draws) :: s.hostReads
          draws := s.draws + 1 }

/-- A host that keeps its duties (20_memory.md R62) never marks the running job: while each operation it performs is
dutiful, no race is recorded, so completions are those of the rules. The mark is the model's field (log 6). -/
def Obligations.DutifulHostNeverRaces : Prop :=
  ∀ s t : State, s.raced = false → (∀ op rest, s.hostOps = op :: rest → op.dutiful s = true) →
    step s = .next t → t.raced = false

/-- 10_state.md R43: what every register of the window reads after reset; no job, irq = 0. -/
def Obligations.ResetValuesReadBack : Prop :=
  registerFile State.reset =
      [0x42500001, 0, 0, 0, 0, 0, 0, 0x80, 0, 0, 0, 0, 0, 0, 0, 0] ∧
    State.reset.job = none ∧ State.reset.irq = false

/-- 70_reset_and_hazards.md R200 and R201: reset at any step puts every register in its reset state; no byte of memory
changes when no job runs; when one does, every destination byte is a free value (log 5), every other byte, the source's
among them, is as before, and OUT_LEN reads 0. -/
def Obligations.ResetAtAnyStep : Prop :=
  ∀ s : State, s.Inv →
    ∃ t, hostStep .reset s = .next t ∧
      registerFile t = [0x42500001, 0, 0, 0, 0, 0, 0, 0x80, 0, 0, 0, 0, 0, 0, 0, 0] ∧
      t.job = none ∧ t.irq = false ∧
      (s.job = none → t.mem = s.mem) ∧
      ∀ op, s.job = some op →
        (∀ a, memRead t.mem a =
          if (dstRegion op s).holds a then Config.freeByte (s.draws + (a - s.dstBase.toNat))
          else memRead s.mem a) ∧
        ∀ a, s.srcRegion.holds a = true → memRead t.mem a = memRead s.mem a

/-! ### The address map and the packing -/

/-- 41_scanline_normalizer.md R115: the row map is a bijection of the rows, an involution for ROW_ORDER = 1; with the
worked example. -/
def Obligations.RowMapIsInvolution : Prop :=
  (∀ (b : Bool) (rows y : Nat), y < rows →
      srcRow b rows y < rows ∧ srcRow b rows (srcRow b rows y) = y) ∧
    (srcRow true 16 0 = 15 ∧ srcOff true 8 16 0 0 0 = 120 ∧ srcOff true 8 16 0 0 7 = 127) ∧
    (srcRow true 16 15 = 0 ∧ srcOff true 8 16 1 7 0 = 0 ∧ srcOff true 8 16 1 7 7 = 7) ∧
    srcRow true 16 8 = 7 ∧ srcOff true 8 16 1 0 0 = 56 ∧ srcOff true 8 16 1 0 7 = 63

/-- 42_tile_reorder.md R125: the address map is a bijection from tiles, rows and columns onto the source offsets, with
the stated inverse. -/
def Obligations.TileMapIsBijection : Prop :=
  ∀ (b : Bool) (w rows : Nat), 0 < w → w % 8 = 0 → rows % 8 = 0 →
    64 * (rows / 8 * (w / 8)) = rows * w ∧
    (∀ t r c, t < rows / 8 * (w / 8) → r < 8 → c < 8 →
      srcOff b w rows t r c < rows * w ∧ tileOfOff b w rows (srcOff b w rows t r c) = (t, r, c)) ∧
    ∀ o, o < rows * w →
      (tileOfOff b w rows o).1 < rows / 8 * (w / 8) ∧ (tileOfOff b w rows o).2.1 < 8 ∧
        (tileOfOff b w rows o).2.2 < 8 ∧
        srcOff b w rows (tileOfOff b w rows o).1 (tileOfOff b w rows o).2.1 (tileOfOff b w rows o).2.2 = o

/-- Byte `8r + c` of tile `t` is the normalized pixel of band `t / TPR`, tile column `t % TPR`
(42_tile_reorder.md R121, R123, R124; 41_scanline_normalizer.md R112). -/
def Obligations.TileBytesAreNormalizedPixels : Prop :=
  ∀ (s : State) (t r c : Nat), r < 8 → c < 8 →
    (s.tile t)[8 * r + c]? =
      some (s.norm (8 * (t / (s.rowWidth.toNat / 8)) + r) (8 * (t % (s.rowWidth.toNat / 8)) + c))

/-- 43_bitplane_pack.md R141: both forms of the row packing: bit `k` of each plane comes from pixel column `7 - k`. -/
def Obligations.PackRowBits : Prop :=
  ∀ p : List Byte, p.length = 8 →
    (∀ k, k < 8 → (packRow p).1.getLsbD k = (p.getD (7 - k) 0).getLsbD 0) ∧
    (∀ k, k < 8 → (packRow p).2.getLsbD k = (p.getD (7 - k) 0).getLsbD 1) ∧
    (packRow p).1 =
      (List.range 8).foldl (fun acc c => acc ||| ((p.getD c 0 &&& 1) <<< (7 - c))) 0 ∧
    (packRow p).2 =
      (List.range 8).foldl (fun acc c => acc ||| (((p.getD c 0 >>> 1) &&& 1) <<< (7 - c))) 0

/-- 43_bitplane_pack.md R142: bits 7 to 2 of a pixel byte change nothing, and no check looks at pixel bytes. -/
def Obligations.HighPixelBitsIgnored : Prop :=
  (∀ p : List Byte, packRow p = packRow (p.map fun b => b &&& 0x03)) ∧
    ∀ (s : State) (m : Memory) (op : JobOp), check op { s with mem := m } = check op s

/-- 43_bitplane_pack.md R145: decoding a packed tile gives each pixel's low two bits, and packing is a bijection from
tiles with every byte at most 3 onto all 16-byte blocks. -/
def Obligations.PackingDecodes : Prop :=
  (∀ (tile : List Byte) (r c : Nat), tile.length = 64 → r < 8 → c < 8 →
      (tile.getD (8 * r + c) 0 &&& 3).toNat =
        2 * (((packTile tile).getD (8 + r) 0).getLsbD (7 - c)).toNat +
          (((packTile tile).getD r 0).getLsbD (7 - c)).toNat) ∧
    (∀ tile : List Byte, tile.length = 64 → (∀ b ∈ tile, b.toNat ≤ 3) →
      (packTile tile).length = 16 ∧ unpackTile (packTile tile) = tile) ∧
    ∀ block : List Byte, block.length = 16 →
      (unpackTile block).length = 64 ∧ (∀ b ∈ unpackTile block, b.toNat ≤ 3) ∧
        packTile (unpackTile block) = block

/-! ### Registers, interrupt, hazards -/

/-- What the sixteen words of the window read (10_state.md R22 to R32). -/
def Obligations.RegisterMapReads : Prop :=
  ∀ s : State,
    registerFile s =
      [0x42500001, s.ctrl.word, 0, s.status.word, s.srcBase, s.srcLen, s.dstBase, s.rowWidth,
        s.tileCount, s.outLen, 0, 0, 0, 0, 0, 0] ∧
      s.ctrl.word.toNat = s.ctrl.rowOrder.toNat + 2 * s.ctrl.ie.toNat

/-- A register read of the host, at any offset and width, changes nothing but what the host has read (10_state.md R22).
A running job is one host step nearer its completion, which is the model's countdown (log 4). -/
def Obligations.RegisterReadHasNoSideEffect : Prop :=
  ∀ (s : State) (off : BitVec 6) (size : Nat) (rest : List HostOp), s.completesNow = false →
    s.hostOps = .regRead off size :: rest →
    step s = .next { s with
      hostOps := rest
      hostReads := .reg off (readWindow off size s) :: s.hostReads
      delay := if s.job.isSome then s.delay - 1 else s.delay }

/-- 10_state.md R27: STATUS as a word, and the only words a program sees. -/
def Obligations.StatusWordLayout : Prop :=
  (∀ st : Status,
      st.word.toNat =
        st.busy.toNat + 2 * st.done.toNat + 4 * st.err.toNat + 8 * st.drop.toNat +
          2 ^ 8 * st.errCode.toNat + 2 ^ 12 * st.errDetail.toNat) ∧
    ∀ s : State, s.Inv →
      s.status.word ∈ ([0x00000000, 0x00000001, 0x00000002, 0x00000009, 0x0000000A] : List Word) ∨
        ∃ e ∈ allErrors, s.status.word.toNat = 4 + 2 ^ 8 * e.code.toNat + 2 ^ 12 * e.detail.toNat

/-- Writes of the read-write registers with BUSY = 0: each takes the value written, CTRL its two low bits, and nothing
else changes (10_state.md R24, R28, R29). -/
def Obligations.OperandWritesTakeEffect : Prop :=
  ∀ (s : State) (v : Word), s.status.busy = false →
    hostStep (.regWrite 0x04 4 v) s =
      .next { s with ctrl := { rowOrder := v.getLsbD 0, ie := v.getLsbD 1 } } ∧
    hostStep (.regWrite 0x10 4 v) s = .next { s with srcBase := v } ∧
    hostStep (.regWrite 0x14 4 v) s = .next { s with srcLen := v } ∧
    hostStep (.regWrite 0x18 4 v) s = .next { s with dstBase := v } ∧
    hostStep (.regWrite 0x1C 4 v) s = .next { s with rowWidth := v }

/-- 70_reset_and_hazards.md R211: with BUSY = 1 every register write but CMD's is ignored entirely: no register, flag or
job changes; and a read of an operand register returns the value it keeps, the field that the job's completion reads. -/
def Obligations.OperandWritesIgnoredWhileBusy : Prop :=
  ∀ (s : State) (off : BitVec 6) (size : Nat) (v : Word), s.status.busy = true → off ≠ 0x08 →
    hostStep (.regWrite off size v) s = .next s ∧
      readWindow 0x04 4 s = s.ctrl.word ∧ readWindow 0x10 4 s = s.srcBase ∧ readWindow 0x14 4 s = s.srcLen ∧
      readWindow 0x18 4 s = s.dstBase ∧ readWindow 0x1C 4 s = s.rowWidth

/-- 10_state.md R32: the reserved offsets read 0 and ignore writes; and, of R33, writes to ID, STATUS, TILE_COUNT and
OUT_LEN are ignored, busy or not. -/
def Obligations.ReadOnlyWritesIgnored : Prop :=
  ∀ (s : State) (v : Word) (off : BitVec 6),
    off ∈ ([0x00, 0x0C, 0x20, 0x24, 0x28, 0x2C, 0x30, 0x34, 0x38, 0x3C] : List (BitVec 6)) →
    hostStep (.regWrite off 4 v) s = .next s ∧ (0x28 ≤ off.toNat → readWindow off 4 s = 0)

/-- 20_memory.md R55: an access that is not 32 bits wide at a 4-byte-aligned offset writes nothing and reads 0, a write
to CMD's own bytes among them; by platform address, the four bytes of a word are its little-endian lanes. -/
def Obligations.UnsupportedAccessesAndLanes : Prop :=
  (∀ (s : State) (off : BitVec 6) (size : Nat) (v : Word), (size ≠ 4 ∨ off.toNat % 4 ≠ 0) →
      hostStep (.regWrite off size v) s = .next s ∧ readWindow off size s = 0) ∧
    (∀ (off : BitVec 6) (w : Word),
      busWrite (Config.regBase + off.toNat) [w.extractLsb' 0 8, w.extractLsb' 8 8, w.extractLsb' 16 8, w.extractLsb' 24 8] =
        some (.regWrite off 4 w)) ∧
    (∀ (off : BitVec 6) (size : Nat),
      busRead (Config.regBase + off.toNat) size = some (.regRead off size)) ∧
    ∀ (s : State) (off : BitVec 6),
      ∃ bytes, busReadBytes (Config.regBase + off.toNat) 4 s = some bytes ∧ bytes.length = 4 ∧
        ∀ k, k < 4 → bytes[k]? = some ((readWindow off 4 s).extractLsb' (8 * k) 8)

/-- 60_exceptions.md R190: the level of irq, and when it rises and falls. -/
def Obligations.InterruptLevel : Prop :=
  (∀ s : State, s.irq = (s.ctrl.ie && (s.status.done || s.status.err))) ∧
    (∀ (s t : State) (op : JobOp), s.ctrl.ie = true → s.job = some op → s.delay = 0 → step s = .next t →
      t.irq = true) ∧
    (∀ (s t : State) (i : Instr), s.ctrl.ie = true → s.status.busy = false → exec i s = .next t →
      t.status.err = true → t.irq = true) ∧
    (∀ (s t : State) (v : Word), s.status.busy = false → hostStep (.regWrite 0x04 4 v) s = .next t →
      t.irq = (v.getLsbD 1 && (s.status.done || s.status.err))) ∧
    (∀ s t : State, s.status.busy = false → exec .clear s = .next t → t.irq = false) ∧
    (∀ (s t : State) (op : JobOp), s.status.busy = false → exec (commandOf op) s = .next t →
      t.status.err = false → t.irq = false) ∧
    ∀ s t : State, hostStep .reset s = .next t → t.irq = false

/-- 70_reset_and_hazards.md R213: while busy STATUS reads 1 or 9, TILE_COUNT the job's N, OUT_LEN 0, and the operand
registers what they hold. -/
def Obligations.ReadsWhileBusy : Prop :=
  ∀ (s : State) (op : JobOp), s.Inv → s.job = some op →
    (readWindow 0x0C 4 s = 0x00000001 ∨ readWindow 0x0C 4 s = 0x00000009) ∧
      (readWindow 0x20 4 s).toNat = jobTiles op s ∧ readWindow 0x24 4 s = 0 ∧
      readWindow 0x10 4 s = s.srcBase ∧ readWindow 0x14 4 s = s.srcLen ∧ readWindow 0x18 4 s = s.dstBase ∧
      readWindow 0x1C 4 s = s.rowWidth

/-- One turn of each host operation that waits. `poll` (30_encoding.md R76) reads once, and stays until the masked value is
the one waited for; `waitIrq` (70_reset_and_hazards.md R203, step 6) looks at the level of irq (60_exceptions.md R190),
takes the interrupt when it is 1 and stays while it is 0. Neither changes anything of the block. That a turn is one step,
and that waitIrq is an operation, is the model's choice (log 14). -/
def Obligations.PollRepeatsUntilValue : Prop :=
  (∀ (s : State) (off : BitVec 6) (mask v : Word),
      hostStep (.poll off mask v) s =
        .next { s with
          hostReads := .reg off (readWindow off 4 s) :: s.hostReads
          hostOps := if readWindow off 4 s &&& mask = v then s.hostOps else .poll off mask v :: s.hostOps }) ∧
    ∀ s : State,
      ((s.ctrl.ie && (s.status.done || s.status.err)) = true →
        hostStep .waitIrq s = .next { s with hostReads := .irq :: s.hostReads }) ∧
      ((s.ctrl.ie && (s.status.done || s.status.err)) = false →
        hostStep .waitIrq s = .next { s with hostOps := .waitIrq :: s.hostOps })

/-! ### The machine as a whole -/

/-- The invariant holds after reset. -/
def Obligations.ResetMeetsInvariant : Prop := State.reset.Inv

/-- Every step keeps the invariant: canonical memory inside data memory; BUSY exactly while a job runs; at most one of
BUSY, DONE, ERR; legal error records; a running job that passed its checks, with its N in TILE_COUNT and OUT_LEN 0
(10_state.md R26, R40; 44_commands.md R162). -/
def Obligations.StepKeepsInvariant : Prop := ∀ s t : State, s.Inv → step s = .next t → t.Inv

/-- A byte of memory changes only in the destination of the running job, at its completion or at a reset, and then not
in the source; or by the host's own write of that byte (20_memory.md R51, R65; 70_reset_and_hazards.md R201). -/
def Obligations.OnlyDestinationAndHostWritesChangeMemory : Prop :=
  ∀ (s t : State) (a : Nat), s.Inv → step s = .next t → memRead t.mem a ≠ memRead s.mem a →
    (∃ op, s.job = some op ∧ (s.delay = 0 ∨ ∃ rest, s.hostOps = .reset :: rest) ∧
      (dstRegion op s).holds a = true ∧ s.srcRegion.holds a = false) ∨
    ∃ v rest, s.hostOps = .memWrite a v :: rest ∧ memRead t.mem a = v

/-- DONE rises only at the completion of a job, and BUSY only at the acceptance of CONVERT, REORDER or PACK
(10_state.md R26). -/
def Obligations.OnlyCompletionRaisesDone : Prop :=
  ∀ s t : State, s.Inv → step s = .next t →
    (s.status.done = false → t.status.done = true → s.job.isSome = true ∧ s.delay = 0) ∧
      (s.status.busy = false → t.status.busy = true →
        ∃ op rest, s.hostOps = .regWrite 0x08 4 (encode (commandOf op)) :: rest ∧ t.job = some op)

/-- While a job runs its operands cannot change, except by reset (10_state.md R28, 30_encoding.md R72). -/
def Obligations.RunningJobKeepsOperands : Prop :=
  ∀ s t : State, s.Inv → s.status.busy = true → step s = .next t →
    (s.delay ≠ 0 → ∀ rest, s.hostOps ≠ .reset :: rest) →
    t.srcBase = s.srcBase ∧ t.srcLen = s.srcLen ∧ t.dstBase = s.dstBase ∧ t.rowWidth = s.rowWidth ∧
      t.ctrl = s.ctrl ∧ t.tileCount = s.tileCount

/-- Memory with side effects is refused, and a command is refused for nothing else: a job command exactly when its checks
pass and its regions touch such memory (20_memory.md R58), so one that ends in an error is not; no command faults. That
the platform's map is a field, and that a host access to such memory is refused too, are the model's choices (log 7). -/
def Obligations.SideEffectMemoryIsRefused : Prop :=
  (∀ (s : State) (op : JobOp) (n : Nat), s.status.busy = false → check op s = .ok n →
      ¬OrdinaryMemory s (jobBytes op * jobTiles op s) →
      exec (commandOf op) s = .refused .sideEffectRegion) ∧
    (∀ (s : State) (i : Instr) (r : Refusal), exec i s = .refused r →
      r = .sideEffectRegion ∧ s.status.busy = false ∧
        ∃ op n, i = commandOf op ∧ check op s = .ok n ∧ ¬OrdinaryMemory s (jobBytes op * jobTiles op s)) ∧
    (∀ (s : State) (i : Instr) (f : Fault), exec i s ≠ .fault f) ∧
    (∀ (s : State) (a : Nat) (v : Byte) (d : Region), a < 2 ^ 32 → d ∈ s.devices → d.holds a = true →
      hostStep (.memWrite a v) s = .refused (.sideEffectAccess a) ∧
        hostStep (.memRead a) s = .refused (.sideEffectAccess a)) ∧
    ∀ (s : State) (i : Instr), s.devices = [] → ∃ t, exec i s = .next t

/-- Host accesses to data memory that break no duty, with a job running or not: a write outside both regions of the running
job changes that byte alone and marks no race, a read outside its destination (of its source, too) returns what memory
holds (20_memory.md R62); an address of 2^32 or more does not exist (10_state.md R36; the fault is the model's, log 10). -/
def Obligations.HostMemoryAccesses : Prop :=
  (∀ (s : State) (a : Nat) (v : Byte), s.Inv → s.jobReads a = false → s.jobWrites a = false → a < 2 ^ 32 →
      s.sideEffectAt a = false →
      ∃ m, hostStep (.memWrite a v) s = .next { s with mem := m } ∧
        ∀ b, memRead m b = if b = a then v else memRead s.mem b) ∧
    (∀ (s : State) (a : Nat), s.jobWrites a = false → a < 2 ^ 32 → s.sideEffectAt a = false →
      hostStep (.memRead a) s = .next { s with hostReads := .mem a (memRead s.mem a) :: s.hostReads }) ∧
    ∀ (s : State) (a : Nat) (v : Byte), 2 ^ 32 ≤ a →
      hostStep (.memWrite a v) s = .fault (.noSuchAddress a) ∧
        hostStep (.memRead a) s = .fault (.noSuchAddress a)

/-- A run that has ended stays as it is (70_reset_and_hazards.md R216). That the model goes on stepping there is its own
choice (log 12). -/
def Obligations.EndedRunStays : Prop := ∀ s : State, s.ended = true → step s = .next s

/-! ### The host's bitmap software -/

/-- 40_host_header.md R94: the parser's checks in their order, each terminal, and the fields it answers. -/
def Obligations.HeaderParserChecksInOrder : Prop :=
  ∀ b : List Byte,
    (b.length < 2 → parseHeader b = .error .truncatedHeader) ∧
    (2 ≤ b.length → (b.getD 0 0 ≠ 0x42 ∨ b.getD 1 0 ≠ 0x4D) → parseHeader b = .error .invalidFormat) ∧
    (2 ≤ b.length → b.getD 0 0 = 0x42 → b.getD 1 0 = 0x4D → b.length < 34 →
      parseHeader b = .error .truncatedHeader) ∧
    (34 ≤ b.length → b.getD 0 0 = 0x42 → b.getD 1 0 = 0x4D →
      ∃ m, parseHeader b = .ok m ∧
        m.offset = (b.getD 10 0).toNat + 2 ^ 8 * (b.getD 11 0).toNat + 2 ^ 16 * (b.getD 12 0).toNat +
          2 ^ 24 * (b.getD 13 0).toNat ∧
        m.width = ((b.getD 18 0).toNat + 2 ^ 8 * (b.getD 19 0).toNat + 2 ^ 16 * (b.getD 20 0).toNat +
          2 ^ 24 * (b.getD 21 0).toNat : Int) - (if (b.getD 21 0).msb then 2 ^ 32 else 0) ∧
        m.height = ((b.getD 22 0).toNat + 2 ^ 8 * (b.getD 23 0).toNat + 2 ^ 16 * (b.getD 24 0).toNat +
          2 ^ 24 * (b.getD 25 0).toNat : Int) - (if (b.getD 25 0).msb then 2 ^ 32 else 0) ∧
        m.bpp = (b.getD 28 0).toNat + 2 ^ 8 * (b.getD 29 0).toNat ∧
        m.compression = (b.getD 30 0).toNat + 2 ^ 8 * (b.getD 31 0).toNat + 2 ^ 16 * (b.getD 32 0).toNat +
          2 ^ 24 * (b.getD 33 0).toNat)

/-- 40_host_header.md R95: the caller's checks in their order, the first violated rule reported. -/
def Obligations.HeaderValidationInOrder : Prop :=
  ∀ m : ImageMetadata,
    (m.width ≠ 128 → validateHeader m = .error .unsupportedWidth) ∧
    (m.width = 128 → m.height % 8 ≠ 0 → validateHeader m = .error .unsupportedHeight) ∧
    (m.width = 128 → m.height % 8 = 0 → 8 < m.bpp → validateHeader m = .error .unsupportedColorDepth) ∧
    (m.width = 128 → m.height % 8 = 0 → m.bpp ≤ 8 → m.compression ≠ 0 →
      validateHeader m = .error .unsupportedCompression) ∧
    (m.width = 128 → m.height % 8 = 0 → m.bpp ≤ 8 → m.compression = 0 → validateHeader m = .ok ())

/-- What the host of a launched bitmap hands on, at every point of the run (40_host_header.md R101, R102): nothing, whatever
STATUS, OUT_LEN, DST_BASE and its own earlier reads still hold of earlier jobs, until it has read STATUS, since the launch,
with BUSY = 0 of its own job; then, with DONE = 1 read, once, the OUT_LEN bytes at its D, OUT_LEN being its own job's; with ERR = 1 read, once, the failure and no
bytes. The host software as operations of the host's list is the model's choice (log 17). -/
def Obligations.OutputDeliveredOnlyWhenDone : Prop :=
  ∀ (b : List Byte) (a d k : Nat) (ie : Bool) (m : ImageMetadata) (s s0 t : State),
    s.Inv → s.job = none → s.hostOps = [] → parseHeader b = .ok m → launchBitmap b a d ie s = .ok s0 →
    Host.Core.run Sys2Proof.core k s0 = .next t →
    t.handedOn = s.handedOn ∨
      (t.ended = true ∧ t.srcBase = BitVec.ofNat 32 (a + m.offset) ∧
        t.srcLen = BitVec.ofNat 32 (b.length - m.offset) ∧ t.dstBase = BitVec.ofNat 32 d ∧
        (∃ rs, t.hostReads = rs ++ s.hostReads ∧ .reg 0x0C t.status.word ∈ rs) ∧ t.status.busy = false ∧
        ((t.status.done = true ∧ t.outLen.toNat = 16 * rowTiles t ∧
            t.handedOn = .output (memBytes t.mem d t.outLen.toNat) :: s.handedOn) ∨
          (t.status.err = true ∧
            ∃ e, t.handedOn = .failure e :: s.handedOn ∧
              (t.status.errCode = 2 → e = .invalidDimensions) ∧
              (t.status.errCode = 3 → e = .malformedPixelData) ∧
              (t.status.errCode ≠ 2 → t.status.errCode ≠ 3 →
                e = .ownProgramming t.status.errCode t.status.errDetail))))

/-- A bitmap that fails any of the host's checks, the parser's first (40_host_header.md R94), then the caller's (R95), then
the pixel offset's (R97), leaves the block unprogrammed (R96); any other is launched: its bytes, the register program of
R98 and the host's look at the result are appended to the host's list. That a launch is an append to the list is the
model's choice (log 17), and so is that the pixel offset is checked after the caller's rules (log 19). -/
def Obligations.FailedBitmapProgramsNothing : Prop :=
  ∀ (b : List Byte) (a d : Nat) (ie : Bool) (s : State),
    (∀ e, parseHeader b = .error e → launchBitmap b a d ie s = .error e) ∧
    (∀ m e, parseHeader b = .ok m → validateHeader m = .error e → launchBitmap b a d ie s = .error e) ∧
    (∀ m, parseHeader b = .ok m → validateHeader m = .ok () → b.length < m.offset →
      launchBitmap b a d ie s = .error .malformedPixelData) ∧
    (∀ m, parseHeader b = .ok m → validateHeader m = .ok () → m.offset ≤ b.length →
      launchBitmap b a d ie s =
        .ok { s with
          hostOps := s.hostOps ++ hostMem a b ++ bitmapProgram a d b.length ie m ++ [.handOn d] })

/-- The whole conversion of a bitmap (40_host_header.md R98, R99, R103): launched on an idle block, a bitmap that passes
the host's examination and whose pixel data is a whole number of 8-row bands ends with STATUS = 2, and the host hands on
the packed tiles of the bottom-up image, 16 bytes a tile, one tile for each 8 by 8 pixels. -/
def Obligations.BitmapConversionDelivers : Prop :=
  ∀ (b : List Byte) (a d rows : Nat) (ie : Bool) (m : ImageMetadata) (s s0 : State),
    s.Inv → s.job = none → s.devices = [] → s.hostOps = [] → examine b = .ok m →
    launchBitmap b a d ie s = .ok s0 →
    b.length - m.offset = rows * 128 → rows % 8 = 0 →
    a + b.length ≤ 2 ^ 32 → d + 16 * (rows / 8 * 16) ≤ 2 ^ 32 → d < 2 ^ 32 → a + m.offset < 2 ^ 32 →
    (d + 16 * (rows / 8 * 16) ≤ a + m.offset ∨ a + b.length ≤ d) →
    ∃ k t, Host.Core.run Sys2Proof.core k s0 = .next t ∧ t.ended = true ∧ t.status.word = 2 ∧
      t.outLen.toNat = 16 * (rows / 8 * 16) ∧
      (rows = m.height.natAbs → t.outLen.toNat = m.width.natAbs / 8 * (m.height.natAbs / 8) * 16) ∧
      t.handedOn = .output ((List.range (rows / 8 * 16)).flatMap fun i =>
        packTile ((List.range 64).map fun j =>
          b.getD (m.offset + (rows - 1 - (8 * (i / 16) + j / 8)) * 128 + 8 * (i % 16) + j % 8) 0)) :: s.handedOn
end

