-- ==== Sys2Proof/Laws/State.lean ====
section
/-! SUPPORT. One lemma per field per update: what each shared operation leaves in each field of State. -/

namespace Sys2Proof.Machine

@[simp] theorem clearStatus_ctrl (s : State) : (clearStatus s).ctrl = s.ctrl := rfl
@[simp] theorem clearStatus_status (s : State) : (clearStatus s).status = { busy := s.status.busy, done := false, err := false, drop := false, errCode := 0, errDetail := 0 } := rfl
@[simp] theorem clearStatus_srcBase (s : State) : (clearStatus s).srcBase = s.srcBase := rfl
@[simp] theorem clearStatus_srcLen (s : State) : (clearStatus s).srcLen = s.srcLen := rfl
@[simp] theorem clearStatus_dstBase (s : State) : (clearStatus s).dstBase = s.dstBase := rfl
@[simp] theorem clearStatus_rowWidth (s : State) : (clearStatus s).rowWidth = s.rowWidth := rfl
@[simp] theorem clearStatus_tileCount (s : State) : (clearStatus s).tileCount = s.tileCount := rfl
@[simp] theorem clearStatus_outLen (s : State) : (clearStatus s).outLen = s.outLen := rfl
@[simp] theorem clearStatus_job (s : State) : (clearStatus s).job = s.job := rfl
@[simp] theorem clearStatus_mem (s : State) : (clearStatus s).mem = s.mem := rfl
@[simp] theorem clearStatus_hostOps (s : State) : (clearStatus s).hostOps = s.hostOps := rfl
@[simp] theorem clearStatus_hostReads (s : State) : (clearStatus s).hostReads = s.hostReads := rfl
@[simp] theorem clearStatus_handedOn (s : State) : (clearStatus s).handedOn = s.handedOn := rfl
@[simp] theorem clearStatus_devices (s : State) : (clearStatus s).devices = s.devices := rfl
@[simp] theorem clearStatus_delay (s : State) : (clearStatus s).delay = s.delay := rfl
@[simp] theorem clearStatus_raced (s : State) : (clearStatus s).raced = s.raced := rfl
@[simp] theorem clearStatus_draws (s : State) : (clearStatus s).draws = s.draws := rfl

@[simp] theorem zeroCounts_ctrl (s : State) : (zeroCounts s).ctrl = s.ctrl := rfl
@[simp] theorem zeroCounts_status (s : State) : (zeroCounts s).status = s.status := rfl
@[simp] theorem zeroCounts_srcBase (s : State) : (zeroCounts s).srcBase = s.srcBase := rfl
@[simp] theorem zeroCounts_srcLen (s : State) : (zeroCounts s).srcLen = s.srcLen := rfl
@[simp] theorem zeroCounts_dstBase (s : State) : (zeroCounts s).dstBase = s.dstBase := rfl
@[simp] theorem zeroCounts_rowWidth (s : State) : (zeroCounts s).rowWidth = s.rowWidth := rfl
@[simp] theorem zeroCounts_tileCount (s : State) : (zeroCounts s).tileCount = 0 := rfl
@[simp] theorem zeroCounts_outLen (s : State) : (zeroCounts s).outLen = 0 := rfl
@[simp] theorem zeroCounts_job (s : State) : (zeroCounts s).job = s.job := rfl
@[simp] theorem zeroCounts_mem (s : State) : (zeroCounts s).mem = s.mem := rfl
@[simp] theorem zeroCounts_hostOps (s : State) : (zeroCounts s).hostOps = s.hostOps := rfl
@[simp] theorem zeroCounts_hostReads (s : State) : (zeroCounts s).hostReads = s.hostReads := rfl
@[simp] theorem zeroCounts_handedOn (s : State) : (zeroCounts s).handedOn = s.handedOn := rfl
@[simp] theorem zeroCounts_devices (s : State) : (zeroCounts s).devices = s.devices := rfl
@[simp] theorem zeroCounts_delay (s : State) : (zeroCounts s).delay = s.delay := rfl
@[simp] theorem zeroCounts_raced (s : State) : (zeroCounts s).raced = s.raced := rfl
@[simp] theorem zeroCounts_draws (s : State) : (zeroCounts s).draws = s.draws := rfl

@[simp] theorem raiseError_ctrl (c d : BitVec 4) (s : State) : (raiseError c d s).ctrl = s.ctrl := rfl
@[simp] theorem raiseError_status (c d : BitVec 4) (s : State) : (raiseError c d s).status = { s.status with err := true, errCode := c, errDetail := d } := rfl
@[simp] theorem raiseError_srcBase (c d : BitVec 4) (s : State) : (raiseError c d s).srcBase = s.srcBase := rfl
@[simp] theorem raiseError_srcLen (c d : BitVec 4) (s : State) : (raiseError c d s).srcLen = s.srcLen := rfl
@[simp] theorem raiseError_dstBase (c d : BitVec 4) (s : State) : (raiseError c d s).dstBase = s.dstBase := rfl
@[simp] theorem raiseError_rowWidth (c d : BitVec 4) (s : State) : (raiseError c d s).rowWidth = s.rowWidth := rfl
@[simp] theorem raiseError_tileCount (c d : BitVec 4) (s : State) : (raiseError c d s).tileCount = s.tileCount := rfl
@[simp] theorem raiseError_outLen (c d : BitVec 4) (s : State) : (raiseError c d s).outLen = s.outLen := rfl
@[simp] theorem raiseError_job (c d : BitVec 4) (s : State) : (raiseError c d s).job = s.job := rfl
@[simp] theorem raiseError_mem (c d : BitVec 4) (s : State) : (raiseError c d s).mem = s.mem := rfl
@[simp] theorem raiseError_hostOps (c d : BitVec 4) (s : State) : (raiseError c d s).hostOps = s.hostOps := rfl
@[simp] theorem raiseError_hostReads (c d : BitVec 4) (s : State) : (raiseError c d s).hostReads = s.hostReads := rfl
@[simp] theorem raiseError_handedOn (c d : BitVec 4) (s : State) : (raiseError c d s).handedOn = s.handedOn := rfl
@[simp] theorem raiseError_devices (c d : BitVec 4) (s : State) : (raiseError c d s).devices = s.devices := rfl
@[simp] theorem raiseError_delay (c d : BitVec 4) (s : State) : (raiseError c d s).delay = s.delay := rfl
@[simp] theorem raiseError_raced (c d : BitVec 4) (s : State) : (raiseError c d s).raced = s.raced := rfl
@[simp] theorem raiseError_draws (c d : BitVec 4) (s : State) : (raiseError c d s).draws = s.draws := rfl

@[simp] theorem failCommand_ctrl (c d : BitVec 4) (s : State) : (failCommand c d s).ctrl = s.ctrl := rfl
@[simp] theorem failCommand_status (c d : BitVec 4) (s : State) : (failCommand c d s).status = { s.status with err := true, errCode := c, errDetail := d } := rfl
@[simp] theorem failCommand_srcBase (c d : BitVec 4) (s : State) : (failCommand c d s).srcBase = s.srcBase := rfl
@[simp] theorem failCommand_srcLen (c d : BitVec 4) (s : State) : (failCommand c d s).srcLen = s.srcLen := rfl
@[simp] theorem failCommand_dstBase (c d : BitVec 4) (s : State) : (failCommand c d s).dstBase = s.dstBase := rfl
@[simp] theorem failCommand_rowWidth (c d : BitVec 4) (s : State) : (failCommand c d s).rowWidth = s.rowWidth := rfl
@[simp] theorem failCommand_tileCount (c d : BitVec 4) (s : State) : (failCommand c d s).tileCount = 0 := rfl
@[simp] theorem failCommand_outLen (c d : BitVec 4) (s : State) : (failCommand c d s).outLen = 0 := rfl
@[simp] theorem failCommand_job (c d : BitVec 4) (s : State) : (failCommand c d s).job = s.job := rfl
@[simp] theorem failCommand_mem (c d : BitVec 4) (s : State) : (failCommand c d s).mem = s.mem := rfl
@[simp] theorem failCommand_hostOps (c d : BitVec 4) (s : State) : (failCommand c d s).hostOps = s.hostOps := rfl
@[simp] theorem failCommand_hostReads (c d : BitVec 4) (s : State) : (failCommand c d s).hostReads = s.hostReads := rfl
@[simp] theorem failCommand_handedOn (c d : BitVec 4) (s : State) : (failCommand c d s).handedOn = s.handedOn := rfl
@[simp] theorem failCommand_devices (c d : BitVec 4) (s : State) : (failCommand c d s).devices = s.devices := rfl
@[simp] theorem failCommand_delay (c d : BitVec 4) (s : State) : (failCommand c d s).delay = s.delay := rfl
@[simp] theorem failCommand_raced (c d : BitVec 4) (s : State) : (failCommand c d s).raced = s.raced := rfl
@[simp] theorem failCommand_draws (c d : BitVec 4) (s : State) : (failCommand c d s).draws = s.draws := rfl

@[simp] theorem dropWord_ctrl (s : State) : (dropWord s).ctrl = s.ctrl := rfl
@[simp] theorem dropWord_status (s : State) : (dropWord s).status = { s.status with drop := true } := rfl
@[simp] theorem dropWord_srcBase (s : State) : (dropWord s).srcBase = s.srcBase := rfl
@[simp] theorem dropWord_srcLen (s : State) : (dropWord s).srcLen = s.srcLen := rfl
@[simp] theorem dropWord_dstBase (s : State) : (dropWord s).dstBase = s.dstBase := rfl
@[simp] theorem dropWord_rowWidth (s : State) : (dropWord s).rowWidth = s.rowWidth := rfl
@[simp] theorem dropWord_tileCount (s : State) : (dropWord s).tileCount = s.tileCount := rfl
@[simp] theorem dropWord_outLen (s : State) : (dropWord s).outLen = s.outLen := rfl
@[simp] theorem dropWord_job (s : State) : (dropWord s).job = s.job := rfl
@[simp] theorem dropWord_mem (s : State) : (dropWord s).mem = s.mem := rfl
@[simp] theorem dropWord_hostOps (s : State) : (dropWord s).hostOps = s.hostOps := rfl
@[simp] theorem dropWord_hostReads (s : State) : (dropWord s).hostReads = s.hostReads := rfl
@[simp] theorem dropWord_handedOn (s : State) : (dropWord s).handedOn = s.handedOn := rfl
@[simp] theorem dropWord_devices (s : State) : (dropWord s).devices = s.devices := rfl
@[simp] theorem dropWord_delay (s : State) : (dropWord s).delay = s.delay := rfl
@[simp] theorem dropWord_raced (s : State) : (dropWord s).raced = s.raced := rfl
@[simp] theorem dropWord_draws (s : State) : (dropWord s).draws = s.draws := rfl

@[simp] theorem drawLatency_ctrl (s : State) : (drawLatency s).ctrl = s.ctrl := rfl
@[simp] theorem drawLatency_status (s : State) : (drawLatency s).status = s.status := rfl
@[simp] theorem drawLatency_srcBase (s : State) : (drawLatency s).srcBase = s.srcBase := rfl
@[simp] theorem drawLatency_srcLen (s : State) : (drawLatency s).srcLen = s.srcLen := rfl
@[simp] theorem drawLatency_dstBase (s : State) : (drawLatency s).dstBase = s.dstBase := rfl
@[simp] theorem drawLatency_rowWidth (s : State) : (drawLatency s).rowWidth = s.rowWidth := rfl
@[simp] theorem drawLatency_tileCount (s : State) : (drawLatency s).tileCount = s.tileCount := rfl
@[simp] theorem drawLatency_outLen (s : State) : (drawLatency s).outLen = s.outLen := rfl
@[simp] theorem drawLatency_job (s : State) : (drawLatency s).job = s.job := rfl
@[simp] theorem drawLatency_mem (s : State) : (drawLatency s).mem = s.mem := rfl
@[simp] theorem drawLatency_hostOps (s : State) : (drawLatency s).hostOps = s.hostOps := rfl
@[simp] theorem drawLatency_hostReads (s : State) : (drawLatency s).hostReads = s.hostReads := rfl
@[simp] theorem drawLatency_handedOn (s : State) : (drawLatency s).handedOn = s.handedOn := rfl
@[simp] theorem drawLatency_devices (s : State) : (drawLatency s).devices = s.devices := rfl
@[simp] theorem drawLatency_delay (s : State) : (drawLatency s).delay = Config.latency s.draws := rfl
@[simp] theorem drawLatency_raced (s : State) : (drawLatency s).raced = s.raced := rfl
@[simp] theorem drawLatency_draws (s : State) : (drawLatency s).draws = s.draws + 1 := rfl

@[simp] theorem startJob_ctrl (op : JobOp) (n : Nat) (s : State) : (startJob op n s).ctrl = s.ctrl := rfl
@[simp] theorem startJob_status (op : JobOp) (n : Nat) (s : State) : (startJob op n s).status = { s.status with busy := true } := rfl
@[simp] theorem startJob_srcBase (op : JobOp) (n : Nat) (s : State) : (startJob op n s).srcBase = s.srcBase := rfl
@[simp] theorem startJob_srcLen (op : JobOp) (n : Nat) (s : State) : (startJob op n s).srcLen = s.srcLen := rfl
@[simp] theorem startJob_dstBase (op : JobOp) (n : Nat) (s : State) : (startJob op n s).dstBase = s.dstBase := rfl
@[simp] theorem startJob_rowWidth (op : JobOp) (n : Nat) (s : State) : (startJob op n s).rowWidth = s.rowWidth := rfl
@[simp] theorem startJob_tileCount (op : JobOp) (n : Nat) (s : State) : (startJob op n s).tileCount = BitVec.ofNat 32 n := rfl
@[simp] theorem startJob_outLen (op : JobOp) (n : Nat) (s : State) : (startJob op n s).outLen = 0 := rfl
@[simp] theorem startJob_job (op : JobOp) (n : Nat) (s : State) : (startJob op n s).job = some op := rfl
@[simp] theorem startJob_mem (op : JobOp) (n : Nat) (s : State) : (startJob op n s).mem = s.mem := rfl
@[simp] theorem startJob_hostOps (op : JobOp) (n : Nat) (s : State) : (startJob op n s).hostOps = s.hostOps := rfl
@[simp] theorem startJob_hostReads (op : JobOp) (n : Nat) (s : State) : (startJob op n s).hostReads = s.hostReads := rfl
@[simp] theorem startJob_handedOn (op : JobOp) (n : Nat) (s : State) : (startJob op n s).handedOn = s.handedOn := rfl
@[simp] theorem startJob_devices (op : JobOp) (n : Nat) (s : State) : (startJob op n s).devices = s.devices := rfl
@[simp] theorem startJob_delay (op : JobOp) (n : Nat) (s : State) : (startJob op n s).delay = Config.latency s.draws := rfl
@[simp] theorem startJob_raced (op : JobOp) (n : Nat) (s : State) : (startJob op n s).raced = false := rfl
@[simp] theorem startJob_draws (op : JobOp) (n : Nat) (s : State) : (startJob op n s).draws = s.draws + 1 := rfl

@[simp] theorem finishJob_ctrl (n : Nat) (s : State) : (finishJob n s).ctrl = s.ctrl := rfl
@[simp] theorem finishJob_status (n : Nat) (s : State) : (finishJob n s).status = { s.status with busy := false, done := true } := rfl
@[simp] theorem finishJob_srcBase (n : Nat) (s : State) : (finishJob n s).srcBase = s.srcBase := rfl
@[simp] theorem finishJob_srcLen (n : Nat) (s : State) : (finishJob n s).srcLen = s.srcLen := rfl
@[simp] theorem finishJob_dstBase (n : Nat) (s : State) : (finishJob n s).dstBase = s.dstBase := rfl
@[simp] theorem finishJob_rowWidth (n : Nat) (s : State) : (finishJob n s).rowWidth = s.rowWidth := rfl
@[simp] theorem finishJob_tileCount (n : Nat) (s : State) : (finishJob n s).tileCount = s.tileCount := rfl
@[simp] theorem finishJob_outLen (n : Nat) (s : State) : (finishJob n s).outLen = BitVec.ofNat 32 n := rfl
@[simp] theorem finishJob_job (n : Nat) (s : State) : (finishJob n s).job = none := rfl
@[simp] theorem finishJob_mem (n : Nat) (s : State) : (finishJob n s).mem = s.mem := rfl
@[simp] theorem finishJob_hostOps (n : Nat) (s : State) : (finishJob n s).hostOps = s.hostOps := rfl
@[simp] theorem finishJob_hostReads (n : Nat) (s : State) : (finishJob n s).hostReads = s.hostReads := rfl
@[simp] theorem finishJob_handedOn (n : Nat) (s : State) : (finishJob n s).handedOn = s.handedOn := rfl
@[simp] theorem finishJob_devices (n : Nat) (s : State) : (finishJob n s).devices = s.devices := rfl
@[simp] theorem finishJob_delay (n : Nat) (s : State) : (finishJob n s).delay = s.delay := rfl
@[simp] theorem finishJob_raced (n : Nat) (s : State) : (finishJob n s).raced = false := rfl
@[simp] theorem finishJob_draws (n : Nat) (s : State) : (finishJob n s).draws = s.draws := rfl

@[simp] theorem drawRegion_ctrl (r : Region) (s : State) : (drawRegion r s).ctrl = s.ctrl := rfl
@[simp] theorem drawRegion_status (r : Region) (s : State) : (drawRegion r s).status = s.status := rfl
@[simp] theorem drawRegion_srcBase (r : Region) (s : State) : (drawRegion r s).srcBase = s.srcBase := rfl
@[simp] theorem drawRegion_srcLen (r : Region) (s : State) : (drawRegion r s).srcLen = s.srcLen := rfl
@[simp] theorem drawRegion_dstBase (r : Region) (s : State) : (drawRegion r s).dstBase = s.dstBase := rfl
@[simp] theorem drawRegion_rowWidth (r : Region) (s : State) : (drawRegion r s).rowWidth = s.rowWidth := rfl
@[simp] theorem drawRegion_tileCount (r : Region) (s : State) : (drawRegion r s).tileCount = s.tileCount := rfl
@[simp] theorem drawRegion_outLen (r : Region) (s : State) : (drawRegion r s).outLen = s.outLen := rfl
@[simp] theorem drawRegion_job (r : Region) (s : State) : (drawRegion r s).job = s.job := rfl
@[simp] theorem drawRegion_mem (r : Region) (s : State) : (drawRegion r s).mem = forUp r.len (fun i m => memWrite m (r.base + i) (Config.freeByte (s.draws + i))) s.mem := rfl
@[simp] theorem drawRegion_hostOps (r : Region) (s : State) : (drawRegion r s).hostOps = s.hostOps := rfl
@[simp] theorem drawRegion_hostReads (r : Region) (s : State) : (drawRegion r s).hostReads = s.hostReads := rfl
@[simp] theorem drawRegion_handedOn (r : Region) (s : State) : (drawRegion r s).handedOn = s.handedOn := rfl
@[simp] theorem drawRegion_devices (r : Region) (s : State) : (drawRegion r s).devices = s.devices := rfl
@[simp] theorem drawRegion_delay (r : Region) (s : State) : (drawRegion r s).delay = s.delay := rfl
@[simp] theorem drawRegion_raced (r : Region) (s : State) : (drawRegion r s).raced = s.raced := rfl
@[simp] theorem drawRegion_draws (r : Region) (s : State) : (drawRegion r s).draws = s.draws + r.len := rfl

@[simp] theorem noteRead_ctrl (x : HostRead) (s : State) : (noteRead x s).ctrl = s.ctrl := rfl
@[simp] theorem noteRead_status (x : HostRead) (s : State) : (noteRead x s).status = s.status := rfl
@[simp] theorem noteRead_srcBase (x : HostRead) (s : State) : (noteRead x s).srcBase = s.srcBase := rfl
@[simp] theorem noteRead_srcLen (x : HostRead) (s : State) : (noteRead x s).srcLen = s.srcLen := rfl
@[simp] theorem noteRead_dstBase (x : HostRead) (s : State) : (noteRead x s).dstBase = s.dstBase := rfl
@[simp] theorem noteRead_rowWidth (x : HostRead) (s : State) : (noteRead x s).rowWidth = s.rowWidth := rfl
@[simp] theorem noteRead_tileCount (x : HostRead) (s : State) : (noteRead x s).tileCount = s.tileCount := rfl
@[simp] theorem noteRead_outLen (x : HostRead) (s : State) : (noteRead x s).outLen = s.outLen := rfl
@[simp] theorem noteRead_job (x : HostRead) (s : State) : (noteRead x s).job = s.job := rfl
@[simp] theorem noteRead_mem (x : HostRead) (s : State) : (noteRead x s).mem = s.mem := rfl
@[simp] theorem noteRead_hostOps (x : HostRead) (s : State) : (noteRead x s).hostOps = s.hostOps := rfl
@[simp] theorem noteRead_hostReads (x : HostRead) (s : State) : (noteRead x s).hostReads = x :: s.hostReads := rfl
@[simp] theorem noteRead_handedOn (x : HostRead) (s : State) : (noteRead x s).handedOn = s.handedOn := rfl
@[simp] theorem noteRead_devices (x : HostRead) (s : State) : (noteRead x s).devices = s.devices := rfl
@[simp] theorem noteRead_delay (x : HostRead) (s : State) : (noteRead x s).delay = s.delay := rfl
@[simp] theorem noteRead_raced (x : HostRead) (s : State) : (noteRead x s).raced = s.raced := rfl
@[simp] theorem noteRead_draws (x : HostRead) (s : State) : (noteRead x s).draws = s.draws := rfl

@[simp] theorem handResult_ctrl (r : HostResult) (s : State) : (handResult r s).ctrl = s.ctrl := rfl
@[simp] theorem handResult_status (r : HostResult) (s : State) : (handResult r s).status = s.status := rfl
@[simp] theorem handResult_srcBase (r : HostResult) (s : State) : (handResult r s).srcBase = s.srcBase := rfl
@[simp] theorem handResult_srcLen (r : HostResult) (s : State) : (handResult r s).srcLen = s.srcLen := rfl
@[simp] theorem handResult_dstBase (r : HostResult) (s : State) : (handResult r s).dstBase = s.dstBase := rfl
@[simp] theorem handResult_rowWidth (r : HostResult) (s : State) : (handResult r s).rowWidth = s.rowWidth := rfl
@[simp] theorem handResult_tileCount (r : HostResult) (s : State) : (handResult r s).tileCount = s.tileCount := rfl
@[simp] theorem handResult_outLen (r : HostResult) (s : State) : (handResult r s).outLen = s.outLen := rfl
@[simp] theorem handResult_job (r : HostResult) (s : State) : (handResult r s).job = s.job := rfl
@[simp] theorem handResult_mem (r : HostResult) (s : State) : (handResult r s).mem = s.mem := rfl
@[simp] theorem handResult_hostOps (r : HostResult) (s : State) : (handResult r s).hostOps = s.hostOps := rfl
@[simp] theorem handResult_hostReads (r : HostResult) (s : State) : (handResult r s).hostReads = s.hostReads := rfl
@[simp] theorem handResult_handedOn (r : HostResult) (s : State) : (handResult r s).handedOn = r :: s.handedOn := rfl
@[simp] theorem handResult_devices (r : HostResult) (s : State) : (handResult r s).devices = s.devices := rfl
@[simp] theorem handResult_delay (r : HostResult) (s : State) : (handResult r s).delay = s.delay := rfl
@[simp] theorem handResult_raced (r : HostResult) (s : State) : (handResult r s).raced = s.raced := rfl
@[simp] theorem handResult_draws (r : HostResult) (s : State) : (handResult r s).draws = s.draws := rfl

@[simp] theorem keepHostOp_ctrl (op : HostOp) (s : State) : (keepHostOp op s).ctrl = s.ctrl := rfl
@[simp] theorem keepHostOp_status (op : HostOp) (s : State) : (keepHostOp op s).status = s.status := rfl
@[simp] theorem keepHostOp_srcBase (op : HostOp) (s : State) : (keepHostOp op s).srcBase = s.srcBase := rfl
@[simp] theorem keepHostOp_srcLen (op : HostOp) (s : State) : (keepHostOp op s).srcLen = s.srcLen := rfl
@[simp] theorem keepHostOp_dstBase (op : HostOp) (s : State) : (keepHostOp op s).dstBase = s.dstBase := rfl
@[simp] theorem keepHostOp_rowWidth (op : HostOp) (s : State) : (keepHostOp op s).rowWidth = s.rowWidth := rfl
@[simp] theorem keepHostOp_tileCount (op : HostOp) (s : State) : (keepHostOp op s).tileCount = s.tileCount := rfl
@[simp] theorem keepHostOp_outLen (op : HostOp) (s : State) : (keepHostOp op s).outLen = s.outLen := rfl
@[simp] theorem keepHostOp_job (op : HostOp) (s : State) : (keepHostOp op s).job = s.job := rfl
@[simp] theorem keepHostOp_mem (op : HostOp) (s : State) : (keepHostOp op s).mem = s.mem := rfl
@[simp] theorem keepHostOp_hostOps (op : HostOp) (s : State) : (keepHostOp op s).hostOps = op :: s.hostOps := rfl
@[simp] theorem keepHostOp_hostReads (op : HostOp) (s : State) : (keepHostOp op s).hostReads = s.hostReads := rfl
@[simp] theorem keepHostOp_handedOn (op : HostOp) (s : State) : (keepHostOp op s).handedOn = s.handedOn := rfl
@[simp] theorem keepHostOp_devices (op : HostOp) (s : State) : (keepHostOp op s).devices = s.devices := rfl
@[simp] theorem keepHostOp_delay (op : HostOp) (s : State) : (keepHostOp op s).delay = s.delay := rfl
@[simp] theorem keepHostOp_raced (op : HostOp) (s : State) : (keepHostOp op s).raced = s.raced := rfl
@[simp] theorem keepHostOp_draws (op : HostOp) (s : State) : (keepHostOp op s).draws = s.draws := rfl

@[simp] theorem resetRegisters_ctrl (s : State) : (resetRegisters s).ctrl = { rowOrder := false, ie := false } := rfl
@[simp] theorem resetRegisters_status (s : State) : (resetRegisters s).status = Status.zero := rfl
@[simp] theorem resetRegisters_srcBase (s : State) : (resetRegisters s).srcBase = 0 := rfl
@[simp] theorem resetRegisters_srcLen (s : State) : (resetRegisters s).srcLen = 0 := rfl
@[simp] theorem resetRegisters_dstBase (s : State) : (resetRegisters s).dstBase = 0 := rfl
@[simp] theorem resetRegisters_rowWidth (s : State) : (resetRegisters s).rowWidth = Config.rowWidthReset := rfl
@[simp] theorem resetRegisters_tileCount (s : State) : (resetRegisters s).tileCount = 0 := rfl
@[simp] theorem resetRegisters_outLen (s : State) : (resetRegisters s).outLen = 0 := rfl
@[simp] theorem resetRegisters_job (s : State) : (resetRegisters s).job = none := rfl
@[simp] theorem resetRegisters_mem (s : State) : (resetRegisters s).mem = s.mem := rfl
@[simp] theorem resetRegisters_hostOps (s : State) : (resetRegisters s).hostOps = s.hostOps := rfl
@[simp] theorem resetRegisters_hostReads (s : State) : (resetRegisters s).hostReads = s.hostReads := rfl
@[simp] theorem resetRegisters_handedOn (s : State) : (resetRegisters s).handedOn = s.handedOn := rfl
@[simp] theorem resetRegisters_devices (s : State) : (resetRegisters s).devices = s.devices := rfl
@[simp] theorem resetRegisters_delay (s : State) : (resetRegisters s).delay = 0 := rfl
@[simp] theorem resetRegisters_raced (s : State) : (resetRegisters s).raced = false := rfl
@[simp] theorem resetRegisters_draws (s : State) : (resetRegisters s).draws = s.draws := rfl

@[simp] theorem withCommand_ctrl (w : Word) (s : State) : (withCommand w s).ctrl = s.ctrl := rfl
@[simp] theorem withCommand_status (w : Word) (s : State) : (withCommand w s).status = s.status := rfl
@[simp] theorem withCommand_srcBase (w : Word) (s : State) : (withCommand w s).srcBase = s.srcBase := rfl
@[simp] theorem withCommand_srcLen (w : Word) (s : State) : (withCommand w s).srcLen = s.srcLen := rfl
@[simp] theorem withCommand_dstBase (w : Word) (s : State) : (withCommand w s).dstBase = s.dstBase := rfl
@[simp] theorem withCommand_rowWidth (w : Word) (s : State) : (withCommand w s).rowWidth = s.rowWidth := rfl
@[simp] theorem withCommand_tileCount (w : Word) (s : State) : (withCommand w s).tileCount = s.tileCount := rfl
@[simp] theorem withCommand_outLen (w : Word) (s : State) : (withCommand w s).outLen = s.outLen := rfl
@[simp] theorem withCommand_job (w : Word) (s : State) : (withCommand w s).job = s.job := rfl
@[simp] theorem withCommand_mem (w : Word) (s : State) : (withCommand w s).mem = s.mem := rfl
@[simp] theorem withCommand_hostOps (w : Word) (s : State) : (withCommand w s).hostOps = .regWrite Reg.cmd.offset 4 w :: s.hostOps := rfl
@[simp] theorem withCommand_hostReads (w : Word) (s : State) : (withCommand w s).hostReads = s.hostReads := rfl
@[simp] theorem withCommand_handedOn (w : Word) (s : State) : (withCommand w s).handedOn = s.handedOn := rfl
@[simp] theorem withCommand_devices (w : Word) (s : State) : (withCommand w s).devices = s.devices := rfl
@[simp] theorem withCommand_delay (w : Word) (s : State) : (withCommand w s).delay = if s.job.isSome && s.delay == 0 then 1 else s.delay := rfl
@[simp] theorem withCommand_raced (w : Word) (s : State) : (withCommand w s).raced = s.raced := rfl
@[simp] theorem withCommand_draws (w : Word) (s : State) : (withCommand w s).draws = s.draws := rfl

@[simp] theorem hostMoves_ctrl (rest : List HostOp) (s : State) : (s.hostMoves rest).ctrl = s.ctrl := rfl
@[simp] theorem hostMoves_status (rest : List HostOp) (s : State) : (s.hostMoves rest).status = s.status := rfl
@[simp] theorem hostMoves_srcBase (rest : List HostOp) (s : State) : (s.hostMoves rest).srcBase = s.srcBase := rfl
@[simp] theorem hostMoves_srcLen (rest : List HostOp) (s : State) : (s.hostMoves rest).srcLen = s.srcLen := rfl
@[simp] theorem hostMoves_dstBase (rest : List HostOp) (s : State) : (s.hostMoves rest).dstBase = s.dstBase := rfl
@[simp] theorem hostMoves_rowWidth (rest : List HostOp) (s : State) : (s.hostMoves rest).rowWidth = s.rowWidth := rfl
@[simp] theorem hostMoves_tileCount (rest : List HostOp) (s : State) : (s.hostMoves rest).tileCount = s.tileCount := rfl
@[simp] theorem hostMoves_outLen (rest : List HostOp) (s : State) : (s.hostMoves rest).outLen = s.outLen := rfl
@[simp] theorem hostMoves_job (rest : List HostOp) (s : State) : (s.hostMoves rest).job = s.job := rfl
@[simp] theorem hostMoves_mem (rest : List HostOp) (s : State) : (s.hostMoves rest).mem = s.mem := rfl
@[simp] theorem hostMoves_hostOps (rest : List HostOp) (s : State) : (s.hostMoves rest).hostOps = rest := rfl
@[simp] theorem hostMoves_hostReads (rest : List HostOp) (s : State) : (s.hostMoves rest).hostReads = s.hostReads := rfl
@[simp] theorem hostMoves_handedOn (rest : List HostOp) (s : State) : (s.hostMoves rest).handedOn = s.handedOn := rfl
@[simp] theorem hostMoves_devices (rest : List HostOp) (s : State) : (s.hostMoves rest).devices = s.devices := rfl
@[simp] theorem hostMoves_delay (rest : List HostOp) (s : State) : (s.hostMoves rest).delay = if s.job.isSome then s.delay - 1 else s.delay := rfl
@[simp] theorem hostMoves_raced (rest : List HostOp) (s : State) : (s.hostMoves rest).raced = s.raced := rfl
@[simp] theorem hostMoves_draws (rest : List HostOp) (s : State) : (s.hostMoves rest).draws = s.draws := rfl

end Sys2Proof.Machine
end

