-- ==== Sys2Proof/Laws/Ops.lean ====
section
/-! SUPPORT. Data memory: read after write, the canonical form and the address space kept by every memory operation, and the loop of the rules. -/

namespace Sys2Proof.Machine

/-! ### Reading and writing one byte -/

theorem memSorted_weaken {lo lo' : Nat} {m : Memory} (h : memSorted lo m = true) (hl : lo' ≤ lo) :
    memSorted lo' m = true := by
  cases m with
  | nil => rfl
  | cons c m =>
    obtain ⟨k, w⟩ := c
    simp only [memSorted, Bool.and_eq_true, decide_eq_true_eq] at h ⊢
    exact ⟨⟨by omega, h.1.2⟩, h.2⟩

theorem memRead_below {lo a : Nat} {m : Memory} (h : memSorted lo m = true) (ha : a < lo) :
    memRead m a = unlistedByte := by
  induction m generalizing lo with
  | nil => rfl
  | cons c m ih =>
    obtain ⟨k, w⟩ := c
    simp only [memSorted, Bool.and_eq_true, decide_eq_true_eq] at h
    have hk : k ≠ a := by omega
    simp only [memRead, hk, if_false]
    exact ih h.2 (by omega)

/-- A write leaves every other byte alone. -/
theorem memRead_memWrite_other (m : Memory) {a b : Nat} (v : Byte) (hab : b ≠ a) :
    memRead (memWrite m a v) b = memRead m b := by
  induction m with
  | nil =>
    by_cases hv : v = unlistedByte
    · simp [memWrite, hv]
    · simp [memWrite, hv, memRead, Ne.symm hab]
  | cons c m ih =>
    obtain ⟨k, w⟩ := c
    by_cases h1 : a < k
    · by_cases hv : v = unlistedByte
      · simp [memWrite, h1, hv]
      · simp [memWrite, h1, hv, memRead, Ne.symm hab]
    · by_cases h2 : a = k
      · subst h2
        by_cases hv : v = unlistedByte
        · simp [memWrite, hv, memRead, Ne.symm hab]
        · simp [memWrite, hv, memRead, Ne.symm hab]
      · simp only [memWrite, h1, h2, if_false, memRead]
        rw [ih]

/-- A read after a write to the same place gives the value written. -/
theorem memRead_memWrite_same_of_sorted {lo : Nat} {m : Memory} (hm : memSorted lo m = true) (a : Nat) (v : Byte) :
    memRead (memWrite m a v) a = v := by
  induction m generalizing lo with
  | nil =>
    by_cases hv : v = unlistedByte
    · simp [memWrite, hv, memRead]
    · simp [memWrite, hv, memRead]
  | cons c m ih =>
    obtain ⟨k, w⟩ := c
    simp only [memSorted, Bool.and_eq_true, decide_eq_true_eq] at hm
    by_cases h1 : a < k
    · by_cases hv : v = unlistedByte
      · have hk : k ≠ a := by omega
        simp only [memWrite, h1, hv, if_true, memRead, hk, if_false]
        exact memRead_below hm.2 (by omega)
      · simp [memWrite, h1, hv, memRead]
    · by_cases h2 : a = k
      · subst h2
        by_cases hv : v = unlistedByte
        · simp only [memWrite, lt_irrefl, hv, if_true, if_false]
          exact memRead_below hm.2 (by omega)
        · simp [memWrite, hv, memRead]
      · have hk : k ≠ a := Ne.symm h2
        simp only [memWrite, h1, h2, if_false, memRead, hk]
        exact ih hm.2

theorem memRead_memWrite_same {m : Memory} (hm : Memory.wf m = true) (a : Nat) (v : Byte) :
    memRead (memWrite m a v) a = v := memRead_memWrite_same_of_sorted hm a v

/-- Both cases at once, for canonical memories. -/
theorem memRead_memWrite {m : Memory} (hm : Memory.wf m = true) (a b : Nat) (v : Byte) :
    memRead (memWrite m a v) b = if b = a then v else memRead m b := by
  by_cases h : b = a
  · simp [h, memRead_memWrite_same hm]
  · simp [h, memRead_memWrite_other m v h]

/-! ### The canonical form -/

theorem memSorted_memWrite {lo a : Nat} {m : Memory} (hm : memSorted lo m = true) (ha : lo ≤ a) (v : Byte) :
    memSorted lo (memWrite m a v) = true := by
  induction m generalizing lo with
  | nil =>
    by_cases hv : v = unlistedByte
    · simp [memWrite, hv, memSorted]
    · simp [memWrite, hv, memSorted, ha]
  | cons c m ih =>
    obtain ⟨k, w⟩ := c
    have hm' := hm
    simp only [memSorted, Bool.and_eq_true, decide_eq_true_eq] at hm
    by_cases h1 : a < k
    · by_cases hv : v = unlistedByte
      · simp only [memWrite, h1, hv, if_true]
        exact hm'
      · simp only [memWrite, h1, hv, if_true, if_false, memSorted, Bool.and_eq_true, decide_eq_true_eq]
        exact ⟨⟨ha, hv⟩, ⟨by omega, hm.1.2⟩, hm.2⟩
    · by_cases h2 : a = k
      · subst h2
        by_cases hv : v = unlistedByte
        · simp only [memWrite, lt_irrefl, hv, if_true, if_false]
          exact memSorted_weaken hm.2 (by omega)
        · simp only [memWrite, lt_irrefl, hv, if_true, if_false, memSorted, Bool.and_eq_true, decide_eq_true_eq]
          exact ⟨⟨ha, hv⟩, hm.2⟩
      · simp only [memWrite, h1, h2, if_false, memSorted, Bool.and_eq_true, decide_eq_true_eq]
        exact ⟨⟨hm.1.1, hm.1.2⟩, ih hm.2 (by omega)⟩

/-- A write keeps the canonical form. -/
theorem memWrite_wf {m : Memory} (hm : Memory.wf m = true) (a : Nat) (v : Byte) :
    Memory.wf (memWrite m a v) = true := memSorted_memWrite hm (Nat.zero_le a) v

/-- A write inside data memory lists nothing outside it. -/
theorem memWrite_inSpace {m : Memory} (hm : memInSpace m = true) {a : Nat} (ha : a < Config.memorySize) (v : Byte) :
    memInSpace (memWrite m a v) = true := by
  induction m with
  | nil =>
    by_cases hv : v = unlistedByte
    · simp [memWrite, hv, memInSpace]
    · simp [memWrite, hv, memInSpace, ha]
  | cons c m ih =>
    obtain ⟨k, w⟩ := c
    simp only [memInSpace, List.all_cons, Bool.and_eq_true, decide_eq_true_eq] at hm ih
    by_cases h1 : a < k <;> by_cases hv : v = unlistedByte <;> by_cases h2 : a = k <;>
      simp [memWrite, h1, hv, h2, memInSpace, hm, ha] <;>
      first
        | omega
        | (simp only [List.all_eq_true, decide_eq_true_eq] at hm ih
           simpa [hv, memInSpace] using ih hm.2)

/-- Memory after reset is canonical. -/
theorem reset_mem_wf : Memory.wf State.reset.mem = true := rfl

theorem memWriteBytes_wf {m : Memory} (hm : Memory.wf m = true) (a : Nat) (bs : List Byte) :
    Memory.wf (memWriteBytes m a bs) = true := by
  induction bs generalizing m a with
  | nil => exact hm
  | cons b bs ih => exact ih (memWrite_wf hm a b) (a + 1)

/-! ### The loop of the rules -/

@[simp] theorem forUp_zero (body : Nat → Memory → Memory) (m : Memory) : forUp 0 body m = m := rfl

@[simp] theorem forUp_succ (n : Nat) (body : Nat → Memory → Memory) (m : Memory) :
    forUp (n + 1) body m = body n (forUp n body m) := rfl

/-- A loop's invariant: it holds at the start and every turn takes it from `i` to `i + 1`. -/
theorem forUp_inv {n : Nat} {body : Nat → Memory → Memory} {m : Memory} (P : Nat → Memory → Prop)
    (h0 : P 0 m) (hs : ∀ i m', i < n → P i m' → P (i + 1) (body i m')) : P n (forUp n body m) := by
  induction n with
  | zero => exact h0
  | succ n ih => exact hs n _ (Nat.lt_succ_self n) (ih fun i m' hi => hs i m' (Nat.lt_succ_of_lt hi))

/-- Two loops whose bodies agree on every turn do the same. -/
theorem forUp_congr {n : Nat} {f g : Nat → Memory → Memory} {m : Memory}
    (h : ∀ i m', i < n → f i m' = g i m') : forUp n f m = forUp n g m := by
  induction n with
  | zero => rfl
  | succ n ih =>
    simp only [forUp_succ]
    rw [ih fun i m' hi => h i m' (Nat.lt_succ_of_lt hi), h n _ (Nat.lt_succ_self n)]

theorem forUp_wf {n : Nat} {body : Nat → Memory → Memory} {m : Memory} (hm : Memory.wf m = true)
    (hb : ∀ i m', Memory.wf m' = true → Memory.wf (body i m') = true) : Memory.wf (forUp n body m) = true :=
  forUp_inv (fun _ m' => Memory.wf m' = true) hm fun i m' _ h => hb i m' h

/-- The loop that writes byte `f i` at `base + i`, for `i < n`: what every address reads afterwards. -/
theorem memRead_forUp_write {m : Memory} (hm : Memory.wf m = true) (base n : Nat) (f : Nat → Byte) (a : Nat) :
    memRead (forUp n (fun i m' => memWrite m' (base + i) (f i)) m) a =
      if base ≤ a ∧ a < base + n then f (a - base) else memRead m a := by
  induction n with
  | zero =>
    have h : ¬(base ≤ a ∧ a < base + 0) := by omega
    simp only [forUp_zero, h, if_false]
  | succ n ih =>
    have hwf := forUp_wf (n := n) (body := fun i m' => memWrite m' (base + i) (f i)) hm
      fun i m' h => memWrite_wf h _ _
    simp only [forUp_succ]
    rw [memRead_memWrite hwf, ih]
    by_cases h : a = base + n
    · have h2 : base ≤ a ∧ a < base + (n + 1) := by omega
      have h3 : a - base = n := by omega
      rw [if_pos h, if_pos h2, h3]
    · by_cases h2 : base ≤ a ∧ a < base + n
      · have h4 : base ≤ a ∧ a < base + (n + 1) := by omega
        simp only [h, if_false, h2, and_self, if_true, h4]
      · have h4 : ¬(base ≤ a ∧ a < base + (n + 1)) := by omega
        simp only [h, h2, h4, if_false]

/-! ### Regions -/

theorem region_holds_iff (r : Region) (a : Nat) :
    r.holds a = true ↔ r.base ≤ a ∧ a < r.base + r.len := by
  simp [Region.holds]

theorem region_overlaps_iff (r t : Region) :
    r.overlaps t = true ↔
      0 < r.len ∧ 0 < t.len ∧ t.base < r.base + r.len ∧ r.base < t.base + t.len := by
  simp [Region.overlaps, and_assoc]

/-- Two regions that do not overlap share no byte (60_exceptions.md R181). -/
theorem region_disjoint {r t : Region} (h : r.overlaps t = false) {a : Nat} (hr : r.holds a = true) :
    t.holds a = false := by
  simp only [Region.holds, Bool.and_eq_true, decide_eq_true_eq] at hr
  simp only [Region.overlaps, Bool.and_eq_false_iff, decide_eq_false_iff_not] at h
  simp only [Region.holds, Bool.and_eq_false_iff, decide_eq_false_iff_not]
  omega

/-- Two regions that overlap do share a byte. -/
theorem region_overlap_witness {r t : Region} (h : r.overlaps t = true) :
    ∃ a, r.holds a = true ∧ t.holds a = true := by
  simp only [Region.overlaps, Bool.and_eq_true, decide_eq_true_eq] at h
  refine ⟨max r.base t.base, ?_, ?_⟩ <;>
    simp only [Region.holds, Bool.and_eq_true, decide_eq_true_eq] <;> omega

end Sys2Proof.Machine
end

