-- ==== Sys2Proof/Laws/Commands.lean ====
section
/-! SUPPORT. What an accepted command can answer, and what every command does while the block is busy. -/

namespace Sys2Proof.Machine

@[simp] theorem unlessBusy_busy {s : State} (f : State → Result) (h : s.status.busy = true) :
    unlessBusy f s = .next (dropWord s) := by simp [unlessBusy, h]

@[simp] theorem unlessBusy_idle {s : State} (f : State → Result) (h : s.status.busy = false) :
    unlessBusy f s = f s := by simp [unlessBusy, h]

/-- The tile count is a function of SRC_LEN and ROW_WIDTH. -/
theorem tilesOf_congr (op : JobOp) {s s' : State} (hl : s'.srcLen = s.srcLen) (hw : s'.rowWidth = s.rowWidth) :
    tilesOf op s' = tilesOf op s := by
  cases op <;> simp only [tilesOf, State.rows, State.tilesPerRow, hl, hw]

/-- The checks read the operand registers alone (44_commands.md R162). -/
theorem check_congr (op : JobOp) {s s' : State} (hb : s'.srcBase = s.srcBase) (hl : s'.srcLen = s.srcLen)
    (hd : s'.dstBase = s.dstBase) (hw : s'.rowWidth = s.rowWidth) : check op s' = check op s := by
  cases s
  cases s'
  subst hb hl hd hw
  cases op <;> rfl

/-- The checks read the registers alone, which `clearStatus` keeps. -/
@[simp] theorem check_clearStatus (op : JobOp) (s : State) : check op (clearStatus s) = check op s := by
  cases op <;> rfl

@[simp] theorem regionsOrdinary_clearStatus (op : JobOp) (s : State) :
    regionsOrdinary op (clearStatus s) = regionsOrdinary op s := by cases op <;> rfl

/-- A job whose check fails ends in that error. -/
theorem acceptJob_error {op : JobOp} {s : State} {e : BlockError} (h : check op s = .error e) :
    acceptJob op s = .next (failCommand e.code e.detail (clearStatus s)) := by
  simp [acceptJob, h]

/-- A job that passes its checks, on ordinary memory, starts. -/
theorem acceptJob_ok {op : JobOp} {s : State} {n : Nat} (h : check op s = .ok n)
    (ho : regionsOrdinary op s = true) : acceptJob op s = .next (startJob op n (clearStatus s)) := by
  simp [acceptJob, h, ho]

/-- Everything an accepted job command can do when it answers a next state. -/
theorem acceptJob_next {op : JobOp} {s t : State} (h : acceptJob op s = .next t) :
    (∃ e, check op s = .error e ∧ t = failCommand e.code e.detail (clearStatus s)) ∨
      (∃ n, check op s = .ok n ∧ regionsOrdinary op s = true ∧ t = startJob op n (clearStatus s)) := by
  cases hc : check op s with
  | error e =>
    rw [acceptJob_error hc] at h
    exact .inl ⟨e, rfl, (Host.Outcome.next.inj h).symm⟩
  | ok n =>
    by_cases ho : regionsOrdinary op s = true
    · rw [acceptJob_ok hc ho] at h
      exact .inr ⟨n, rfl, ho, (Host.Outcome.next.inj h).symm⟩
    · simp [acceptJob, hc, ho] at h

/-- A check that passes answers the job's tile count. -/
theorem check_ok_tiles {op : JobOp} {s : State} {n : Nat} (h : check op s = .ok n) : n = tilesOf op s := by
  unfold check at h
  split at h
  · cases h
  · split at h
    · cases h
    · exact (Except.ok.inj h).symm

/-- What a passed check says of the regions (60_exceptions.md R181): in range, and disjoint. -/
theorem check_ok_regions {op : JobOp} {s : State} {n : Nat} (h : check op s = .ok n) :
    s.srcBase.toNat + s.srcLen.toNat ≤ Config.memorySize ∧
      s.dstBase.toNat + outputLength op s ≤ Config.memorySize ∧
      (dstRegion op s).overlaps s.srcRegion = false := by
  unfold check at h
  split at h
  · cases h
  · split at h
    · cases h
    · rename_i hr
      unfold checkRegions at hr
      split at hr
      · cases hr
      · split at hr
        · cases hr
        · split at hr
          · cases hr
          · rename_i h1 h2 h3
            exact ⟨by omega, by omega, by simpa using h3⟩

/-- What a passed check says of the dimensions of CONVERT and REORDER (60_exceptions.md R181). -/
theorem checkRows_ok {s : State} (h : checkRows s = .ok ()) :
    0 < s.rowWidth.toNat ∧ s.srcLen.toNat % s.rowWidth.toNat = 0 ∧ s.rowWidth.toNat % 8 = 0 ∧
      s.rows % 8 = 0 := by
  unfold checkRows at h
  split at h
  · cases h
  · split at h
    · cases h
    · split at h
      · cases h
      · split at h
        · cases h
        · exact ⟨by omega, by omega, by omega, by omega⟩

/-- What a passed check says of the dimensions of a job. -/
theorem check_ok_dims {op : JobOp} {s : State} {n : Nat} (h : check op s = .ok n) :
    checkDims op s = .ok () := by
  unfold check at h
  split at h
  · cases h
  · assumption

/-- Acceptance of an illegal word. -/
theorem execIllegal_idle {op : BitVec 4} {rsvd : BitVec 28} {s : State} (h : s.status.busy = false) :
    execIllegal op rsvd s =
      .next (failCommand (illegalError op).code (illegalError op).detail (clearStatus s)) := by
  simp [execIllegal, h]

/-- Everything a command can do when it answers a next state: it is dropped, it changes nothing, it clears the
record, it ends in an error, or it starts its job. -/
theorem exec_next {i : Instr} {s t : State} (h : exec i s = .next t) :
    (s.status.busy = true ∧ t = dropWord s) ∨
      (s.status.busy = false ∧
        ((i = .nop ∧ t = s) ∨ (i = .clear ∧ t = clearStatus s) ∨
          (∃ e ∈ allErrors, t = failCommand e.code e.detail (clearStatus s)) ∨
          (∃ op, check op s = .ok (tilesOf op s) ∧ regionsOrdinary op s = true ∧
            t = startJob op (tilesOf op s) (clearStatus s)))) := by
  have hall : ∀ e : BlockError, e ∈ allErrors := by intro e; cases e <;> decide
  by_cases hb : s.status.busy = true
  · refine .inl ⟨hb, ?_⟩
    cases i <;> simp only [exec, execNop, execConvert, execReorder, execPack, execClear, execIllegal,
      unlessBusy_busy _ hb] at h <;> exact (Host.Outcome.next.inj h).symm
  · have hb : s.status.busy = false := by simpa using hb
    refine .inr ⟨hb, ?_⟩
    have job : ∀ op, acceptJob op s = .next t → _ := fun op => acceptJob_next (op := op) (s := s) (t := t)
    have close : ∀ op, acceptJob op s = .next t →
        ((∃ e ∈ allErrors, t = failCommand e.code e.detail (clearStatus s)) ∨
          (∃ op, check op s = .ok (tilesOf op s) ∧ regionsOrdinary op s = true ∧
            t = startJob op (tilesOf op s) (clearStatus s))) := by
      intro op ho
      rcases job op ho with ⟨e, _, rfl⟩ | ⟨n, hn, hr, rfl⟩
      · exact .inl ⟨e, hall e, rfl⟩
      · have := check_ok_tiles hn
        subst this
        exact .inr ⟨op, hn, hr, rfl⟩
    cases i with
    | nop =>
      simp only [exec, execNop, unlessBusy_idle _ hb] at h
      exact .inl ⟨rfl, (Host.Outcome.next.inj h).symm⟩
    | clear =>
      simp only [exec, execClear, unlessBusy_idle _ hb] at h
      exact .inr (.inl ⟨rfl, (Host.Outcome.next.inj h).symm⟩)
    | convert =>
      simp only [exec, execConvert, unlessBusy_idle _ hb] at h
      exact .inr (.inr (close _ h))
    | reorder =>
      simp only [exec, execReorder, unlessBusy_idle _ hb] at h
      exact .inr (.inr (close _ h))
    | pack =>
      simp only [exec, execPack, unlessBusy_idle _ hb] at h
      exact .inr (.inr (close _ h))
    | illegal op rsvd =>
      simp only [exec, execIllegal_idle hb] at h
      exact .inr (.inr (.inl ⟨illegalError op, hall _, (Host.Outcome.next.inj h).symm⟩))

end Sys2Proof.Machine
end

