-- ==== Sys2Proof/Laws/PerInstr.lean ====
section
/-! SUPPORT. What holds of every command as syntax: the words of the five commands are exactly those below 5. -/

namespace Sys2Proof.Laws.LegalWord

open Sys2Proof

/-- A well-formed command's word is below 5 exactly when the command is one of the five (30_encoding.md R71, R74). -/
def Statement (i : Instr) : Prop :=
  i.wellFormed = true → ((encode i).toNat < 5 ↔ ∀ op rsvd, i ≠ .illegal op rsvd)

theorem nop : Statement .nop := fun _ =>
  ⟨(fun _ _ _ h => Instr.noConfusion h), (fun _ => by decide)⟩

theorem convert : Statement .convert := fun _ =>
  ⟨(fun _ _ _ h => Instr.noConfusion h), (fun _ => by decide)⟩

theorem reorder : Statement .reorder := fun _ =>
  ⟨(fun _ _ _ h => Instr.noConfusion h), (fun _ => by decide)⟩

theorem pack : Statement .pack := fun _ =>
  ⟨(fun _ _ _ h => Instr.noConfusion h), (fun _ => by decide)⟩

theorem clear : Statement .clear := fun _ =>
  ⟨(fun _ _ _ h => Instr.noConfusion h), (fun _ => by decide)⟩

theorem illegal (op : BitVec 4) (rsvd : BitVec 28) : Statement (.illegal op rsvd) := by
  intro h
  refine ⟨fun hlt => absurd hlt ?_, fun hne => absurd rfl (hne op rsvd)⟩
  have hword : (encode (.illegal op rsvd)).toNat = rsvd.toNat * 16 + op.toNat := by
    simp only [encode, commandWord, BitVec.toNat_append]
    rw [← Nat.shiftLeft_add_eq_or_of_lt (by omega), Nat.shiftLeft_eq]
  simp only [Instr.wellFormed, illegalFields, Bool.or_eq_true, decide_eq_true_eq] at h
  rw [hword]
  rcases h with h | h
  · omega
  · have : rsvd.toNat ≠ 0 := fun h0 => h (BitVec.eq_of_toNat_eq (by simpa using h0))
    omega

end Sys2Proof.Laws.LegalWord
end

