-- ==== Sys2Proof/Laws/Step.lean ====
section
/-! SUPPORT. What one step can do: the block's completion or one operation of the host. -/

namespace Sys2Proof.Machine

/-- Completion is taken when the job's LATENCY has passed. -/
theorem step_completes {s : State} {op : JobOp} (hj : s.job = some op) (hd : s.delay = 0) :
    step s = .next (completeJob op s) := by
  simp [step, machineStep, hj, hd]

/-- Otherwise the host moves. -/
theorem step_host {s : State} {op : HostOp} {rest : List HostOp} (hc : s.completesNow = false)
    (ho : s.hostOps = op :: rest) : step s = hostStep op (s.hostMoves rest) := by
  cases hj : s.job with
  | none => simp [step, machineStep, hj, hostTurn, ho, State.hostMoves]
  | some j =>
    have hd : s.delay ≠ 0 := by simpa [State.completesNow, hj] using hc
    simp [step, machineStep, hj, hostTurn, ho, hd, State.hostMoves]

/-- A host with nothing left lets time pass. -/
theorem step_host_idle {s : State} (hc : s.completesNow = false) (ho : s.hostOps = []) :
    step s = .next (s.hostMoves []) := by
  obtain ⟨ctrl, status, sb, sl, db, rw, tc, ol, job, mem, ops, reads, handed, dev, delay, raced, draws⟩ := s
  simp only at ho
  subst ho
  cases job with
  | none => rfl
  | some j =>
    have hd : delay ≠ 0 := by simpa [State.completesNow] using hc
    simp [step, machineStep, hostTurn, hd, State.hostMoves]

/-- Everything a step can be. -/
theorem step_cases (s : State) :
    (∃ op, s.job = some op ∧ s.delay = 0 ∧ step s = .next (completeJob op s)) ∨
      (s.completesNow = false ∧ s.hostOps = [] ∧ step s = .next (s.hostMoves [])) ∨
      (∃ op rest, s.completesNow = false ∧ s.hostOps = op :: rest ∧
        step s = hostStep op (s.hostMoves rest)) := by
  cases hc : s.completesNow with
  | true =>
    left
    cases hj : s.job with
    | none => simp [State.completesNow, hj] at hc
    | some op =>
      have hd : s.delay = 0 := by simpa [State.completesNow, hj] using hc
      exact ⟨op, rfl, hd, step_completes hj hd⟩
  | false =>
    right
    cases ho : s.hostOps with
    | nil => exact .inl ⟨rfl, rfl, step_host_idle hc ho⟩
    | cons op rest => exact .inr ⟨op, rest, rfl, rfl, step_host hc ho⟩

/-- A CMD write presents its word to the block. -/
theorem hostRegWrite_cmd (v : Word) (s : State) : hostRegWrite 0x08 4 v s = exec (decode v) s := rfl

/-- A read of the window changes only what the host has read. -/
theorem hostRegRead_eq (off : BitVec 6) (size : Nat) (s : State) :
    hostRegRead off size s =
      { s with hostReads := .reg off (readWindow off size s) :: s.hostReads } := rfl

/-- A supported write of a register other than CMD, or of a reserved offset, or an unsupported one: either nothing
changes, or a read-write register takes the value with BUSY = 0. -/
theorem hostRegWrite_other {off : BitVec 6} {size : Nat} {v : Word} {s t : State}
    (hc : regAt off ≠ some .cmd) (h : hostRegWrite off size v s = .next t) :
    t = s ∨ (s.status.busy = false ∧ ∃ r, t = storeReg r v s) := by
  unfold hostRegWrite at h
  split at h
  · split at h
    · rename_i hr
      exact absurd hr hc
    · rename_i r hr _
      have ht := (Host.Outcome.next.inj h).symm
      cases hb : s.status.busy with
      | true => simp only [writeReg, hb, if_true] at ht; exact .inl ht
      | false => exact .inr ⟨rfl, r, by simpa [writeReg, hb] using ht⟩
    · exact .inl (Host.Outcome.next.inj h).symm
  · exact .inl (Host.Outcome.next.inj h).symm

/-- A host write of memory that answers a next state. -/
theorem hostMemWrite_next {a : Nat} {v : Byte} {s t : State} (h : hostMemWrite a v s = .next t) :
    a < Config.memorySize ∧ s.sideEffectAt a = false ∧
      t = { s with mem := memWrite s.mem a v, raced := s.raced || s.jobReads a || s.jobWrites a } := by
  unfold hostMemWrite at h
  split at h
  · cases h
  · split at h
    · cases h
    · rename_i h1 h2
      exact ⟨by omega, by simpa using h2, (Host.Outcome.next.inj h).symm⟩

/-- A host read of memory that answers a next state. -/
theorem hostMemRead_next {a : Nat} {s t : State} (h : hostMemRead a s = .next t) :
    a < Config.memorySize ∧ s.sideEffectAt a = false ∧
      t = noteRead (.mem a (hostByte a s)) { s with draws := if s.jobWrites a then s.draws + 1 else s.draws } := by
  unfold hostMemRead at h
  split at h
  · cases h
  · split at h
    · cases h
    · rename_i h1 h2
      exact ⟨by omega, by simpa using h2, (Host.Outcome.next.inj h).symm⟩

/-- A host read of an ordinary byte that no running job writes. -/
theorem hostMemRead_plain {a : Nat} {s : State} (ha : a < Config.memorySize) (hs : s.sideEffectAt a = false)
    (hw : s.jobWrites a = false) : hostMemRead a s = .next (noteRead (.mem a (memRead s.mem a)) s) := by
  have hn : ¬Config.memorySize ≤ a := by omega
  simp [hostMemRead, hn, hs, hw, hostByte]

/-- Where the flags lie in the STATUS word (10_state.md R27). -/
theorem statusWord_bits (st : Status) :
    st.word.getLsbD 0 = st.busy ∧ st.word.getLsbD 1 = st.done ∧ st.word.getLsbD 2 = st.err ∧ st.word.getLsbD 3 = st.drop := by
  obtain ⟨b, d, e, r, c, dd⟩ := st
  simp only [Status.word, flagBit, BitVec.getLsbD_append]
  refine ⟨?_, ?_, ?_, ?_⟩ <;> simp

/-- The host reads the code and detail of the record from the STATUS word. -/
theorem hostErrorOfWord_status (st : Status) :
    hostErrorOfWord st.word = hostErrorOf st.errCode st.errDetail := by
  have hc : st.word.extractLsb' 8 4 = st.errCode := by
    apply BitVec.eq_of_getLsbD_eq
    intro i hi
    simp only [BitVec.getLsbD_extractLsb', Status.word, flagBit, BitVec.getLsbD_append, hi, decide_true, Bool.true_and]
    obtain rfl | rfl | rfl | rfl : i = 0 ∨ i = 1 ∨ i = 2 ∨ i = 3 := by omega
    all_goals simp
  have hd : st.word.extractLsb' 12 4 = st.errDetail := by
    apply BitVec.eq_of_getLsbD_eq
    intro i hi
    simp only [BitVec.getLsbD_extractLsb', Status.word, flagBit, BitVec.getLsbD_append, hi, decide_true, Bool.true_and]
    obtain rfl | rfl | rfl | rfl : i = 0 ∨ i = 1 ∨ i = 2 ∨ i = 3 := by omega
    all_goals simp
  rw [hostErrorOfWord, hc, hd]

/-- After a STATUS read that showed DONE, the host reads OUT_LEN and goes on to the output. -/
theorem hostHandOn_done {d : Nat} {s : State} {v : Word} {reads : List HostRead}
    (hr : s.hostReads = .reg 0x0C v :: reads) (hd : v.getLsbD 1 = true) :
    hostHandOn d s = keepHostOp (.gather d s.outLen.toNat []) (hostRegRead 0x24 4 s) := by
  simp only [hostHandOn, hr, Reg.offset, hd, if_true]
  rfl

/-- After one that showed ERR, it hands on the failure. -/
theorem hostHandOn_err {d : Nat} {s : State} {v : Word} {reads : List HostRead}
    (hr : s.hostReads = .reg 0x0C v :: reads) (hd : v.getLsbD 1 = false) (he : v.getLsbD 2 = true) :
    hostHandOn d s = handResult (.failure (hostErrorOfWord v)) s := by
  simp only [hostHandOn, hr, Reg.offset, hd, he, if_true, Bool.false_eq_true, if_false]

/-- Everything the host's look at its STATUS read can do. -/
theorem hostHandOn_cases (d : Nat) (s : State) :
    hostHandOn d s = s ∨
      ∃ v reads, s.hostReads = .reg 0x0C v :: reads ∧
        ((v.getLsbD 1 = true ∧
            hostHandOn d s = keepHostOp (.gather d s.outLen.toNat []) (hostRegRead 0x24 4 s)) ∨
          (v.getLsbD 1 = false ∧ v.getLsbD 2 = true ∧
            hostHandOn d s = handResult (.failure (hostErrorOfWord v)) s)) := by
  cases hr : s.hostReads with
  | nil => exact .inl (by simp only [hostHandOn, hr])
  | cons x reads =>
    cases x with
    | mem a v => exact .inl (by simp only [hostHandOn, hr])
    | irq => exact .inl (by simp only [hostHandOn, hr])
    | reg off v =>
      by_cases ho : off = 0x0C
      · subst ho
        cases h1 : v.getLsbD 1 with
        | true => exact .inr ⟨v, reads, rfl, .inl ⟨h1, hostHandOn_done hr h1⟩⟩
        | false =>
          cases h2 : v.getLsbD 2 with
          | true => exact .inr ⟨v, reads, rfl, .inr ⟨h1, h2, hostHandOn_err hr h1 h2⟩⟩
          | false =>
            left
            simp only [hostHandOn, hr, Reg.offset, h1, h2, if_true, Bool.false_eq_true, if_false]
      · exact .inl (by simp only [hostHandOn, hr, Reg.offset, ho, if_false])

/-- Everything one turn of the host's reading of the output can do when it answers a next state. -/
theorem hostGather_next {a n : Nat} {got : List Byte} {s t : State} (h : hostGather a n got s = .next t) :
    (n = 0 ∧ t = handResult (.output got.reverse) s) ∨
      ∃ m u, n = m + 1 ∧ hostMemRead a s = .next u ∧
        t = keepHostOp (.gather (a + 1) m (hostByte a s :: got)) u := by
  cases n with
  | zero => exact .inl ⟨rfl, (Host.Outcome.next.inj h).symm⟩
  | succ m =>
    cases hu : hostMemRead a s with
    | next u =>
      simp only [hostGather, hu] at h
      exact .inr ⟨m, u, rfl, rfl, (Host.Outcome.next.inj h).symm⟩
    | fault f => simp [hostGather, hu] at h
    | refused r => simp [hostGather, hu] at h

/-- The host operations that write neither a register nor memory, reset apart. -/
def HostOp.looksOnly : HostOp → Bool
  | .regWrite _ _ _ => false
  | .regRead _ _ => true
  | .poll _ _ _ => true
  | .memWrite _ _ => false
  | .memRead _ => true
  | .waitIrq => true
  | .reset => false
  | .handOn _ => true
  | .gather _ _ _ => true

/-- An operation that only looks changes nothing of the block or of memory, and puts at most one more operation in
front of the host's list, which only looks too. -/
theorem hostStep_looksOnly {op : HostOp} {s t : State} (hl : op.looksOnly = true) (h : hostStep op s = .next t) :
    (t.hostOps = s.hostOps ∨ ∃ op', op'.looksOnly = true ∧ t.hostOps = op' :: s.hostOps) ∧
      t = { s with
        hostOps := t.hostOps
        hostReads := t.hostReads
        handedOn := t.handedOn
        draws := t.draws } := by
  cases op with
  | regWrite off size v => cases hl
  | memWrite a v => cases hl
  | reset => cases hl
  | regRead off size =>
    obtain rfl := (Host.Outcome.next.inj h).symm
    exact ⟨.inl rfl, rfl⟩
  | poll off mask v =>
    obtain rfl := (Host.Outcome.next.inj h).symm
    unfold hostPoll
    split
    · exact ⟨.inl rfl, rfl⟩
    · exact ⟨.inr ⟨_, rfl, rfl⟩, rfl⟩
  | memRead a =>
    obtain ⟨-, -, rfl⟩ := hostMemRead_next h
    exact ⟨.inl rfl, rfl⟩
  | waitIrq =>
    obtain rfl := (Host.Outcome.next.inj h).symm
    unfold hostWaitIrq
    split
    · exact ⟨.inl rfl, rfl⟩
    · exact ⟨.inr ⟨_, rfl, rfl⟩, rfl⟩
  | handOn d =>
    obtain rfl := (Host.Outcome.next.inj h).symm
    rcases hostHandOn_cases d s with he | ⟨v, reads, -, ⟨-, he⟩ | ⟨-, -, he⟩⟩ <;> rw [he]
    · exact ⟨.inl rfl, rfl⟩
    · exact ⟨.inr ⟨_, rfl, rfl⟩, rfl⟩
    · exact ⟨.inl rfl, rfl⟩
  | gather a n got =>
    rcases hostGather_next h with ⟨-, rfl⟩ | ⟨m, u, -, hu, rfl⟩
    · exact ⟨.inl rfl, rfl⟩
    · obtain ⟨-, -, rfl⟩ := hostMemRead_next hu
      exact ⟨.inr ⟨_, rfl, rfl⟩, rfl⟩

/-! ### Completion and reset -/

/-- What a job leaves in memory is canonical. -/
theorem jobMemory_wf {op : JobOp} {s : State} (hm : Memory.wf s.mem = true) :
    Memory.wf (jobMemory op s) = true := by
  cases op with
  | convert =>
    exact forUp_wf hm fun t m h => forUp_wf h fun r m h => memWrite_wf (memWrite_wf h _ _) _ _
  | reorder =>
    exact forUp_wf hm fun t m h => forUp_wf h fun r m h => forUp_wf h fun c m h => memWrite_wf h _ _
  | pack =>
    exact forUp_wf hm fun t m h => forUp_wf h fun i m h => memWrite_wf h _ _

theorem drawRegion_wf {r : Region} {s : State} (hm : Memory.wf s.mem = true) :
    Memory.wf (drawRegion r s).mem = true := forUp_wf hm fun _ _ h => memWrite_wf h _ _

/-- Every byte after a region was drawn. -/
theorem memRead_drawRegion {r : Region} {s : State} (hm : Memory.wf s.mem = true) (a : Nat) :
    memRead (drawRegion r s).mem a =
      if r.holds a then Config.freeByte (s.draws + (a - r.base)) else memRead s.mem a := by
  simp only [drawRegion_mem]
  rw [memRead_forUp_write hm r.base r.len (fun i => Config.freeByte (s.draws + i)) a]
  simp [Region.holds]

/-- Completion when the host kept its duties. -/
theorem completeJob_dutiful {op : JobOp} {s : State} (h : s.raced = false) :
    completeJob op s = finishJob (outputLength op s) { s with mem := jobMemory op s } := by
  simp [completeJob, h]

/-- Completion when it did not. -/
theorem completeJob_raced {op : JobOp} {s : State} (h : s.raced = true) :
    completeJob op s = finishJob (outputLength op s) (drawRegion (dstRegion op s) s) := by
  simp [completeJob, h]

theorem completeJob_wf {op : JobOp} {s : State} (hm : Memory.wf s.mem = true) :
    Memory.wf (completeJob op s).mem = true := by
  cases hr : s.raced with
  | true => rw [completeJob_raced hr]; exact drawRegion_wf hm
  | false => rw [completeJob_dutiful hr]; exact jobMemory_wf hm

/-- Reset with no job. -/
theorem resetBlock_idle {s : State} (h : s.job = none) : resetBlock s = resetRegisters s := by
  simp [resetBlock, h]

/-- Reset during a job. -/
theorem resetBlock_busy {s : State} {op : JobOp} (h : s.job = some op) :
    resetBlock s = resetRegisters (drawRegion (dstRegion op s) s) := by
  simp [resetBlock, h]

theorem resetBlock_wf {s : State} (hm : Memory.wf s.mem = true) : Memory.wf (resetBlock s).mem = true := by
  cases hj : s.job with
  | none => rw [resetBlock_idle hj]; exact hm
  | some op => rw [resetBlock_busy hj]; exact drawRegion_wf hm

end Sys2Proof.Machine
end

