-- ==== Sys2Proof/Tests/Slice0.lean ====
section
/-! SUPPORT. Tests from the spec's own vectors (95_test_vectors.md and the rules' tables), and a witness for the hypotheses of every obligation. -/

namespace Sys2Proof.Tests

open Sys2Proof Sys2Proof.Machine

/-! ### Well-formedness and decoding -/

theorem test_wf_refuses_command_as_illegal : (Instr.illegal 4 0).wellFormed = false := by decide

theorem test_wf_refuses_nop_as_illegal : (Instr.illegal 0 0).wellFormed = false := by decide

theorem test_wf_accepts_reserved : (Instr.illegal 5 0).wellFormed = true ∧ (Instr.illegal 0 1).wellFormed = true := by
  decide

/-- The bit strings of the opcode table, most significant bit first (30_encoding.md R70, R71). -/
theorem test_decode_table_words :
    decode 0b00000000000000000000000000000000#32 = .nop ∧
      decode 0b00000000000000000000000000000001#32 = .convert ∧
      decode 0b00000000000000000000000000000010#32 = .reorder ∧
      decode 0b00000000000000000000000000000011#32 = .pack ∧
      decode 0b00000000000000000000000000000100#32 = .clear := by decide

/-- V-E20 to V-E23. -/
theorem test_decode_illegal_words :
    decode 0x00000007 = .illegal 7 0 ∧ decode 0x00000011 = .illegal 1 1 ∧
      decode 0x80000005 = .illegal 5 0x8000000 ∧ decode 0xFFFFFFF0 = .illegal 0 0xFFFFFFF := by decide

theorem test_decodeTableWord :
    decodeTableWord 32 3 = some .pack ∧ decodeTableWord 32 0x11 = some (.illegal 1 1) ∧
      decodeBytes [1, 0, 0, 0, 9] = .ok (.convert, [9]) ∧ decodeBytes [1, 0, 0] = .error .truncated := by decide

/-! ### The functions of the data path -/

/-- The table of 43_bitplane_pack.md R147 and V-P1a to V-P1d. -/
theorem test_packRow_table :
    ([[3, 3, 3, 3, 3, 3, 3, 3], [0, 0, 0, 0, 0, 0, 0, 0], [1, 1, 1, 1, 1, 1, 1, 1], [2, 2, 2, 2, 2, 2, 2, 2],
        [3, 0, 0, 0, 0, 0, 0, 0], [0, 0, 0, 0, 0, 0, 0, 1], [0, 1, 2, 3, 0, 1, 2, 3],
        [0xFC, 0xFD, 0xFE, 0xFF, 4, 5, 6, 7], [1, 0, 1, 0, 1, 0, 1, 0], [2, 2, 0, 0, 1, 1, 3, 3],
        [0x80, 0x41, 0x22, 0x13, 0, 0, 0, 0], [3, 3, 0, 0, 0, 0, 0, 0], [0, 0, 0, 0, 0, 0, 2, 2]].map packRow) =
      [(0xFF, 0xFF), (0, 0), (0xFF, 0), (0, 0xFF), (0x80, 0x80), (1, 0), (0x55, 0x33), (0x55, 0x33), (0xAA, 0),
        (0x0F, 0xC3), (0x50, 0x30), (0xC0, 0xC0), (0, 3)] := by decide

/-- V-P3 and V-P5: the diagonal, and (r + c) & 3. -/
theorem test_packTile_vectors :
    packTile ((List.range 64).map fun i => if i / 8 = i % 8 then 3 else 0) =
        [0x80, 0x40, 0x20, 0x10, 8, 4, 2, 1, 0x80, 0x40, 0x20, 0x10, 8, 4, 2, 1] ∧
      packTile ((List.range 64).map fun i => BitVec.ofNat 8 ((i / 8 + i % 8) % 4)) =
        [0x55, 0xAA, 0x55, 0xAA, 0x55, 0xAA, 0x55, 0xAA, 0x33, 0x66, 0xCC, 0x99, 0x33, 0x66, 0xCC, 0x99] := by
  decide +kernel

/-- The table of 42_tile_reorder.md R126 and V-R2a to V-R2e. -/
theorem test_srcOff_table :
    srcOff false 128 8 0 0 0 = 0 ∧ srcOff false 128 8 1 0 0 = 8 ∧ srcOff false 128 8 15 7 7 = 1023 ∧
      srcOff false 128 16 16 0 0 = 1024 ∧ srcOff true 128 16 0 0 0 = 1920 ∧ srcOff true 128 16 15 7 7 = 1151 ∧
      srcOff true 128 16 16 7 7 = 7 ∧ srcOff false 16 16 3 2 5 = 173 ∧ srcOff true 16 16 3 2 5 = 93 ∧
      srcOff false 128 240 479 7 7 = 30719 ∧ srcOff true 128 240 0 0 0 = 30592 ∧
      srcOff true 128 240 479 7 7 = 127 ∧ srcOff true 8 8 0 0 0 = 56 ∧ srcOff true 8 16 1 0 0 = 56 ∧
      srcOff true 8 16 0 7 7 = 71 ∧ srcOff false 24 8 2 3 4 = 92 ∧ srcOff true 24 8 2 3 4 = 116 := by decide

/-! ### States to test on -/

/-- Whether a step answers a next state with property `p`. -/
def answers (r : Result) (p : State → Bool) : Bool :=
  match r with
  | .next t => p t
  | .fault _ => false
  | .refused _ => false

/-- An idle block with its operands set (the start of 95_test_vectors.md 2.4). -/
def withOperands (w len src dst : Word) : State :=
  { State.reset with rowWidth := w, srcLen := len, srcBase := src, dstBase := dst }

/-- An idle block ready for one tile of any job. -/
def idle : State := withOperands 8 64 0x100 0x200

/-- The same block with a one-tile job running. -/
def running (op : JobOp) (drop raced : Bool) : State :=
  { idle with
    status := { Status.zero with busy := true, drop := drop }
    job := some op
    tileCount := 1
    raced := raced
    mem := [(0x100, 3), (0x13F, 2)] }

/-- An idle block with an error recorded. -/
def failed : State :=
  { idle with status := { Status.zero with err := true, errCode := 3, errDetail := 1 } }

/-- An idle block with memory that has side effects under its source. -/
def onDevice : State := { idle with devices := [{ base := 0x13F, len := 1 }] }

theorem idle_inv (ops : List HostOp) : ({ idle with hostOps := ops } : State).Inv :=
  { memWf := rfl
    memSpace := rfl
    busyJob := rfl
    exclusive := by simp [Status.exclusive, idle, withOperands, State.reset, Status.zero]
    record := by simp [Status.recordLegal, idle, withOperands, State.reset, Status.zero]
    dropJob := by simp [idle, withOperands, State.reset, Status.zero]
    errCounts := by simp [idle, withOperands, State.reset, Status.zero]
    jobOk := by simp [idle, withOperands, State.reset]
    racedJob := by simp [idle, withOperands, State.reset] }

theorem running_inv (op : JobOp) (drop raced : Bool) (ops : List HostOp) (d : Nat) :
    ({ running op drop raced with hostOps := ops, delay := d } : State).Inv :=
  { memWf := by rfl
    memSpace := by rfl
    busyJob := rfl
    exclusive := by simp [Status.exclusive, running, Status.zero]
    record := by simp [Status.recordLegal, running, Status.zero]
    dropJob := by simp [running]
    errCounts := by simp [running, Status.zero]
    jobOk := by
      intro op' h
      have e : op = op' := by simpa [running] using h
      subst e
      have hc : check op idle = .ok 1 ∧ tilesOf op idle = 1 := by cases op <;> decide
      have ht := (tilesOf_congr op (s := idle)
        (s' := { running op drop raced with hostOps := ops, delay := d }) rfl rfl).trans hc.2
      refine ⟨(check_congr op (s := idle) rfl rfl rfl rfl).trans ?_, ?_, rfl⟩ <;> rw [ht]
      · exact hc.1
      · rfl
    racedJob := by simp [running] }

theorem failed_inv (ops : List HostOp) : ({ failed with hostOps := ops } : State).Inv :=
  { memWf := rfl
    memSpace := rfl
    busyJob := rfl
    exclusive := by simp [Status.exclusive, failed, Status.zero]
    record := ⟨.shortRow, by decide, rfl, rfl⟩
    dropJob := by simp [failed, Status.zero]
    errCounts := fun _ => ⟨rfl, rfl⟩
    jobOk := by simp [failed, idle, withOperands, State.reset]
    racedJob := by simp [failed, idle, withOperands, State.reset] }

/-- An idle block whose last job completed after a dropped word, about to be given CLEAR. -/
def dropped : State :=
  { idle with status := { Status.zero with done := true, drop := true }, hostOps := [.regWrite 0x08 4 4] }

theorem dropped_inv : dropped.Inv :=
  { memWf := rfl
    memSpace := rfl
    busyJob := rfl
    exclusive := by simp [Status.exclusive, dropped, Status.zero]
    record := by simp [Status.recordLegal, dropped, Status.zero]
    dropJob := by simp [dropped]
    errCounts := by simp [dropped, Status.zero]
    jobOk := by simp [dropped, idle, withOperands, State.reset]
    racedJob := by simp [dropped, idle, withOperands, State.reset] }

/-! ### Commands and errors -/

/-- V-E26 and V-K12: NOP leaves STATUS. -/
theorem test_nop : answers (exec .nop failed) (fun t => t.status.word == 0x1304) = true := by decide

/-- V-E24: CLEAR after an error. -/
theorem test_clear : answers (exec .clear failed) (fun t => t.status.word == 0 && t.rowWidth == 8) = true := by decide

/-- V-C3: 128 by 8 is 16 tiles. -/
theorem test_convert_starts :
    answers (exec .convert (withOperands 128 1024 0x1000 0x8000))
      (fun t => t.status.word == 1 && t.tileCount == 16 && t.outLen == 0) = true := by decide

/-- V-E3: the length check comes before the width check; V-E13: overlap. -/
theorem test_convert_errors :
    answers (exec .convert (withOperands 12 100 0x1000 0x8000)) (fun t => t.status.word == 0x1304) = true ∧
      answers (exec .convert (withOperands 128 1024 0x1000 0x1100)) (fun t => t.status.word == 0x1504) = true := by
  decide

/-- V-R5: adjacent regions are legal, one byte less is OVERLAP. -/
theorem test_reorder_regions :
    answers (exec .reorder (withOperands 16 128 0x1000 0x1080)) (fun t => t.status.word == 1) = true ∧
      answers (exec .reorder (withOperands 16 128 0x1000 0x107F)) (fun t => t.status.word == 0x1504) = true ∧
      answers (exec .reorder (withOperands 16 128 0x1000 0x0F81)) (fun t => t.status.word == 0x1504) = true := by
  decide

/-- V-E7, V-E8 and V-P12: PACK does not read ROW_WIDTH. -/
theorem test_pack_starts_and_errors :
    answers (exec .pack (withOperands 0 100 0x1000 0x20000)) (fun t => t.status.word == 0x4204) = true ∧
      answers (exec .pack (withOperands 0 64 0x1000 0x20000)) (fun t => t.tileCount == 1) = true ∧
      answers (exec .pack (withOperands 0 0x10000 0x1000 0x20000)) (fun t => t.tileCount == 1024) = true := by
  decide

/-- V-E20, V-E22, V-E23. -/
theorem test_illegal :
    answers (exec (decode 0x80000005) idle) (fun t => t.status.word == 0x1104) = true ∧
      answers (exec (decode 0xFFFFFFF0) idle) (fun t => t.status.word == 0x2104) = true := by decide

/-- V-E9 to V-E12: the top of memory. -/
theorem test_range_checks :
    answers (exec .convert (withOperands 128 0x400 0xFFFFFF00 0x8000)) (fun t => t.status.word == 0x1404) = true ∧
      answers (exec .convert (withOperands 8 64 0xFFFFFFC0 0x8000)) (fun t => t.status.word == 1) = true ∧
      answers (exec .convert (withOperands 8 64 0x1000 0xFFFFFFF8)) (fun t => t.status.word == 0x2404) = true ∧
      answers (exec .convert (withOperands 8 64 0x1000 0xFFFFFFF0)) (fun t => t.status.word == 1) = true := by
  decide

/-- V-K14: a command while busy. -/
theorem test_busy_drop :
    answers (exec .clear (running .pack false false)) (fun t => t.status.word == 9) = true := by decide

/-- Pixels (0, 0) = 3 and (7, 7) = 2 of one 8 by 8 tile: by 43_bitplane_pack.md R141 the low plane holds 0x80 in row
0 alone, the high plane 0x80 in row 0 and 0x01 in row 7; bottom-up the rows change places. -/
theorem test_convert_completes :
    answers (step (running .convert false false))
        (fun t => memBytes t.mem 0x200 16 == [0x80, 0, 0, 0, 0, 0, 0, 0, 0x80, 0, 0, 0, 0, 0, 0, 1] &&
          t.status.word == 2 && t.outLen == 16) = true ∧
      answers (step { running .convert true false with ctrl := { rowOrder := true, ie := true } })
        (fun t => memBytes t.mem 0x200 16 == [0, 0, 0, 0, 0, 0, 0, 0x80, 1, 0, 0, 0, 0, 0, 0, 0x80] &&
          t.status.word == 0xA && t.irq) = true := by
  decide +kernel

/-- V-R4: REORDER copies whole bytes. -/
theorem test_reorder_completes :
    answers (step { running .reorder false false with mem := [(0x107, 0xFC)] })
      (fun t => memRead t.mem 0x207 == 0xFC && memRead t.mem 0x107 == 0xFC && t.outLen == 64) = true := by
  decide +kernel

/-- V-P6 in one pixel: PACK of a tile whose pixel (0, 0) is 3 and (7, 7) is 2. -/
theorem test_pack_completes :
    answers (step (running .pack false false))
      (fun t => memBytes t.mem 0x200 16 == [0x80, 0, 0, 0, 0, 0, 0, 0, 0x80, 0, 0, 0, 0, 0, 0, 1]) = true := by
  decide +kernel

/-- Each command is the first thing run after reset. -/
theorem test_withFetchWord_runs :
    answers (step (State.reset.withFetchWord 32 0)) (fun t => t.status.word == 0) = true ∧
      answers (step (State.reset.withFetchWord 32 1)) (fun t => t.status.word == 1 && t.job == some .convert) = true ∧
      answers (step (State.reset.withFetchWord 32 2)) (fun t => t.job == some .reorder) = true ∧
      answers (step (State.reset.withFetchWord 32 3)) (fun t => t.job == some .pack) = true ∧
      answers (step (State.reset.withFetchWord 32 4)) (fun t => t.status.word == 0) = true ∧
      answers (step (State.reset.withFetchWord 32 0x11)) (fun t => t.status.word == 0x2104) = true := by decide

/-! ### Registers, interrupt, host -/

/-- V-K3, V-K4, V-K7, V-K9, V-K10. -/
theorem test_register_accesses :
    answers (hostStep (hostWr .ctrl 0xFFFFFFFF) idle) (fun t => readWindow 0x04 4 t == 3) = true ∧
      answers (hostStep (hostWr .id 0) idle) (fun t => readWindow 0x00 4 t == 0x42500001) = true ∧
      answers (hostStep (.regWrite 0x28 4 0x12345678) idle) (fun t => readWindow 0x28 4 t == 0) = true ∧
      answers (hostStep (.regWrite 0x04 2 3) idle) (fun t => readWindow 0x04 4 t == 0) = true ∧
      answers (hostStep (.regWrite 0x06 4 3) idle) (fun t => readWindow 0x04 4 t == 0) = true ∧
      readWindow 0x0E 4 failed = 0 := by decide

/-- The expansions of the pseudo-instructions, by offset and value (30_encoding.md R77). -/
theorem test_pseudo_expansions :
    pseudoNop ++ pseudoConvert ++ pseudoReorder ++ pseudoPack ++ pseudoClear =
        [.regWrite 0x08 4 0, .regWrite 0x08 4 1, .regWrite 0x08 4 2, .regWrite 0x08 4 3, .regWrite 0x08 4 4] ∧
      pseudoWait = [.poll 0x0C 1 0] ∧
      pseudoSetup 1 2 3 ++ pseudoWidth 4 = [.regWrite 0x10 4 1, .regWrite 0x14 4 2, .regWrite 0x18 4 3, .regWrite 0x1C 4 4] ∧
      pseudoOrder true true = [.regWrite 0x04 4 3] ∧ hostMemchk 5 2 = [.memRead 5, .memRead 6] := by decide

/-- V-K18 to V-K20. -/
theorem test_irq :
    ({ failed with ctrl := { rowOrder := false, ie := true } } : State).irq = true ∧ failed.irq = false ∧
      answers (hostStep (hostWr .ctrl 2) failed) (fun t => t.irq) = true := by decide

/-- The 54-byte header of program P6. -/
def header (height : Byte) : List Byte :=
  [0x42, 0x4D, 0, 0, 0, 0, 0, 0, 0, 0, 0x36, 0, 0, 0, 0, 0,
   0, 0, 0x80, 0, 0, 0, height, 0, 0, 0, 0, 0, 8, 0, 0, 0,
   0, 0, 0, 0, 0, 0, 0, 0, 0, 0, 0, 0, 0, 0, 0, 0, 0, 0, 0, 0, 0, 0]

/-- A bitmap of eight rows, every pixel 1. -/
def bitmap : List Byte := header 8 ++ List.replicate 1024 1

/-- V-H1, V-H3, V-H4, V-H6, V-H7, V-H9, V-S6a. -/
theorem test_header :
    examine bitmap = .ok { offset := 54, width := 128, height := 8, bpp := 8, compression := 0 } ∧
      examine ((header 8).take 33) = .error .truncatedHeader ∧
      examine ((header 8).take 34) = .error .malformedPixelData ∧
      examine [0x42, 0x4D] = .error .truncatedHeader ∧ examine [0] = .error .truncatedHeader ∧
      examine (header 12) = .error .unsupportedHeight ∧
      examine ([0, 0] ++ (header 8).drop 2) = .error .invalidFormat := by decide +kernel

/-- V-H8: height -8, four bytes F8 FF FF FF. -/
theorem test_header_negative_height :
    examine ((header 8).take 22 ++ [0xF8, 0xFF, 0xFF, 0xFF] ++ (header 8).drop 26) =
      .ok { offset := 54, width := 128, height := -8, bpp := 8, compression := 0 } := by decide +kernel

/-- 40_host_header.md R102: a STATUS read that showed DONE leads to the output bytes at D, one that showed ERR to the
failure, any other newest read to nothing. -/
theorem test_handOn :
    answers (step { idle with hostOps := [.handOn 0x300], hostReads := [.reg 0x0C 2], outLen := 16 })
        (fun t => t.hostOps == [.gather 0x300 16 []] && t.handedOn == []) = true ∧
      answers (step { idle with hostOps := [.handOn 0x300], hostReads := [.reg 0x0C 0x1304] })
        (fun t => t.handedOn == [.failure .malformedPixelData]) = true ∧
      answers (step { idle with hostOps := [.handOn 0x300], hostReads := [.reg 0x24 2] })
        (fun t => t.hostOps == [] && t.handedOn == []) = true := by decide

theorem test_gather :
    answers (step { idle with hostOps := [.gather 0x300 1 [7]], mem := [(0x300, 9)] })
        (fun t => t.hostOps == [.gather 0x301 0 [9, 7]] && t.hostReads == [.mem 0x300 9]) = true ∧
      answers (step { idle with hostOps := [.gather 0x301 0 [9, 7]] })
        (fun t => t.hostOps == [] && t.handedOn == [.output [7, 9]]) = true := by decide

/-! ### Witnesses: a state and operands that meet each statement's hypotheses -/

theorem idle_row_dims : RowDims idle := by unfold RowDims; decide

theorem idle_fits (len : Nat) (h : len ≤ 64) : RegionsFit idle len := by
  refine ⟨⟨by decide, ?_⟩, ?_, ?_⟩
  · show 0x200 + len ≤ 2 ^ 32
    omega
  · unfold SharesByte
    have h2 : ¬idle.dstBase.toNat < idle.srcBase.toNat + idle.srcLen.toNat := by decide
    exact fun hs => h2 hs.2.2.2
  · intro d hd
    cases hd

theorem witness_DecodeInvertsEncode :
    Instr.wellFormed (.illegal 5 0) = true ∧ Instr.wellFormed (.illegal 4 1) = true := by decide

theorem witness_DecodingOfEveryWord :
    5 ≤ (5#32).toNat % 16 ∧ ((0x14#32).toNat % 16 < 5 ∧ (0x14#32).toNat / 16 ≠ 0) ∧
      ((4#32).toNat % 16 < 5 ∧ (4#32).toNat / 16 = 0) ∧ idle.status.busy = false ∧
      (running .pack false false).status.busy = true := by decide

theorem witness_StepPresentsCommandWord :
    (idle.withFetchWord 32 1).completesNow = false ∧
      (idle.withFetchWord 32 1).hostOps = [.regWrite 0x08 4 1] ∧ idle.job = none ∧
      ((running .pack false false).withFetchWord 32 1).completesNow = false := by decide

theorem witness_NopChangesNothing :
    idle.status.busy = false ∧ (running .pack false false).status.busy = true := by decide

theorem witness_ClearClearsTheRecord :
    failed.status.busy = false ∧ (running .pack false false).status.busy = true := by decide

theorem witness_ConvertStarts :
    idle.status.busy = false ∧ RowDims idle ∧ RegionsFit idle (16 * rowTiles idle) :=
  ⟨rfl, idle_row_dims, idle_fits _ (by decide)⟩

theorem witness_ReorderStarts :
    idle.status.busy = false ∧ RowDims idle ∧ RegionsFit idle (64 * rowTiles idle) :=
  ⟨rfl, idle_row_dims, idle_fits _ (by decide)⟩

theorem witness_PackStarts :
    idle.status.busy = false ∧ idle.srcLen.toNat % 64 = 0 ∧ RegionsFit idle (16 * lengthTiles idle) :=
  ⟨rfl, by decide, idle_fits _ (by decide)⟩

theorem witness_IllegalWordEndsInError :
    idle.status.busy = false ∧ 5 ≤ (5#4).toNat ∧ (4#4).toNat < 5 := by decide

/-- A busy state, a completion with a dropped word, and both ways of clearing DROP: a CLEAR after the job, and reset. -/
theorem witness_BusyWordIsDropped :
    (running .pack true false).status.busy = true ∧ (running .pack true false).Inv ∧
      (running .pack true false).job = some .pack ∧ (running .pack true false).status.drop = true ∧
      (running .pack true false).delay = 0 ∧
      (dropped.Inv ∧ dropped.status.drop = true ∧ ∃ t, step dropped = .next t ∧ t.status.drop = false) ∧
      ({ running .pack true false with hostOps := [.reset], delay := 5 } : State).Inv ∧
      ∃ t, step { running .pack true false with hostOps := [.reset], delay := 5 } = .next t ∧
        t.status.drop = false :=
  ⟨rfl, running_inv .pack true false [] 0, rfl, rfl, rfl, ⟨dropped_inv, rfl, _, rfl, rfl⟩,
    running_inv _ _ _ _ _, _, rfl, rfl⟩

/-- V-E1, V-E3, V-E2, V-E5: one state for each clause. -/
theorem witness_RowJobsReportFirstFailingDimension :
    (withOperands 0 0 0x1000 0x8000).rowWidth.toNat = 0 ∧
      (0 < (withOperands 12 100 0x1000 0x8000).rowWidth.toNat ∧ 100 % 12 ≠ 0) ∧
      (0 < (withOperands 12 96 0x1000 0x8000).rowWidth.toNat ∧ 96 % 12 = 0 ∧ 12 % 8 ≠ 0) ∧
      (0 < (withOperands 128 512 0x1000 0x8000).rowWidth.toNat ∧ 512 % 128 = 0 ∧ 128 % 8 = 0 ∧ 512 / 128 % 8 ≠ 0) ∧
      (withOperands 0 0 0x1000 0x8000).status.busy = false := by decide

theorem witness_PackReportsPartialTile :
    (withOperands 8 100 0x1000 0x8000).status.busy = false ∧
      (withOperands 8 100 0x1000 0x8000).srcLen.toNat % 64 ≠ 0 := by decide

/-- One byte past the top for each range, and one shared byte, for PACK of one tile. -/
theorem witness_RegionErrorsInOrder :
    (2 ^ 32 < (withOperands 8 64 0xFFFFFFC1 0x8000).srcBase.toNat + 64 ∧
        (withOperands 8 64 0xFFFFFFC1 0x8000).srcLen.toNat % 64 = 0) ∧
      ((withOperands 8 64 0xFFFFFFC0 0x8000).srcBase.toNat + 64 ≤ 2 ^ 32 ∧
        2 ^ 32 < (withOperands 8 64 0x1000 0xFFFFFFF1).dstBase.toNat + 16) ∧
      InRange (withOperands 8 64 0x1000 0x103F) 16 ∧ SharesByte (withOperands 8 64 0x1000 0x103F) 16 := by
  unfold InRange SharesByte
  decide

theorem witness_ErrorsArePrecise :
    idle.Inv ∧ idle.status.busy = false ∧ Instr.illegal 5 0 ≠ .nop ∧
      ∃ t, exec (.illegal 5 0) idle = .next t ∧ t.status.err = true :=
  ⟨idle_inv [], rfl, by decide, _, execIllegal_idle (rsvd := 0) rfl, rfl⟩

theorem witness_ErrorRecordStaysUntilCommandOrReset :
    ({ failed with hostOps := [hostWr .cmd 4] } : State).Inv ∧ failed.status.err = true ∧
      ∃ t, step { failed with hostOps := [hostWr .cmd 4] } = .next t ∧ t.status ≠ failed.status :=
  ⟨failed_inv _, rfl, _, rfl, by decide⟩

theorem witness_JobCompletesAfterItsLatency :
    ({ running .pack false false with hostOps := [], delay := 1 } : State).Inv ∧
      (running .pack false false).job = some .pack ∧
      HostOp.reset ∉ ({ running .pack false false with hostOps := [], delay := 1 } : State).hostOps ∧
      ∃ t, Host.Core.run Sys2Proof.core 2 { running .pack false false with hostOps := [], delay := 1 } = .next t :=
  ⟨running_inv _ _ _ _ _, rfl, by decide, _, rfl⟩

theorem witness_ConvertWritesPackedTiles :
    (running .convert false false).Inv ∧ (running .convert false false).job = some .convert ∧
      (running .convert false false).delay = 0 ∧ (running .convert false false).raced = false :=
  ⟨running_inv _ _ _ [] 0, rfl, rfl, rfl⟩

theorem witness_ReorderWritesTiles :
    (running .reorder false false).Inv ∧ (running .reorder false false).job = some .reorder ∧
      (running .reorder false false).delay = 0 ∧ (running .reorder false false).raced = false :=
  ⟨running_inv _ _ _ [] 0, rfl, rfl, rfl⟩

theorem witness_PackWritesPackedTiles :
    (running .pack false false).Inv ∧ (running .pack false false).job = some .pack ∧
      (running .pack false false).delay = 0 ∧ (running .pack false false).raced = false :=
  ⟨running_inv _ _ _ [] 0, rfl, rfl, rfl⟩

theorem witness_CommandedJobDelivers (op : JobOp) :
    ({ idle with hostOps := [.regWrite 0x08 4 (encode (commandOf op))] } : State).Inv ∧
      idle.status.busy = false ∧
      JobReady op { idle with hostOps := [.regWrite 0x08 4 (encode (commandOf op))] } := by
  refine ⟨idle_inv _, rfl, ?_⟩
  cases op
  · exact ⟨idle_row_dims, idle_fits 16 (by decide)⟩
  · exact ⟨idle_row_dims, idle_fits 64 (by decide)⟩
  · exact ⟨by decide, idle_fits 16 (by decide)⟩

/-- An idle block whose host is about to run one job on the operands of `idle` (its width and a zero width). -/
theorem witness_HostJobSequenceRunsToItsEnd :
    ({ idle with hostOps := jobProgram false true 0x100 64 0x200 8 (encode (commandOf .convert)) } : State).Inv ∧
      idle.job = none ∧
      JobReady .convert { idle with
        ctrl := { rowOrder := false, ie := true }, srcBase := 0x100, srcLen := 64, dstBase := 0x200, rowWidth := 8 } ∧
      check .convert { idle with
        ctrl := { rowOrder := false, ie := true }, srcBase := 0x100, srcLen := 64, dstBase := 0x200, rowWidth := 0 } =
        .error .zeroWidth :=
  ⟨idle_inv _, rfl, ⟨idle_row_dims, idle_fits 16 (by decide)⟩, rfl⟩

/-- The block packing what REORDER wrote at 0x200. -/
def repacking : State :=
  { running .pack false false with
    srcBase := 0x200
    dstBase := 0x300
    mem := (completeJob .reorder (running .reorder false false)).mem }

theorem repacking_inv : repacking.Inv :=
  { memWf := by decide +kernel
    memSpace := by decide +kernel
    busyJob := rfl
    exclusive := by simp [Status.exclusive, repacking, running, Status.zero]
    record := by simp [Status.recordLegal, repacking, running, Status.zero]
    dropJob := by simp [repacking, running]
    errCounts := by simp [repacking, running, Status.zero]
    jobOk := by
      intro op' h
      have e : JobOp.pack = op' := by simpa [repacking, running] using h
      subst e
      exact ⟨by decide +kernel, by decide +kernel, rfl⟩
    racedJob := by simp [repacking, running] }

theorem witness_ConvertIsPackAfterReorder :
    (running .reorder false false).Inv ∧ repacking.Inv ∧ (running .convert false false).Inv ∧
      step (running .reorder false false) = .next (completeJob .reorder (running .reorder false false)) ∧
      step repacking = .next (completeJob .pack repacking) ∧
      step (running .convert false false) = .next (completeJob .convert (running .convert false false)) ∧
      (running .convert false false).mem = (running .reorder false false).mem ∧
      repacking.srcBase = (running .reorder false false).dstBase ∧
      repacking.srcLen = (completeJob .reorder (running .reorder false false)).outLen ∧
      repacking.mem = (completeJob .reorder (running .reorder false false)).mem :=
  ⟨running_inv _ _ _ [] 0, repacking_inv, running_inv _ _ _ [] 0, step_completes rfl rfl, step_completes rfl rfl,
    step_completes rfl rfl, rfl, rfl, rfl, rfl⟩

/-- The same job, with and without a dropped word. -/
theorem witness_OutputDependsOnSourceAndOperands :
    (running .convert false false).Inv ∧ (running .convert true false).Inv ∧
      (∃ t, step (running .convert false false) = .next t) ∧ (∃ t, step (running .convert true false) = .next t) ∧
      (running .convert true false).status ≠ (running .convert false false).status ∧
      (running .convert true false).mem = (running .convert false false).mem ∧
      (running .convert true false).srcLen = (running .convert false false).srcLen :=
  ⟨running_inv _ _ _ [] 0, running_inv _ _ _ [] 0, ⟨_, step_completes rfl rfl⟩, ⟨_, step_completes rfl rfl⟩,
    by decide, rfl, rfl⟩

theorem witness_FirstBitIsTopLeftPixel :
    (running .convert false false).Inv ∧ (running .convert false false).job = some .convert ∧
      (running .convert false false).delay = 0 ∧ (running .convert false false).raced = false ∧
      0 < (running .convert false false).srcLen.toNat ∧ ∃ t, step (running .convert false false) = .next t :=
  ⟨running_inv _ _ _ [] 0, rfl, rfl, rfl, by decide, _, step_completes rfl rfl⟩

/-- Boundary bytes of the source and of the destination, and a marked job. -/
theorem witness_BrokenHostDutyLeavesFreeBytes :
    (running .pack false false).job = some .pack ∧
      (running .pack false false).srcRegion.holds 0x13F = true ∧
      (dstRegion .pack (running .pack false false)).holds 0x20F = true ∧
      (dstRegion .pack (running .pack false false)).holds 0x210 = false ∧
      (running .pack false false).sideEffectAt 0x13F = false ∧
      (running .pack false false).sideEffectAt 0x20F = false ∧
      (running .pack false true).raced = true ∧ (running .pack false true).delay = 0 ∧
      (running .pack false true).Inv ∧
      ({ running .pack false true with hostOps := [], delay := 5 } : State).Inv ∧
      ∃ t, step { running .pack false true with hostOps := [], delay := 5 } = .next t ∧ t.raced = true :=
  ⟨rfl, by decide, by decide, by decide, by decide, by decide, rfl, rfl, running_inv _ _ _ [] 0,
    running_inv _ _ _ _ _, _, rfl, rfl⟩

/-- A running job, and a host write next to its regions. -/
theorem witness_DutifulHostNeverRaces :
    (running .pack false false).raced = false ∧ HostOp.dutiful (.memWrite 0x140 7) (running .pack false false) = true ∧
      HostOp.dutiful (.memWrite 0x13F 7) (running .pack false false) = false ∧
      ∃ t, step { running .pack false false with hostOps := [.memWrite 0x140 7], delay := 5 } = .next t :=
  ⟨rfl, by decide, by decide, _, rfl⟩

theorem witness_ResetAtAnyStep :
    idle.Inv ∧ idle.job = none ∧ (running .convert false false).Inv ∧
      (running .convert false false).job = some .convert ∧
      (running .convert false false).srcRegion.holds 0x100 = true :=
  ⟨idle_inv [], rfl, running_inv _ _ _ [] 0, rfl, by decide⟩

theorem witness_RowMapIsInvolution : 15 < 16 ∧ 0 < 16 := by decide

theorem witness_TileMapIsBijection :
    0 < 16 ∧ 16 % 8 = 0 ∧ 8 % 8 = 0 ∧ 1 < 8 / 8 * (16 / 8) ∧ 7 < 8 ∧ 127 < 8 * 16 := by decide

theorem witness_TileBytesAreNormalizedPixels : 0 < 8 ∧ 7 < 8 := by decide

theorem witness_PackRowBits : ([3, 0, 1, 2, 0xFF, 0, 1, 2] : List Byte).length = 8 ∧ 0 < 8 ∧ 7 < 8 := by decide

theorem witness_PackingDecodes :
    ((List.range 64).map fun i => BitVec.ofNat 8 (i % 4)).length = 64 ∧
      (∀ b ∈ (List.range 64).map fun i => BitVec.ofNat 8 (i % 4), b.toNat ≤ 3) ∧
      (List.replicate 16 (0xA5 : Byte)).length = 16 ∧ 7 < 8 := by decide +kernel

theorem witness_RegisterReadHasNoSideEffect :
    ({ idle with hostOps := [hostRd .id] } : State).completesNow = false ∧
      ({ idle with hostOps := [hostRd .id] } : State).hostOps = [.regRead 0x00 4] := by decide

theorem witness_StatusWordLayout :
    State.Inv { failed with hostOps := [] } ∧ State.Inv { running .pack true false with hostOps := [], delay := 0 } :=
  ⟨failed_inv [], running_inv _ _ _ _ _⟩

theorem witness_OperandWritesTakeEffect : idle.status.busy = false := rfl

theorem witness_OperandWritesIgnoredWhileBusy :
    (running .pack false false).status.busy = true ∧ (0x04 : BitVec 6) ≠ 0x08 ∧ (0x0C : BitVec 6) ≠ 0x08 := by
  decide

theorem witness_ReadOnlyWritesIgnored :
    (0x3C : BitVec 6) ∈ ([0x00, 0x0C, 0x20, 0x24, 0x28, 0x2C, 0x30, 0x34, 0x38, 0x3C] : List (BitVec 6)) ∧
      0x28 ≤ (0x28 : BitVec 6).toNat := by decide

theorem witness_UnsupportedAccessesAndLanes :
    (2 ≠ 4 ∨ (0x04#6).toNat % 4 ≠ 0) ∧ (4 ≠ 4 ∨ (0x06#6).toNat % 4 ≠ 0) ∧ 3 < 4 := by decide

/-- One state for each clause that has hypotheses. -/
theorem witness_InterruptLevel :
    (∃ t, step { running .pack false false with ctrl := { rowOrder := false, ie := true } } = .next t) ∧
      (∃ t, exec (.illegal 5 0) { idle with ctrl := { rowOrder := false, ie := true } } = .next t ∧
        t.status.err = true) ∧
      (∃ t, hostStep (.regWrite 0x04 4 2) failed = .next t) ∧ (∃ t, exec .clear failed = .next t) ∧
      (∃ t, exec (commandOf .pack) failed = .next t ∧ t.status.err = false) ∧
      ∃ t, hostStep .reset failed = .next t :=
  ⟨⟨_, step_completes rfl rfl⟩, ⟨_, execIllegal_idle (rsvd := 0) rfl, rfl⟩, ⟨_, rfl⟩, ⟨_, rfl⟩, ⟨_, rfl, rfl⟩, ⟨_, rfl⟩⟩

theorem witness_ReadsWhileBusy :
    (running .convert true false).Inv ∧ (running .convert true false).job = some .convert :=
  ⟨running_inv _ _ _ [] 0, rfl⟩

/-- A state whose line is 1, and one whose line is 0. -/
theorem witness_PollRepeatsUntilValue :
    (true && (failed.status.done || failed.status.err)) = true ∧
      ({ failed with ctrl := { rowOrder := false, ie := true } } : State).ctrl.ie = true ∧
      (failed.ctrl.ie && (failed.status.done || failed.status.err)) = false := by decide

theorem witness_StepKeepsInvariant :
    (running .convert false false).Inv ∧ ∃ t, step (running .convert false false) = .next t :=
  ⟨running_inv _ _ _ [] 0, _, step_completes rfl rfl⟩

theorem witness_OnlyDestinationAndHostWritesChangeMemory :
    (running .pack false false).Inv ∧
      (∃ t, step (running .pack false false) = .next t ∧
        memRead t.mem 0x200 ≠ memRead (running .pack false false).mem 0x200) ∧
      ({ idle with hostOps := [.memWrite 0 7] } : State).Inv ∧
      ∃ t, step { idle with hostOps := [.memWrite 0 7] } = .next t ∧ memRead t.mem 0 ≠ memRead idle.mem 0 :=
  ⟨running_inv _ _ _ [] 0, ⟨_, step_completes rfl rfl, by decide +kernel⟩, idle_inv _, ⟨_, rfl, by decide⟩⟩

theorem witness_OnlyCompletionRaisesDone :
    (running .pack false false).Inv ∧ (running .pack false false).status.done = false ∧
      (∃ t, step (running .pack false false) = .next t ∧ t.status.done = true) ∧
      ({ idle with hostOps := [hostWr .cmd 3] } : State).Inv ∧
      ∃ t, step { idle with hostOps := [hostWr .cmd 3] } = .next t ∧ t.status.busy = true :=
  ⟨running_inv _ _ _ [] 0, rfl, ⟨_, step_completes rfl rfl, rfl⟩, idle_inv _, ⟨_, rfl, rfl⟩⟩

theorem witness_RunningJobKeepsOperands :
    ({ running .pack false false with hostOps := [hostWr .srcLen 0], delay := 5 } : State).Inv ∧
      (running .pack false false).status.busy = true ∧
      (∃ t, step { running .pack false false with hostOps := [hostWr .srcLen 0], delay := 5 } = .next t) ∧
      ∀ rest, [hostWr .srcLen 0] ≠ HostOp.reset :: rest :=
  ⟨running_inv _ _ _ _ _, rfl, ⟨_, rfl⟩, by intro rest h; cases h⟩

theorem witness_SideEffectMemoryIsRefused :
    onDevice.status.busy = false ∧ check .pack onDevice = .ok 1 ∧
      ¬OrdinaryMemory onDevice (jobBytes .pack * jobTiles .pack onDevice) ∧
      (({ base := 0x13F, len := 1 } : Region) ∈ onDevice.devices ∧
        ({ base := 0x13F, len := 1 } : Region).holds 0x13F = true) ∧ idle.devices = [] ∧
      exec .pack onDevice = .refused .sideEffectRegion := by
  refine ⟨rfl, rfl, ?_, by decide, rfl, rfl⟩
  intro h
  have := (h { base := 0x13F, len := 1 } (by decide)).1
  exact absurd this (by decide)

/-- The last address with no job; with one running, its last source byte for a read and the byte above for a write. -/
theorem witness_HostMemoryAccesses :
    idle.Inv ∧ idle.jobReads 0xFFFFFFFF = false ∧ idle.jobWrites 0xFFFFFFFF = false ∧
      idle.sideEffectAt 0xFFFFFFFF = false ∧ 0xFFFFFFFF < 2 ^ 32 ∧
      (running .pack false false).Inv ∧ (running .pack false false).jobReads 0x140 = false ∧
      (running .pack false false).jobWrites 0x140 = false ∧ (running .pack false false).jobReads 0x13F = true ∧
      (running .pack false false).jobWrites 0x13F = false ∧ (running .pack false false).sideEffectAt 0x140 = false ∧
      2 ^ 32 ≤ 4294967296 :=
  ⟨idle_inv [], by decide, by decide, by decide, by decide, running_inv _ _ _ [] 0, by decide, by decide, by decide,
    by decide, by decide, by decide⟩

theorem witness_EndedRunStays : failed.ended = true := rfl

/-- One byte sequence for each clause, at the lengths where they meet. -/
theorem witness_HeaderParserChecksInOrder :
    ([0x42] : List Byte).length < 2 ∧
      (2 ≤ ([0, 0x4D] : List Byte).length ∧ ([0, 0x4D] : List Byte).getD 0 0 ≠ 0x42) ∧
      (((header 8).take 33).length = 33 ∧ ((header 8).take 33).getD 0 0 = 0x42 ∧ ((header 8).take 33).getD 1 0 = 0x4D) ∧
      (((header 8).take 34).length = 34 ∧ ((header 8).take 34).getD 0 0 = 0x42 ∧
        ((header 8).take 34).getD 1 0 = 0x4D) := by decide

/-- Metadata for each clause. -/
theorem witness_HeaderValidationInOrder :
    (64 : Int) ≠ 128 ∧ ((128 : Int) = 128 ∧ (12 : Int) % 8 ≠ 0) ∧ ((-8 : Int) % 8 = 0 ∧ 8 < 16) ∧
      ((0 : Int) % 8 = 0 ∧ 8 ≤ 8 ∧ 1 ≠ 0) := by decide

/-- An idle block that still shows DONE of an earlier job, whose host has read that DONE. -/
def stale : State := { dropped with hostOps := [], hostReads := [.reg 0x0C 0x0A] }

theorem stale_inv : stale.Inv :=
  { dropped_inv with
    busyJob := rfl
    jobOk := by simp [stale, dropped, idle, withOperands, State.reset] }

/-- A header with one byte of pixel data: it passes the host's examination, and the block reports a short row. -/
def shortBitmap : List Byte := header 8 ++ [1]

theorem shortBitmap_examined :
    examine shortBitmap = .ok { offset := 54, width := 128, height := 8, bpp := 8, compression := 0 } := by decide +kernel

/-- The stale DONE is not taken for this job's: 55 byte writes, the program and the look hand on the block's (3, 1). -/
theorem witness_OutputDeliveredOnlyWhenDone :
    stale.Inv ∧ stale.job = none ∧ stale.hostOps = [] ∧ stale.status.done = true ∧
      .reg 0x0C stale.status.word ∈ stale.hostReads ∧
      parseHeader shortBitmap = .ok { offset := 54, width := 128, height := 8, bpp := 8, compression := 0 } ∧
      ∃ s0, launchBitmap shortBitmap 0x10000 0x20000 false stale = .ok s0 ∧
        answers (Host.Core.run Sys2Proof.core 62 s0) (fun t => t.handedOn == stale.handedOn) = true ∧
        answers (Host.Core.run Sys2Proof.core 63 s0)
          (fun t => t.ended && t.handedOn == [.failure .malformedPixelData]) = true := by
  refine ⟨stale_inv, rfl, rfl, rfl, by decide, by decide +kernel, ?_⟩
  unfold launchBitmap
  rw [shortBitmap_examined]
  exact ⟨_, rfl, by decide +kernel, by decide +kernel⟩

/-- A bitmap for each clause: a bad parse, a bad height, an offset past the end, and a good one. -/
theorem witness_FailedBitmapProgramsNothing :
    parseHeader [0] = .error .truncatedHeader ∧
      (∃ m, parseHeader (header 12) = .ok m ∧ validateHeader m = .error .unsupportedHeight) ∧
      (∃ m, parseHeader ((header 8).take 53) = .ok m ∧ validateHeader m = .ok () ∧ 53 < m.offset) ∧
      ∃ m, parseHeader (header 8) = .ok m ∧ validateHeader m = .ok () ∧ m.offset ≤ 54 := by
  refine ⟨by decide, ⟨_, rfl, ?_⟩, ⟨_, rfl, ?_⟩, ⟨_, rfl, ?_⟩⟩ <;> decide +kernel

theorem witness_BitmapConversionDelivers :
    idle.Inv ∧ idle.job = none ∧ idle.devices = [] ∧ idle.hostOps = [] ∧
      examine bitmap = .ok { offset := 54, width := 128, height := 8, bpp := 8, compression := 0 } ∧
      (∃ s0, launchBitmap bitmap 0x10000 0x20000 false idle = .ok s0) ∧
      bitmap.length - 54 = 8 * 128 ∧ 0x10000 + bitmap.length ≤ 2 ^ 32 ∧
      0x10000 + bitmap.length ≤ 0x20000 := by
  refine ⟨idle_inv [], rfl, rfl, rfl, test_header.1, ?_, by decide +kernel, by decide +kernel, by decide +kernel⟩
  unfold launchBitmap
  rw [test_header.1]
  exact ⟨_, rfl⟩

end Sys2Proof.Tests
end

section
/-! How the words of the register window are laid out and written (10_state.md R26, R27, R32, R33). -/

namespace Sys2Proof.Machine

/-! ### The STATUS word -/

/-- The upper part of a concatenation counts in units of the lower part's range. -/
theorem toNat_append_add {n m : Nat} (x : BitVec n) (y : BitVec m) :
    (x ++ y).toNat = 2 ^ m * x.toNat + y.toNat := by
  rw [BitVec.toNat_append, ← Nat.shiftLeft_add_eq_or_of_lt y.isLt, Nat.shiftLeft_eq, Nat.mul_comm]

/-- Each field of STATUS at its weight (10_state.md R27). -/
theorem statusWord_toNat (st : Status) :
    st.word.toNat =
      st.busy.toNat + 2 * st.done.toNat + 4 * st.err.toNat + 8 * st.drop.toNat +
        2 ^ 8 * st.errCode.toNat + 2 ^ 12 * st.errDetail.toNat := by
  simp only [Status.word, flagBit, toNat_append_add, BitVec.toNat_ofBool, BitVec.ofNat_eq_ofNat,
    BitVec.toNat_ofNat, Nat.zero_mod]
  ring

/-- With ERR = 1 and the invariant, STATUS shows the error alone: no other flag is set (10_state.md R26). -/
theorem State.Inv.flags_of_err {s : State} (h : s.Inv) (he : s.status.err = true) :
    s.status.busy = false ∧ s.status.done = false ∧ s.status.drop = false := by
  obtain ⟨-, hbusy, hdone⟩ := h.exclusive
  have hb : s.status.busy = false := by simpa [he] using hbusy
  have hd : s.status.done = false := by simpa [he] using hdone
  have hdrop : s.status.drop ≠ true := fun hr => by simpa [hb, hd] using h.dropJob hr
  exact ⟨hb, hd, by simpa using hdrop⟩

theorem statusWord_toNat_of_err {s : State} (h : s.Inv) (he : s.status.err = true) :
    ∃ e ∈ allErrors, s.status.word.toNat = 4 + 2 ^ 8 * e.code.toNat + 2 ^ 12 * e.detail.toNat := by
  obtain ⟨hb, hd, hr⟩ := h.flags_of_err he
  have hrec := h.record
  rw [Status.recordLegal, if_pos he] at hrec
  obtain ⟨e, hmem, hcode, hdetail⟩ := hrec
  refine ⟨e, hmem, ?_⟩
  simp [statusWord_toNat, hb, hd, he, hr, hcode, hdetail]

/-- With ERR = 0 the record is empty, BUSY and DONE exclude each other, and DROP needs one of them (10_state.md R26). -/
theorem statusWord_mem_of_not_err {s : State} (h : s.Inv) (he : s.status.err = false) :
    s.status.word ∈ ([0x00000000, 0x00000001, 0x00000002, 0x00000009, 0x0000000A] : List Word) := by
  have hrec := h.record
  have hnot := h.exclusive.1
  have hdrop := h.dropJob
  generalize s.status = st at he hrec hnot hdrop ⊢
  obtain ⟨busy, done, err, drop, code, detail⟩ := st
  obtain rfl : err = false := he
  obtain ⟨rfl, rfl⟩ : code = 0 ∧ detail = 0 := hrec
  cases busy with
  | true =>
    obtain rfl : done = false := by simpa using hnot
    cases drop <;> decide
  | false =>
    cases done with
    | true => cases drop <;> decide
    | false =>
      obtain rfl : drop = false := by simpa using hdrop
      decide

/-- Settles O39: the layout field by field, and the invariant's two cases ERR = 1 and ERR = 0. -/
theorem statusWordLayout : Obligations.StatusWordLayout := by
  refine ⟨statusWord_toNat, fun s h => ?_⟩
  cases he : s.status.err with
  | true => exact .inr (statusWord_toNat_of_err h he)
  | false => exact .inl (statusWord_mem_of_not_err h he)

/-! ### Writes the window ignores -/

/-- The registers no write changes (10_state.md R33). -/
def Reg.readOnly : Reg → Bool
  | .id | .status | .tileCount | .outLen => true
  | .ctrl | .cmd | .srcBase | .srcLen | .dstBase | .rowWidth => false

theorem storeReg_readOnly {r : Reg} (h : r.readOnly = true) (v : Word) (s : State) : storeReg r v s = s := by
  cases r with
  | id | status | tileCount | outLen => rfl
  | ctrl | cmd | srcBase | srcLen | dstBase | rowWidth => cases h

theorem writeReg_readOnly {r : Reg} (h : r.readOnly = true) (v : Word) (s : State) : writeReg r v s = s := by
  rw [writeReg, storeReg_readOnly h, ite_self]

/-- A write access of any width at a read-only register's offset: CMD is no such register, and the others keep their
value (10_state.md R33). -/
theorem hostRegWrite_readOnly {off : BitVec 6} {r : Reg} (hr : regAt off = some r) (h : r.readOnly = true)
    (size : Nat) (v : Word) (s : State) : hostRegWrite off size v s = .next s := by
  cases r with
  | id | status | tileCount | outLen => simp [hostRegWrite, hr, writeReg_readOnly h]
  | ctrl | cmd | srcBase | srcLen | dstBase | rowWidth => cases h

theorem hostRegWrite_reserved {off : BitVec 6} (hr : regAt off = none) (size : Nat) (v : Word) (s : State) :
    hostRegWrite off size v s = .next s := by
  simp [hostRegWrite, hr]

theorem readWindow_reserved {off : BitVec 6} (hr : regAt off = none) (size : Nat) (s : State) :
    readWindow off size s = 0 := by
  simp [readWindow, hr]

/-- Every named register lies below the reserved offsets (10_state.md R22, R32). -/
theorem Reg.offset_lt_reserved (r : Reg) : r.offset.toNat < 0x28 := by
  cases r <;> decide

/-- No register has a reserved offset (10_state.md R32). -/
theorem regAt_reserved {off : BitVec 6} (h : 0x28 ≤ off.toNat) : regAt off = none := by
  refine List.find?_eq_none.2 fun r _ hr => ?_
  have hoff : r.offset = off := by simpa using hr
  have hlt := r.offset_lt_reserved
  rw [hoff] at hlt
  omega

/-- Settles O42: each of the ten offsets is a read-only register's or is reserved. -/
theorem readOnlyWritesIgnored : Obligations.ReadOnlyWritesIgnored := by
  intro s v off hoff
  refine ⟨?_, fun h => readWindow_reserved (regAt_reserved h) 4 s⟩
  have hcases : (∃ r, regAt off = some r ∧ r.readOnly = true) ∨ 0x28 ≤ off.toNat := by
    revert off
    decide
  obtain ⟨r, hr, hro⟩ | hres := hcases
  · exact hostRegWrite_readOnly hr hro 4 v s
  · exact hostRegWrite_reserved (regAt_reserved hres) 4 v s

end Sys2Proof.Machine
end

section
/-! Unsupported accesses, byte lanes and platform addresses of the register window (20_memory.md R55). -/

namespace Sys2Proof.Machine

/-! ### Unsupported accesses -/

theorem supportedAccess_eq_false_iff {off : BitVec 6} {size : Nat} :
    supportedAccess off size = false ↔ size ≠ 4 ∨ off.toNat % 4 ≠ 0 := by
  simp [supportedAccess, Decidable.imp_iff_not_or]

theorem hostRegWrite_unsupported {off : BitVec 6} {size : Nat} (h : supportedAccess off size = false) (v : Word)
    (s : State) : hostRegWrite off size v s = .next s := by
  simp [hostRegWrite, h]

theorem readWindow_unsupported {off : BitVec 6} {size : Nat} (h : supportedAccess off size = false) (s : State) :
    readWindow off size s = 0 := by
  simp [readWindow, h]

/-! ### Byte lanes -/

/-- The four lanes of a word, each at its weight, make it up again. -/
@[simp] theorem wordOfBytes_lanes (w : Word) : wordOfBytes (lane w 0) (lane w 1) (lane w 2) (lane w 3) = w := by
  apply BitVec.eq_of_toNat_eq
  simp only [wordOfBytes, lane, toNat_append_add, BitVec.extractLsb'_toNat, Nat.shiftRight_eq_div_pow]
  omega

@[simp] theorem wordBytes_length (w : Word) : (wordBytes w).length = 4 := rfl

theorem wordBytes_eq_map_lane (w : Word) : wordBytes w = (List.range 4).map (lane w) := rfl

theorem wordBytes_getElem? (w : Word) {k : Nat} (hk : k < 4) : (wordBytes w)[k]? = some (lane w k) := by
  simp [wordBytes_eq_map_lane, List.getElem?_range hk]

@[simp] theorem wordOfLanes_wordBytes (w : Word) : wordOfLanes (wordBytes w) = w := wordOfBytes_lanes w

/-! ### Platform addresses -/

@[simp] theorem inWindow_regBase_add (off : BitVec 6) : inWindow (Config.regBase + off.toNat) = true := by
  simp [inWindow, off.isLt]

@[simp] theorem windowOffset_regBase_add (off : BitVec 6) : windowOffset (Config.regBase + off.toNat) = off := by
  simp [windowOffset]

/-- A bus write of a word's four lanes is the 32-bit register write of the word. -/
theorem busWrite_wordBytes (off : BitVec 6) (w : Word) :
    busWrite (Config.regBase + off.toNat) (wordBytes w) = some (.regWrite off 4 w) := by
  simp [busWrite]

theorem busRead_regBase_add (off : BitVec 6) (size : Nat) :
    busRead (Config.regBase + off.toNat) size = some (.regRead off size) := by
  simp [busRead]

/-- A 4-byte bus read returns the four lanes of the word read. -/
theorem busReadBytes_regBase_add (off : BitVec 6) (s : State) :
    busReadBytes (Config.regBase + off.toNat) 4 s = some (wordBytes (readWindow off 4 s)) := by
  simp [busReadBytes, wordBytes_eq_map_lane]

/-- Settles O43: an unsupported access fails the window's own test, and the other clauses are the three bus operations at
an address of the window. -/
theorem unsupportedAccessesAndLanes : Obligations.UnsupportedAccessesAndLanes := by
  refine ⟨fun s off size v h => ?_, busWrite_wordBytes, busRead_regBase_add, fun s off => ?_⟩
  · have hu := supportedAccess_eq_false_iff.2 h
    exact ⟨hostRegWrite_unsupported hu v s, readWindow_unsupported hu s⟩
  · exact ⟨_, busReadBytes_regBase_add off s, rfl, fun k hk => wordBytes_getElem? _ hk⟩

end Sys2Proof.Machine
end

section
/-! The fields of a command word, what every word decodes to, and what presenting it does (30_encoding.md R70, R74). -/

namespace Sys2Proof.Machine

/-! ### The fields of a command word -/

@[simp] theorem opField_toNat (w : Word) : (opField w).toNat = w.toNat % 16 := by
  simp [opField]

@[simp] theorem rsvdField_toNat (w : Word) : (rsvdField w).toNat = w.toNat / 16 := by
  rw [rsvdField, BitVec.extractLsb'_toNat, Nat.shiftRight_eq_div_pow]
  have := w.isLt
  omega

theorem rsvdField_ne_zero_iff {w : Word} : rsvdField w ≠ 0 ↔ w.toNat / 16 ≠ 0 := by
  rw [← rsvdField_toNat, Ne, ← BitVec.toNat_inj, BitVec.ofNat_eq_ofNat, BitVec.toNat_ofNat, Nat.zero_mod]

/-! ### Decoding -/

/-- A reserved opcode or a reserved bit makes a word illegal, and it keeps both fields (30_encoding.md R74, log 13). -/
theorem decode_eq_illegal {w : Word} (h : 5 ≤ w.toNat % 16 ∨ w.toNat / 16 ≠ 0) :
    decode w = .illegal (opField w) (rsvdField w) := by
  rw [← opField_toNat, ← rsvdField_ne_zero_iff] at h
  rw [decode]
  by_cases hop : 5 ≤ (opField w).toNat
  · rw [if_pos hop]
  · rw [if_neg hop, if_pos (h.resolve_left hop)]

/-- The five words below 5 are the commands of the opcode map (30_encoding.md R71). -/
theorem decode_ofNat_command :
    ∀ n < 5, some (decode (BitVec.ofNat 32 n)) = [Instr.nop, .convert, .reorder, .pack, .clear][n]? := by
  decide

theorem decode_eq_command {w : Word} (hop : w.toNat % 16 < 5) (hrsvd : w.toNat / 16 = 0) :
    some (decode w) = [Instr.nop, .convert, .reorder, .pack, .clear][w.toNat % 16]? := by
  have hw : w.toNat % 16 = w.toNat := by omega
  rw [hw] at hop ⊢
  simpa using decode_ofNat_command w.toNat hop

/-! ### Presenting a word -/

/-- While BUSY = 1 a word only sets DROP, whatever it decodes to (70_reset_and_hazards.md R210). -/
theorem exec_busy (i : Instr) {s : State} (h : s.status.busy = true) : exec i s = .next (dropWord s) := by
  cases i with
  | nop => exact unlessBusy_busy (fun s => .next s) h
  | convert => exact unlessBusy_busy (acceptJob .convert) h
  | reorder => exact unlessBusy_busy (acceptJob .reorder) h
  | pack => exact unlessBusy_busy (acceptJob .pack) h
  | clear => exact unlessBusy_busy (fun s => .next (clearStatus s)) h
  | illegal op rsvd => rw [exec, execIllegal, unlessBusy_busy _ h]

/-- A command that fails at acceptance leaves the error record alone in STATUS and both counts 0
(60_exceptions.md R184). -/
theorem failCommand_clearStatus {s : State} (h : s.status.busy = false) (code detail : BitVec 4) :
    failCommand code detail (clearStatus s) = errorState code detail s := by
  simp [failCommand, raiseError, zeroCounts, clearStatus, errorState, h]

/-- An accepted illegal word records the error its opcode selects (44_commands.md R160). -/
theorem exec_illegal_idle (op : BitVec 4) (rsvd : BitVec 28) {s : State} (h : s.status.busy = false) :
    exec (.illegal op rsvd) s = .next (errorState (illegalError op).code (illegalError op).detail s) := by
  rw [← failCommand_clearStatus h]
  exact execIllegal_idle (rsvd := rsvd) h

theorem illegalError_of_ge {op : BitVec 4} (h : 5 ≤ op.toNat) : illegalError op = .reservedOpcode := if_pos h

theorem illegalError_of_lt {op : BitVec 4} (h : op.toNat < 5) : illegalError op = .reservedBits := if_neg h.not_ge

theorem exec_illegal_reservedOpcode {op : BitVec 4} (hop : 5 ≤ op.toNat) (rsvd : BitVec 28) {s : State}
    (h : s.status.busy = false) : exec (.illegal op rsvd) s = .next (errorState 1 1 s) := by
  rw [exec_illegal_idle op rsvd h, illegalError_of_ge hop]
  rfl

theorem exec_illegal_reservedBits {op : BitVec 4} (hop : op.toNat < 5) (rsvd : BitVec 28) {s : State}
    (h : s.status.busy = false) : exec (.illegal op rsvd) s = .next (errorState 1 2 s) := by
  rw [exec_illegal_idle op rsvd h, illegalError_of_lt hop]
  rfl

/-- Settles O3: the two illegal clauses and the clause of the commands follow the decoder's order; the busy clause does
not look at the word. -/
theorem decodingOfEveryWord : Obligations.DecodingOfEveryWord := by
  intro w
  refine ⟨fun hop => ?_, fun hop hrsvd => ?_, decode_eq_command, fun s => exec_busy (decode w)⟩
  · rw [decode_eq_illegal (.inl hop)]
    rw [← opField_toNat] at hop
    exact ⟨_, _, rfl, opField_toNat w, rsvdField_toNat w, fun s => exec_illegal_reservedOpcode hop _⟩
  · rw [decode_eq_illegal (.inr hrsvd)]
    rw [← opField_toNat] at hop
    exact ⟨_, _, rfl, opField_toNat w, rsvdField_toNat w, fun s => exec_illegal_reservedBits hop _⟩

end Sys2Proof.Machine
end

section
/-! What the header parser, the caller's validation and the launch of a bitmap answer (40_host_header.md R92 to R98). -/

namespace Sys2Proof.Machine

/-! ### Little-endian fields -/

theorem wordOfBytes_toNat (b0 b1 b2 b3 : Byte) :
    (wordOfBytes b0 b1 b2 b3).toNat = b0.toNat + 2 ^ 8 * b1.toNat + 2 ^ 16 * b2.toNat + 2 ^ 24 * b3.toNat := by
  simp only [wordOfBytes, toNat_append_add]
  ring

/-- The sign of a word is its last byte's. -/
theorem wordOfBytes_msb (b0 b1 b2 b3 : Byte) : (wordOfBytes b0 b1 b2 b3).msb = b3.msb := by
  simp only [BitVec.msb_eq_decide, wordOfBytes_toNat, decide_eq_decide]
  omega

theorem u16_toNat (b : List Byte) (o : Nat) :
    (u16 b o).toNat = (b.getD o 0).toNat + 2 ^ 8 * (b.getD (o + 1) 0).toNat := by
  rw [u16, toNat_append_add, Nat.add_comm]
  rfl

theorem u32_toNat (b : List Byte) (o : Nat) :
    (u32 b o).toNat = (b.getD o 0).toNat + 2 ^ 8 * (b.getD (o + 1) 0).toNat + 2 ^ 16 * (b.getD (o + 2) 0).toNat +
      2 ^ 24 * (b.getD (o + 3) 0).toNat :=
  wordOfBytes_toNat ..

/-- A signed field is the unsigned one, less 2^32 when the sign bit of its last byte is set (40_host_header.md R92). -/
theorem s32_eq (b : List Byte) (o : Nat) :
    s32 b o = ((b.getD o 0).toNat + 2 ^ 8 * (b.getD (o + 1) 0).toNat + 2 ^ 16 * (b.getD (o + 2) 0).toNat +
      2 ^ 24 * (b.getD (o + 3) 0).toNat : Int) - (if (b.getD (o + 3) 0).msb then 2 ^ 32 else 0) := by
  have hmsb : (u32 b o).msb = (b.getD (o + 3) 0).msb := wordOfBytes_msb ..
  rw [s32, BitVec.toInt_eq_msb_cond, hmsb, u32_toNat]
  split <;> simp

/-! ### The parser -/

theorem parseHeader_short {b : List Byte} (h : b.length < 2) : parseHeader b = .error .truncatedHeader := by
  rw [parseHeader, if_pos h]

theorem parseHeader_signature {b : List Byte} (hlen : 2 ≤ b.length) (h : b.getD 0 0 ≠ 0x42 ∨ b.getD 1 0 ≠ 0x4D) :
    parseHeader b = .error .invalidFormat := by
  rw [parseHeader, if_neg hlen.not_gt]
  exact if_pos h

/-- Past the signature only the length is left to check (40_host_header.md R93). -/
theorem parseHeader_signed {b : List Byte} (hlen : 2 ≤ b.length) (h0 : b.getD 0 0 = 0x42) (h1 : b.getD 1 0 = 0x4D) :
    parseHeader b = if b.length < 34 then .error .truncatedHeader else .ok (metadataOf b) := by
  rw [parseHeader, if_neg hlen.not_gt]
  exact if_neg (not_or.2 ⟨not_not.2 h0, not_not.2 h1⟩)

/-- Settles O55: the parser's branches in their order; the fields are those of `metadataOf`. -/
theorem headerParserChecksInOrder : Obligations.HeaderParserChecksInOrder := by
  intro b
  refine ⟨parseHeader_short, parseHeader_signature, fun hlen h0 h1 hshort => ?_, fun hlen h0 h1 => ?_⟩
  · rw [parseHeader_signed hlen h0 h1, if_pos hshort]
  · rw [parseHeader_signed (by omega) h0 h1, if_neg hlen.not_gt]
    exact ⟨_, rfl, u32_toNat b 10, s32_eq b 18, s32_eq b 22, u16_toNat b 28, u32_toNat b 30⟩

/-! ### The caller's validation -/

/-- The magnitude of a height and the height itself are multiples of 8 together (40_host_header.md R95). -/
theorem natAbs_mod_eight_eq_zero_iff (h : Int) : h.natAbs % 8 = 0 ↔ h % 8 = 0 := by
  omega

/-- Settles O56: each rule is tested where those before it hold. -/
theorem headerValidationInOrder : Obligations.HeaderValidationInOrder := by
  intro m
  have hheight := natAbs_mod_eight_eq_zero_iff m.height
  refine ⟨fun hw => ?_, fun hw hh => ?_, fun hw hh hb => ?_, fun hw hh hb hc => ?_, fun hw hh hb hc => ?_⟩
  · rw [validateHeader, if_pos hw]
  · simp [validateHeader, hheight, hw, hh]
  · simp [validateHeader, hheight, hw, hh, hb]
  · simp [validateHeader, hheight, hw, hh, hb.not_gt, hc]
  · simp [validateHeader, hheight, hw, hh, hb.not_gt, hc]

/-! ### Examination and launch -/

theorem examine_parse_error {b : List Byte} {e : HostError} (h : parseHeader b = .error e) : examine b = .error e := by
  simp [examine, h]

theorem examine_invalid {b : List Byte} {m : ImageMetadata} {e : HostError} (hp : parseHeader b = .ok m)
    (hv : validateHeader m = .error e) : examine b = .error e := by
  simp [examine, hp, hv]

theorem examine_offset_past_end {b : List Byte} {m : ImageMetadata} (hp : parseHeader b = .ok m)
    (hv : validateHeader m = .ok ()) (ho : b.length < m.offset) : examine b = .error .malformedPixelData := by
  simp [examine, hp, hv, checkPixelOffset, ho]

theorem examine_ok {b : List Byte} {m : ImageMetadata} (hp : parseHeader b = .ok m)
    (hv : validateHeader m = .ok ()) (ho : m.offset ≤ b.length) : examine b = .ok m := by
  simp [examine, hp, hv, checkPixelOffset, ho.not_gt]

/-- A bitmap that fails the examination launches nothing (40_host_header.md R96). -/
theorem launchBitmap_error {b : List Byte} {e : HostError} (h : examine b = .error e) (a d : Nat) (ie : Bool)
    (s : State) : launchBitmap b a d ie s = .error e := by
  rw [launchBitmap, h]

theorem launchBitmap_ok {b : List Byte} {m : ImageMetadata} (h : examine b = .ok m) (a d : Nat) (ie : Bool)
    (s : State) :
    launchBitmap b a d ie s =
      .ok { s with hostOps := s.hostOps ++ hostMem a b ++ bitmapProgram a d b.length ie m ++ [.handOn d] } := by
  rw [launchBitmap, h]

/-- Settles O58: the launch follows the examination, whose four results are those of its three checks. -/
theorem failedBitmapProgramsNothing : Obligations.FailedBitmapProgramsNothing :=
  fun _ a d ie s =>
    ⟨fun _ hp => launchBitmap_error (examine_parse_error hp) a d ie s,
      fun _ _ hp hv => launchBitmap_error (examine_invalid hp hv) a d ie s,
      fun _ hp hv ho => launchBitmap_error (examine_offset_past_end hp hv ho) a d ie s,
      fun _ hp hv ho => launchBitmap_ok (examine_ok hp hv ho) a d ie s⟩

end Sys2Proof.Machine
end

section
/-! The row map (41_scanline_normalizer.md R111, R115). -/

namespace Sys2Proof.Machine

@[simp] theorem srcRow_topDown (rows y : Nat) : srcRow false rows y = y := rfl

@[simp] theorem srcRow_bottomUp (rows y : Nat) : srcRow true rows y = rows - 1 - y := rfl

theorem srcRow_lt {rows y : Nat} (h : y < rows) (b : Bool) : srcRow b rows y < rows := by
  cases b with
  | false => exact h
  | true => rw [srcRow_bottomUp]; omega

theorem srcRow_srcRow {rows y : Nat} (h : y < rows) (b : Bool) : srcRow b rows (srcRow b rows y) = y := by
  cases b with
  | false => rfl
  | true => exact Nat.sub_sub_self (Nat.le_sub_one_of_lt h)

/-- Settles O31: the law is `srcRow_lt` and `srcRow_srcRow`; the worked example is evaluated. -/
theorem rowMapIsInvolution : Obligations.RowMapIsInvolution :=
  ⟨fun b _ _ h => ⟨srcRow_lt h b, srcRow_srcRow h b⟩, by decide, by decide, by decide⟩

end Sys2Proof.Machine
end

section
/-! The tile address map of the tile_reorder_stage and its inverse (42_tile_reorder.md R123, R125). -/

namespace Sys2Proof.Machine

/-! ### A place in a row-major array: `k` rows of `w` before it, and `x` places into its own -/

theorem rowMajor_div {w x : Nat} (h : x < w) (k : Nat) : (k * w + x) / w = k := by
  rw [Nat.add_comm, Nat.add_mul_div_right _ _ (by omega), Nat.div_eq_of_lt h, Nat.zero_add]

theorem rowMajor_lt {w x k n : Nat} (hx : x < w) (hk : k < n) : k * w + x < n * w := by
  rw [← Nat.div_lt_iff_lt_mul (by omega), rowMajor_div hx]
  exact hk

/-! ### Tiles, image rows and columns

`w / 8` is the number of tiles of a tile row; the row and column of a pixel are those of R123. -/

/-- The tiles hold the pixels: `64 * N = rows * W` (R125). -/
theorem tiles_mul_tileBytes {w rows : Nat} (hw : w % 8 = 0) (hrows : rows % 8 = 0) :
    64 * (rows / 8 * (w / 8)) = rows * w := by
  calc 64 * (rows / 8 * (w / 8)) = rows / 8 * 8 * (w / 8 * 8) := by ring
    _ = rows * w := by
      rw [Nat.div_mul_cancel (Nat.dvd_of_mod_eq_zero hrows), Nat.div_mul_cancel (Nat.dvd_of_mod_eq_zero hw)]

theorem tilePixel_row_lt {w rows t r : Nat} (ht : t < rows / 8 * (w / 8)) (hr : r < 8) :
    8 * (t / (w / 8)) + r < rows := by
  have hband : t / (w / 8) < rows / 8 := Nat.div_lt_of_lt_mul (Nat.mul_comm _ _ ▸ ht)
  omega

theorem tilePixel_col_lt {w c : Nat} (hpos : 0 < w) (hw : w % 8 = 0) (t : Nat) (hc : c < 8) :
    8 * (t % (w / 8)) + c < w := by
  have hcol : t % (w / 8) < w / 8 := Nat.mod_lt t (by omega)
  omega

/-! ### The map and its inverse -/

/-- A pixel's offset is that of its column in its stored row. -/
theorem srcOff_eq (b : Bool) (w rows t r c : Nat) :
    srcOff b w rows t r c = srcRow b rows (8 * (t / (w / 8)) + r) * w + (8 * (t % (w / 8)) + c) :=
  Nat.add_assoc ..

theorem srcOff_lt {w rows t r c : Nat} (b : Bool) (hpos : 0 < w) (hw : w % 8 = 0)
    (ht : t < rows / 8 * (w / 8)) (hr : r < 8) (hc : c < 8) : srcOff b w rows t r c < rows * w := by
  rw [srcOff_eq]
  exact rowMajor_lt (tilePixel_col_lt hpos hw t hc) (srcRow_lt (tilePixel_row_lt ht hr) b)

/-- The stored row and column of a pixel's offset give the pixel's image row and column again. -/
theorem tileOfOff_srcOff {w rows t r c : Nat} (b : Bool) (hpos : 0 < w) (hw : w % 8 = 0)
    (ht : t < rows / 8 * (w / 8)) (hr : r < 8) (hc : c < 8) :
    tileOfOff b w rows (srcOff b w rows t r c) = (t, r, c) := by
  have hx := tilePixel_col_lt hpos hw t hc
  have htile : t / (w / 8) * (w / 8) + t % (w / 8) = t := Nat.div_add_mod' t (w / 8)
  rw [srcOff_eq, tileOfOff, rowMajor_div hx, Nat.mul_add_mod_of_lt hx, srcRow_srcRow (tilePixel_row_lt ht hr) b]
  simp [Nat.mul_add_div, Nat.div_eq_of_lt, Nat.mod_eq_of_lt, hr, hc, htile]

theorem tileOfOff_lt {w rows o : Nat} (b : Bool) (hpos : 0 < w) (hw : w % 8 = 0) (hrows : rows % 8 = 0)
    (ho : o < rows * w) : (tileOfOff b w rows o).1 < rows / 8 * (w / 8) := by
  have hy : srcRow b rows (o / w) < rows := srcRow_lt ((Nat.div_lt_iff_lt_mul hpos).2 ho) b
  have hx : o % w < w := Nat.mod_lt o hpos
  have hband : srcRow b rows (o / w) / 8 < rows / 8 := by omega
  have hcol : o % w / 8 < w / 8 := by omega
  exact rowMajor_lt hcol hband

/-- The pixel found for an offset stands in the stored row and column the offset was taken from. -/
theorem srcOff_tileOfOff {w rows o : Nat} (b : Bool) (hpos : 0 < w) (hw : w % 8 = 0) (ho : o < rows * w) :
    srcOff b w rows (tileOfOff b w rows o).1 (tileOfOff b w rows o).2.1 (tileOfOff b w rows o).2.2 = o := by
  have hrow : o / w < rows := (Nat.div_lt_iff_lt_mul hpos).2 ho
  have hx : o % w < w := Nat.mod_lt o hpos
  have hcol : o % w / 8 < w / 8 := by omega
  rw [srcOff_eq, tileOfOff, rowMajor_div hcol, Nat.mul_add_mod_of_lt hcol, Nat.div_add_mod, Nat.div_add_mod,
    srcRow_srcRow hrow, Nat.div_add_mod']

/-- Settles O32: the map and its inverse undo each other since the row map undoes itself (`srcRow_srcRow`) and a place
in a row-major array determines its row and column. -/
theorem tileMapIsBijection : Obligations.TileMapIsBijection := by
  intro b w rows hpos hw hrows
  refine ⟨tiles_mul_tileBytes hw hrows, fun t r c ht hr hc => ?_, fun o ho => ?_⟩
  · exact ⟨srcOff_lt b hpos hw ht hr hc, tileOfOff_srcOff b hpos hw ht hr hc⟩
  · exact ⟨tileOfOff_lt b hpos hw hrows ho, Nat.mod_lt _ (by decide), Nat.mod_lt _ (by decide),
      srcOff_tileOfOff b hpos hw ho⟩

end Sys2Proof.Machine
end

section
/-! The packing of rows and tiles bit by bit, and the decoding of a block (43_bitplane_pack.md R141 to R145). -/

namespace Sys2Proof.Machine

/-! ### Bits of a packed row -/

theorem getLsbD_foldl_or {w : Nat} (f : Nat → BitVec w) (k : Nat) (l : List Nat) (acc : BitVec w) :
    (l.foldl (fun acc c => acc ||| f c) acc).getLsbD k = (acc.getLsbD k || l.any fun c => (f c).getLsbD k) := by
  induction l generalizing acc with
  | nil => simp
  | cons c l ih => rw [List.foldl_cons, ih, BitVec.getLsbD_or, List.any_cons, Bool.or_assoc]

/-- The term of column `c` holds the pixel's plane bit at bit `7 - c` and 0 elsewhere. -/
theorem getLsbD_planeTerm (b : Byte) (plane : Nat) {c k : Nat} (hc : c < 8) (hk : k < 8) :
    (((b >>> plane) &&& 1) <<< (7 - c)).getLsbD k = (decide (c = 7 - k) && b.getLsbD plane) := by
  rw [BitVec.getLsbD_shiftLeft, BitVec.getLsbD_and, BitVec.getLsbD_ushiftRight, BitVec.ofNat_eq_ofNat,
    BitVec.getLsbD_one]
  by_cases h : c = 7 - k
  · subst h
    simp [hk, Nat.sub_sub_self (Nat.le_of_lt_succ hk)]
  · have hzero : k < 7 - c ∨ k - (7 - c) ≠ 0 := by omega
    rcases hzero with hlt | hne <;> simp [*]

/-- Bit `k` of a plane byte is the plane bit of pixel column `7 - k` (43_bitplane_pack.md R141). -/
theorem packPlane_getLsbD (plane : Nat) (p : List Byte) {k : Nat} (hk : k < 8) :
    (packPlane plane p).getLsbD k = (p.getD (7 - k) 0).getLsbD plane := by
  have hterm : ∀ c, c ∈ List.range 8 →
      ((((p.getD c 0 >>> plane) &&& 1) <<< (7 - c)).getLsbD k = true ↔
        c = 7 - k ∧ (p.getD c 0).getLsbD plane = true) := fun c hc => by
    rw [getLsbD_planeTerm _ _ (List.mem_range.1 hc) hk, Bool.and_eq_true, decide_eq_true_eq]
  rw [packPlane, getLsbD_foldl_or, BitVec.ofNat_eq_ofNat, BitVec.getLsbD_zero, Bool.false_or, Bool.eq_iff_iff,
    List.any_eq_true]
  constructor
  · rintro ⟨c, hc, hbit⟩
    obtain ⟨rfl, h⟩ := (hterm c hc).1 hbit
    exact h
  · intro h
    have hmem : 7 - k ∈ List.range 8 := List.mem_range.2 (by omega)
    exact ⟨7 - k, hmem, (hterm _ hmem).2 ⟨rfl, h⟩⟩

/-- Settles O34: the bits are `packPlane_getLsbD`; the model's definition is the OR form. -/
theorem packRowBits : Obligations.PackRowBits := fun p _ =>
  ⟨fun _ => packPlane_getLsbD 0 p, fun _ => packPlane_getLsbD 1 p, by simp [packRow, packPlane], rfl⟩

/-! ### The low two bits of a pixel -/

theorem getLsbD_and_three (b : Byte) {plane : Nat} (h : plane < 2) : (b &&& 3).getLsbD plane = b.getLsbD plane := by
  have hmask : (3 : Byte).getLsbD plane = true := by
    obtain rfl | rfl : plane = 0 ∨ plane = 1 := by omega
    all_goals decide
  rw [BitVec.getLsbD_and, hmask, Bool.and_true]

theorem packPlane_map_and_three (p : List Byte) {plane : Nat} (h : plane < 2) :
    packPlane plane (p.map fun b => b &&& 3) = packPlane plane p := by
  refine BitVec.eq_of_getLsbD_eq fun k hk => ?_
  have hget : (p.map fun b => b &&& 3).getD (7 - k) 0 = p.getD (7 - k) 0 &&& 3 :=
    List.getD_map p (0 : Byte) fun b => b &&& 3
  rw [packPlane_getLsbD _ _ hk, packPlane_getLsbD _ _ hk, hget, getLsbD_and_three _ h]

/-- Settles O35: a plane takes one of the two bits the mask keeps, and the checks read the operand registers alone
(`check_congr`). -/
theorem highPixelBitsIgnored : Obligations.HighPixelBitsIgnored := by
  refine ⟨fun p => ?_, fun s m op => check_congr op rfl rfl rfl rfl⟩
  exact Prod.ext (packPlane_map_and_three p (by decide)).symm (packPlane_map_and_three p (by decide)).symm

theorem toNat_and_three (b : Byte) : (b &&& 3).toNat = b.toNat % 4 := by
  rw [BitVec.toNat_and]
  exact Nat.and_two_pow_sub_one_eq_mod b.toNat 2

theorem and_three_of_le {b : Byte} (h : b.toNat ≤ 3) : b &&& 3 = b :=
  BitVec.eq_of_toNat_eq (by rw [toNat_and_three]; omega)

theorem toNat_and_three_eq_bits (b : Byte) :
    (b &&& 3).toNat = 2 * (b.getLsbD 1).toNat + (b.getLsbD 0).toNat := by
  rw [toNat_and_three, BitVec.getLsbD, BitVec.getLsbD, Nat.toNat_testBit, Nat.toNat_testBit]
  omega

/-! ### Bits of a packed tile -/

theorem getD_map_range {α : Type} (f : Nat → α) {n i : Nat} (h : i < n) (d : α) :
    ((List.range n).map f).getD i d = f i := by
  simp [List.getD_eq_getElem?_getD, h]

theorem tileRow_getD (tile : List Byte) (r : Nat) {c : Nat} (hc : c < 8) :
    (tileRow tile r).getD c 0 = tile.getD (8 * r + c) 0 :=
  getD_map_range _ hc 0

@[simp] theorem packTile_length (tile : List Byte) : (packTile tile).length = 16 := by simp [packTile]

/-- Block byte `8 * plane + r` is that plane of tile row `r` (43_bitplane_pack.md R143). -/
theorem packTile_getD (tile : List Byte) {plane r : Nat} (hp : plane < 2) (hr : r < 8) :
    (packTile tile).getD (8 * plane + r) 0 = packPlane plane (tileRow tile r) := by
  obtain rfl | rfl : plane = 0 ∨ plane = 1 := by omega
  · rw [packTile, List.getD_append _ _ _ _ (by simpa using hr), Nat.mul_zero, Nat.zero_add, getD_map_range _ hr]
    rfl
  · rw [packTile, List.getD_append_right _ _ _ _ (by simp), List.length_map, List.length_range, Nat.mul_one,
      Nat.add_sub_cancel_left, getD_map_range _ hr]
    rfl

theorem packTile_getLsbD (tile : List Byte) {plane r k : Nat} (hp : plane < 2) (hr : r < 8) (hk : k < 8) :
    ((packTile tile).getD (8 * plane + r) 0).getLsbD k = (tile.getD (8 * r + (7 - k)) 0).getLsbD plane := by
  rw [packTile_getD tile hp hr, packPlane_getLsbD _ _ hk, tileRow_getD _ _ (by omega)]

theorem packTile_getLsbD_col (tile : List Byte) {plane r c : Nat} (hp : plane < 2) (hr : r < 8) (hc : c < 8) :
    ((packTile tile).getD (8 * plane + r) 0).getLsbD (7 - c) = (tile.getD (8 * r + c) 0).getLsbD plane := by
  rw [packTile_getLsbD tile hp hr (by omega), Nat.sub_sub_self (Nat.le_of_lt_succ hc)]

/-- The decoding law: twice the high plane's bit plus the low plane's is the pixel's value (R145). -/
theorem packTile_decodes (tile : List Byte) {r c : Nat} (hr : r < 8) (hc : c < 8) :
    (tile.getD (8 * r + c) 0 &&& 3).toNat =
      2 * (((packTile tile).getD (8 + r) 0).getLsbD (7 - c)).toNat +
        (((packTile tile).getD r 0).getLsbD (7 - c)).toNat := by
  have hhi := packTile_getLsbD_col tile (plane := 1) (by decide) hr hc
  have hlo := packTile_getLsbD_col tile (plane := 0) (by decide) hr hc
  rw [Nat.mul_one] at hhi
  rw [Nat.mul_zero, Nat.zero_add] at hlo
  rw [hhi, hlo, toNat_and_three_eq_bits]

/-! ### Decoding a block -/

theorem shiftRight_and_one (b : Byte) (n : Nat) : (b >>> n) &&& 1 = if b.getLsbD n then 1 else 0 := by
  refine BitVec.eq_of_getLsbD_eq fun k hk => ?_
  rw [BitVec.getLsbD_and, BitVec.getLsbD_ushiftRight, BitVec.ofNat_eq_ofNat, BitVec.getLsbD_one]
  by_cases hk0 : k = 0
  · subst hk0
    cases b.getLsbD n <;> simp
  · cases b.getLsbD n <;> simp [hk0]

/-- A decoded pixel from its two plane bits. -/
theorem unpackPixel_eq (block : List Byte) (r c : Nat) :
    unpackPixel block r c =
      BitVec.ofNat 8 (2 * ((block.getD (8 + r) 0).getLsbD (7 - c)).toNat +
        ((block.getD r 0).getLsbD (7 - c)).toNat) := by
  rw [unpackPixel, shiftRight_and_one, shiftRight_and_one]
  cases (block.getD (8 + r) 0).getLsbD (7 - c) <;> cases (block.getD r 0).getLsbD (7 - c) <;> decide

/-- The two bits of such a value, and its bound. -/
theorem ofNat_twoBits (hi lo : Bool) :
    (BitVec.ofNat 8 (2 * hi.toNat + lo.toNat)).toNat ≤ 3 ∧
      (BitVec.ofNat 8 (2 * hi.toNat + lo.toNat)).getLsbD 0 = lo ∧
      (BitVec.ofNat 8 (2 * hi.toNat + lo.toNat)).getLsbD 1 = hi := by
  cases hi <;> cases lo <;> decide

theorem unpackPixel_le (block : List Byte) (r c : Nat) : (unpackPixel block r c).toNat ≤ 3 :=
  unpackPixel_eq block r c ▸ (ofNat_twoBits _ _).1

theorem unpackPixel_getLsbD (block : List Byte) (r c : Nat) {plane : Nat} (h : plane < 2) :
    (unpackPixel block r c).getLsbD plane = (block.getD (8 * plane + r) 0).getLsbD (7 - c) := by
  obtain ⟨-, hlo, hhi⟩ :=
    ofNat_twoBits ((block.getD (8 + r) 0).getLsbD (7 - c)) ((block.getD r 0).getLsbD (7 - c))
  obtain rfl | rfl : plane = 0 ∨ plane = 1 := by omega
  · rw [unpackPixel_eq, hlo, Nat.mul_zero, Nat.zero_add]
  · rw [unpackPixel_eq, hhi, Nat.mul_one]

theorem unpackPixel_packTile (tile : List Byte) {r c : Nat} (hr : r < 8) (hc : c < 8) :
    unpackPixel (packTile tile) r c = tile.getD (8 * r + c) 0 &&& 3 := by
  rw [unpackPixel_eq, ← packTile_decodes tile hr hc, BitVec.ofNat_toNat, BitVec.setWidth_eq]

@[simp] theorem unpackTile_length (block : List Byte) : (unpackTile block).length = 64 := by simp [unpackTile]

theorem unpackTile_getD (block : List Byte) {r c : Nat} (hr : r < 8) (hc : c < 8) :
    (unpackTile block).getD (8 * r + c) 0 = unpackPixel block r c := by
  have hdiv : (8 * r + c) / 8 = r := by omega
  have hmod : (8 * r + c) % 8 = c := by omega
  rw [unpackTile, getD_map_range _ (by omega), hdiv, hmod]

/-- Two lists of `8 * n` bytes are equal when they agree in every place `8 * q + i` with `i < 8`. -/
theorem eq_of_getD_eight_mul_add {n : Nat} {l l' : List Byte} (h : l.length = 8 * n) (h' : l'.length = 8 * n)
    (hget : ∀ q i, q < n → i < 8 → l.getD (8 * q + i) 0 = l'.getD (8 * q + i) 0) : l = l' := by
  refine List.ext_getElem (h.trans h'.symm) fun j hj hj' => ?_
  have := hget (j / 8) (j % 8) (by omega) (Nat.mod_lt j (by decide))
  rwa [Nat.div_add_mod, List.getD_eq_getElem _ _ hj, List.getD_eq_getElem _ _ hj'] at this

theorem unpackTile_packTile {tile : List Byte} (hlen : tile.length = 64) (hle : ∀ b ∈ tile, b.toNat ≤ 3) :
    unpackTile (packTile tile) = tile := by
  refine eq_of_getD_eight_mul_add (n := 8) (unpackTile_length _) hlen fun r c hr hc => ?_
  have hmem : tile.getD (8 * r + c) 0 ∈ tile := by
    rw [List.getD_eq_getElem tile 0 (by omega)]
    exact List.getElem_mem _
  rw [unpackTile_getD _ hr hc, unpackPixel_packTile tile hr hc, and_three_of_le (hle _ hmem)]

theorem packTile_unpackTile {block : List Byte} (hlen : block.length = 16) :
    packTile (unpackTile block) = block := by
  refine eq_of_getD_eight_mul_add (n := 2) (packTile_length _) hlen fun plane r hp hr => ?_
  refine BitVec.eq_of_getLsbD_eq fun k hk => ?_
  rw [packTile_getLsbD _ hp hr hk, unpackTile_getD _ hr (by omega), unpackPixel_getLsbD _ _ _ hp,
    Nat.sub_sub_self (Nat.le_of_lt_succ hk)]

/-- Settles O36: the decoding law is `packTile_decodes`; each of packing and unpacking undoes the other. -/
theorem packingDecodes : Obligations.PackingDecodes := by
  refine ⟨fun tile r c _ => packTile_decodes tile, fun tile hlen hle => ?_, fun block hlen => ?_⟩
  · exact ⟨packTile_length tile, unpackTile_packTile hlen hle⟩
  · refine ⟨unpackTile_length block, fun b hb => ?_, packTile_unpackTile hlen⟩
    obtain ⟨i, -, rfl⟩ := List.mem_map.1 hb
    exact unpackPixel_le block _ _

end Sys2Proof.Machine
end

section
/-! The loop of CONVERT and the blocks it leaves in memory (44_commands.md R165, 43_bitplane_pack.md R144, R146). -/

namespace Sys2Proof.Machine

/-! ### A loop that writes one block a turn -/

/-- `m'` is `m` with the bytes `f 0`, …, `f (len - 1)` written at `base`. -/
def WritesBlock (base len : Nat) (f : Nat → Byte) (m m' : Memory) : Prop :=
  (∀ i, i < len → memRead m' (base + i) = f i) ∧
    ∀ a, ¬(base ≤ a ∧ a < base + len) → memRead m' a = memRead m a

/-- A loop of `n` turns writes `n` blocks of `len` bytes at `base` when turn `t` writes block `t`, whatever the turns
before it left in that region. -/
theorem forUp_writesBlock {n base len : Nat} {body : Nat → Memory → Memory} {m : Memory} (f : Nat → Nat → Byte)
    (hm : Memory.wf m = true)
    (hbody : ∀ t m', t < n → Memory.wf m' = true →
      (∀ a, ¬(base ≤ a ∧ a < base + len * n) → memRead m' a = memRead m a) →
      Memory.wf (body t m') = true ∧ WritesBlock (base + len * t) len (f t) m' (body t m')) :
    (∀ t, t < n → ∀ i, i < len → memRead (forUp n body m) (base + len * t + i) = f t i) ∧
      ∀ a, ¬(base ≤ a ∧ a < base + len * n) → memRead (forUp n body m) a = memRead m a := by
  refine (forUp_inv (body := body)
    (fun k m' => Memory.wf m' = true ∧
      (∀ t, t < k → ∀ i, i < len → memRead m' (base + len * t + i) = f t i) ∧
      ∀ a, ¬(base ≤ a ∧ a < base + len * n) → memRead m' a = memRead m a)
    ⟨hm, fun _ h => absurd h (Nat.not_lt_zero _), fun _ _ => rfl⟩ ?_).2
  rintro k m' hk ⟨hwf, hdone, hframe⟩
  obtain ⟨hwf', hblock, hrest⟩ := hbody k m' hk hwf hframe
  have hlast : len * k + len ≤ len * n := Nat.mul_le_mul_left len hk
  refine ⟨hwf', fun t ht i hi => ?_, fun a ha => ?_⟩
  · rcases Nat.lt_succ_iff_lt_or_eq.1 ht with hlt | rfl
    · have hbefore : len * t + len ≤ len * k := Nat.mul_le_mul_left len hlt
      rw [hrest _ (by omega), hdone t hlt i hi]
    · exact hblock i hi
  · rw [hrest a (by omega), hframe a ha]

/-! ### One row and one tile of CONVERT -/

/-- One turn of CONVERT's inner loop: row `r` of tile `t` is packed into its two block bytes. -/
def convertRow (s : State) (t r : Nat) (m : Memory) : Memory :=
  let q := packRow ((List.range 8).map fun c => memRead m (s.srcAddr t r c))
  memWrite (memWrite m (s.dstBase.toNat + 16 * t + r) q.1) (s.dstBase.toNat + 16 * t + 8 + r) q.2

theorem convertLoop_eq (s : State) :
    convertLoop s = forUp (tilesOf .convert s) (fun t => forUp 8 (convertRow s t)) s.mem := rfl

theorem convertRow_wf {m : Memory} (hm : Memory.wf m = true) (s : State) (t r : Nat) :
    Memory.wf (convertRow s t r m) = true := memWrite_wf (memWrite_wf hm _ _) _ _

theorem tile_getD (s : State) (t : Nat) {r c : Nat} (hr : r < 8) (hc : c < 8) :
    (s.tile t).getD (8 * r + c) 0 = memRead s.mem (s.srcAddr t r c) := by
  have hi : 8 * r + c < Config.tileBytes := by unfold Config.tileBytes; omega
  have hdiv : (8 * r + c) / 8 = r := by omega
  have hmod : (8 * r + c) % 8 = c := by omega
  rw [State.tile, getD_map_range _ hi, hdiv, hmod]

/-- Where the row's source bytes are still those the job found, the bytes read are the tile's row. -/
theorem map_memRead_eq_tileRow {s : State} {m : Memory} {t r : Nat} (hr : r < 8)
    (h : ∀ c < 8, memRead m (s.srcAddr t r c) = memRead s.mem (s.srcAddr t r c)) :
    ((List.range 8).map fun c => memRead m (s.srcAddr t r c)) = tileRow (s.tile t) r := by
  refine List.map_congr_left fun c hc => ?_
  have hc := List.mem_range.1 hc
  rw [h c hc, tile_getD s t hr hc]

/-- A turn writes bytes `r` and `8 + r` of the packed tile, and no other. -/
theorem memRead_convertRow {s : State} {m : Memory} (hm : Memory.wf m = true) {t r : Nat} (hr : r < 8)
    (h : ∀ c < 8, memRead m (s.srcAddr t r c) = memRead s.mem (s.srcAddr t r c)) :
    (∀ plane < 2, memRead (convertRow s t r m) (s.dstBase.toNat + 16 * t + (8 * plane + r)) =
      (packTile (s.tile t)).getD (8 * plane + r) 0) ∧
    ∀ a, a ≠ s.dstBase.toNat + 16 * t + r → a ≠ s.dstBase.toNat + 16 * t + 8 + r →
      memRead (convertRow s t r m) a = memRead m a := by
  rw [convertRow, map_memRead_eq_tileRow hr h]
  refine ⟨fun plane hp => ?_, fun a hlo hhi => ?_⟩
  · rw [packTile_getD _ hp hr, memRead_memWrite (memWrite_wf hm _ _), memRead_memWrite hm]
    obtain rfl | rfl : plane = 0 ∨ plane = 1 := by omega
    · rw [if_neg (by omega), if_pos (by omega)]
      rfl
    · rw [if_pos (by omega)]
      rfl
  · rw [memRead_memWrite_other _ _ hhi, memRead_memWrite_other _ _ hlo]

/-- The inner loop writes the packed tile's block when the memory it finds, and the block it writes, leave the tile's
source bytes as the job found them. -/
theorem convertTile_writesBlock {s : State} {m : Memory} (hm : Memory.wf m = true) {t : Nat}
    (hsrc : ∀ r < 8, ∀ c < 8, memRead m (s.srcAddr t r c) = memRead s.mem (s.srcAddr t r c))
    (hdisj : ∀ r < 8, ∀ c < 8, ¬(s.dstBase.toNat + 16 * t ≤ s.srcAddr t r c ∧
      s.srcAddr t r c < s.dstBase.toNat + 16 * t + 16)) :
    Memory.wf (forUp 8 (convertRow s t) m) = true ∧
      WritesBlock (s.dstBase.toNat + 16 * t) 16 (fun i => (packTile (s.tile t)).getD i 0) m
        (forUp 8 (convertRow s t) m) := by
  have key := forUp_inv (n := 8) (body := convertRow s t) (m := m)
    (fun k m' => Memory.wf m' = true ∧
      (∀ r < k, ∀ plane < 2, memRead m' (s.dstBase.toNat + 16 * t + (8 * plane + r)) =
        (packTile (s.tile t)).getD (8 * plane + r) 0) ∧
      ∀ a, ¬(s.dstBase.toNat + 16 * t ≤ a ∧ a < s.dstBase.toNat + 16 * t + 16) → memRead m' a = memRead m a)
    ⟨hm, fun _ h => absurd h (Nat.not_lt_zero _), fun _ _ => rfl⟩ fun k m' hk ⟨hwf, hdone, hframe⟩ => by
      obtain ⟨hrow, hrest⟩ := memRead_convertRow (m := m') hwf hk fun c hc =>
        (hframe _ (hdisj k hk c hc)).trans (hsrc k hk c hc)
      refine ⟨convertRow_wf hwf s t k, fun r hr plane hp => ?_, fun a ha => ?_⟩
      · rcases Nat.lt_succ_iff_lt_or_eq.1 hr with hlt | rfl
        · rw [hrest _ (by omega) (by omega), hdone r hlt plane hp]
        · exact hrow plane hp
      · rw [hrest a (by omega) (by omega), hframe a ha]
  obtain ⟨hwf, hdone, hframe⟩ := key
  refine ⟨hwf, fun i hi => ?_, hframe⟩
  have := hdone (i % 8) (Nat.mod_lt i (by decide)) (i / 8) (by omega)
  rwa [Nat.div_add_mod] at this

/-! ### The regions of a checked job -/

theorem State.Inv.checked {s : State} (h : s.Inv) {op : JobOp} (hj : s.job = some op) :
    check op s = .ok (tilesOf op s) := (h.jobOk op hj).1

theorem State.Inv.regions_disjoint {s : State} (h : s.Inv) {op : JobOp} (hj : s.job = some op) {a : Nat}
    (ha : s.srcRegion.holds a = true) : (dstRegion op s).holds a = false := by
  obtain ⟨-, -, hdisj⟩ := check_ok_regions (h.checked hj)
  refine Bool.eq_false_iff.2 fun hd => ?_
  exact absurd ha (Bool.eq_false_iff.1 (region_disjoint hdisj hd))

theorem State.Inv.rowDims {s : State} (h : s.Inv) {op : JobOp} (hj : s.job = some op) (hop : op ≠ .pack) :
    RowDims s := by
  have hdims := check_ok_dims (h.checked hj)
  cases op with
  | convert => exact checkRows_ok hdims
  | reorder => exact checkRows_ok hdims
  | pack => exact absurd rfl hop

theorem tilesOf_convert (s : State) : tilesOf .convert s = rowTiles s := rfl

theorem RowDims.rows_mul_rowWidth {s : State} (h : RowDims s) : s.rows * s.rowWidth.toNat = s.srcLen.toNat := by
  obtain ⟨-, hlen, -, -⟩ := h
  exact Nat.div_mul_cancel (Nat.dvd_of_mod_eq_zero hlen)

/-- Every pixel of a tile is in the source region. -/
theorem RowDims.srcRegion_holds_srcAddr {s : State} (h : RowDims s) {t r c : Nat} (ht : t < rowTiles s) (hr : r < 8)
    (hc : c < 8) : s.srcRegion.holds (s.srcAddr t r c) = true := by
  have harea := h.rows_mul_rowWidth
  obtain ⟨hpos, -, hw, -⟩ := h
  have hoff : srcOff s.ctrl.rowOrder s.rowWidth.toNat s.rows t r c < s.rows * s.rowWidth.toNat :=
    srcOff_lt s.ctrl.rowOrder hpos hw ht hr hc
  rw [harea] at hoff
  exact (region_holds_iff _ _).2 ⟨Nat.le_add_right _ _, Nat.add_lt_add_left hoff _⟩

/-- A non-empty image has a tile. -/
theorem RowDims.rowTiles_pos {s : State} (h : RowDims s) (hlen : 0 < s.srcLen.toNat) : 0 < rowTiles s := by
  have harea := h.rows_mul_rowWidth
  obtain ⟨-, -, hw, hrows⟩ := h
  have hbytes : 64 * rowTiles s = s.rows * s.rowWidth.toNat := tiles_mul_tileBytes hw hrows
  rw [harea] at hbytes
  omega

/-! ### The memory CONVERT leaves -/

/-- Block `t` of the destination is the packed tile `t`, and nothing else changed
(43_bitplane_pack.md R144). -/
theorem convertLoop_writes {s : State} (h : s.Inv) (hj : s.job = some .convert) :
    (∀ t, t < rowTiles s → ∀ i, i < 16 →
      memRead (convertLoop s) (s.dstBase.toNat + 16 * t + i) = (packTile (s.tile t)).getD i 0) ∧
      ∀ a, ¬(s.dstBase.toNat ≤ a ∧ a < s.dstBase.toNat + 16 * rowTiles s) →
        memRead (convertLoop s) a = memRead s.mem a := by
  rw [convertLoop_eq, tilesOf_convert]
  refine forUp_writesBlock (fun t i => (packTile (s.tile t)).getD i 0) h.memWf fun t m ht hwf hframe => ?_
  have hout : ∀ r < 8, ∀ c < 8, ¬(s.dstBase.toNat ≤ s.srcAddr t r c ∧
      s.srcAddr t r c < s.dstBase.toNat + 16 * rowTiles s) := fun r hr c hc hin => by
    have hd := h.regions_disjoint hj ((h.rowDims hj (by decide)).srcRegion_holds_srcAddr ht hr hc)
    exact absurd ((region_holds_iff _ _).2 hin) (Bool.eq_false_iff.1 hd)
  exact convertTile_writesBlock hwf (fun r hr c hc => hframe _ (hout r hr c hc)) fun r hr c hc hin =>
    hout r hr c hc (by omega)

/-! ### The first bit -/

/-- The top-left pixel is stored first in the last stored row when the rows are bottom-up, else in the first. -/
theorem srcAddr_topLeft (s : State) :
    s.srcAddr 0 0 0 =
      s.srcBase.toNat + if s.ctrl.rowOrder then (s.rows - 1) * s.rowWidth.toNat else 0 := by
  rw [State.srcAddr, srcOff_eq]
  cases s.ctrl.rowOrder <;> simp

/-- Settles O26: byte 0 of the destination is byte 0 of the packed tile 0 (`convertLoop_writes`), whose bit 7 is bit
0 of the tile's first pixel. -/
theorem firstBitIsTopLeftPixel : Obligations.FirstBitIsTopLeftPixel := by
  intro s t hinv hj hd hraced hlen hstep
  have ht : t.mem = convertLoop s := by
    rw [step_completes hj hd, completeJob_dutiful hraced] at hstep
    rw [← Host.Outcome.next.inj hstep]
    rfl
  have hbyte := (convertLoop_writes hinv hj).1 0 ((hinv.rowDims hj (by decide)).rowTiles_pos hlen) 0 (by decide)
  calc (memRead t.mem s.dstBase.toNat).getLsbD 7
      = ((packTile (s.tile 0)).getD 0 0).getLsbD 7 := by rw [ht, ← hbyte]; rfl
    _ = ((s.tile 0).getD 0 0).getLsbD 0 :=
        packTile_getLsbD (s.tile 0) (plane := 0) (r := 0) (by decide) (by decide) (by decide)
    _ = (memRead s.mem (s.srcAddr 0 0 0)).getLsbD 0 := by
        rw [← tile_getD s 0 (r := 0) (c := 0) (by decide) (by decide)]
    _ = _ := by rw [srcAddr_topLeft]; rfl

end Sys2Proof.Machine
end

section
/-! The two commands without a job: NOP and CLEAR accepted (44_commands.md R168, R169). -/

namespace Sys2Proof.Machine

theorem exec_nop_idle {s : State} (h : s.status.busy = false) : exec .nop s = .next s :=
  unlessBusy_idle (fun s => .next s) h

theorem exec_clear_idle {s : State} (h : s.status.busy = false) : exec .clear s = .next (clearStatus s) :=
  unlessBusy_idle (fun s => .next (clearStatus s)) h

/-- `clearStatus` keeps BUSY, so on an idle block all of STATUS is 0 after it. -/
theorem clearStatus_idle {s : State} (h : s.status.busy = false) :
    clearStatus s = { s with status :=
      { busy := false, done := false, err := false, drop := false, errCode := 0, errDetail := 0 } } := by
  simp [clearStatus, h]

/-- With neither DONE nor ERR set the interrupt line is low, whatever IE holds (60_exceptions.md R190). -/
theorem irq_clearStatus (s : State) : (clearStatus s).irq = false := by
  simp [State.irq]

theorem clearStatus_statusWord {s : State} (h : s.status.busy = false) : (clearStatus s).status.word = 0 := by
  rw [clearStatus_status, h]
  decide

/-- Settles O6: accepted, NOP answers the state it finds; busy, it is dropped like every word (`exec_busy`). -/
theorem nopChangesNothing : Obligations.NopChangesNothing := by
  intro s
  exact ⟨exec_nop_idle, exec_busy .nop⟩

/-- Settles O7: accepted, CLEAR is `clearStatus`, which leaves STATUS 0 and irq low; busy, it is dropped like every word
(`exec_busy`). -/
theorem clearClearsTheRecord : Obligations.ClearClearsTheRecord := by
  intro s
  refine ⟨fun hidle => ?_, exec_busy .clear⟩
  exact ⟨clearStatus s, exec_clear_idle hidle, clearStatus_idle hidle, clearStatus_statusWord hidle,
    irq_clearStatus s⟩

end Sys2Proof.Machine
end

section
/-! A command that ends in an error: the state it leaves, and that acceptance reads no memory (60_exceptions.md R184,
R185). -/

namespace Sys2Proof.Machine

/-! ### Acceptance reads no memory -/

/-- Over any other memory `f` answers the same next state, with that memory in it: it neither reads nor writes memory. -/
def MemoryBlind (f : State → Result) : Prop :=
  ∀ (s t : State) (m : Memory), f s = .next t → f { s with mem := m } = .next { t with mem := m }

/-- The checks read registers alone (`check_congr`), and so does the look for memory with side effects. -/
theorem acceptJob_memoryBlind (op : JobOp) : MemoryBlind (acceptJob op) := by
  intro s t m h
  have hcheck : check op { s with mem := m } = check op s := check_congr op rfl rfl rfl rfl
  obtain ⟨e, he, rfl⟩ | ⟨n, hn, hordinary, rfl⟩ := acceptJob_next h
  · exact acceptJob_error (hcheck.trans he)
  · exact acceptJob_ok (hcheck.trans hn) hordinary

theorem MemoryBlind.unlessBusy {accept : State → Result} (h : MemoryBlind accept) :
    MemoryBlind (unlessBusy accept) := by
  intro s t m hs
  cases hb : s.status.busy with
  | true =>
    rw [unlessBusy_busy accept hb] at hs
    obtain rfl := Host.Outcome.next.inj hs
    exact unlessBusy_busy accept hb
  | false =>
    rw [unlessBusy_idle accept hb] at hs
    exact (unlessBusy_idle (s := { s with mem := m }) accept hb).trans (h s t m hs)

/-- A command that only changes registers, in a way `g` that does not depend on memory. -/
theorem memoryBlind_next {g : State → State} (h : ∀ s m, g { s with mem := m } = { g s with mem := m }) :
    MemoryBlind fun s => .next (g s) := by
  intro s t m hs
  obtain rfl := Host.Outcome.next.inj hs
  exact congrArg Host.Outcome.next (h s m)

/-- No command reads or writes memory when its word is presented (44_commands.md R160). -/
theorem exec_memoryBlind (i : Instr) : MemoryBlind (exec i) := by
  cases i with
  | nop => exact (memoryBlind_next (g := id) fun _ _ => rfl).unlessBusy
  | convert => exact (acceptJob_memoryBlind .convert).unlessBusy
  | reorder => exact (acceptJob_memoryBlind .reorder).unlessBusy
  | pack => exact (acceptJob_memoryBlind .pack).unlessBusy
  | clear => exact (memoryBlind_next (g := clearStatus) fun _ _ => rfl).unlessBusy
  | illegal op rsvd =>
    exact (memoryBlind_next
      (g := fun s => failCommand (illegalError op).code (illegalError op).detail (clearStatus s))
      fun _ _ => rfl).unlessBusy

/-! ### The error state -/

theorem irq_errorState (code detail : BitVec 4) (s : State) : (errorState code detail s).irq = s.ctrl.ie := by
  simp [State.irq, errorState]

/-- Of what an accepted command other than NOP can do (`exec_next`), only the error leaves ERR = 1: CLEAR and the start
of a job have emptied the record. -/
theorem exec_err {i : Instr} {s t : State} (hb : s.status.busy = false) (hi : i ≠ .nop) (h : exec i s = .next t)
    (he : t.status.err = true) : ∃ e ∈ allErrors, t = errorState e.code e.detail s := by
  obtain ⟨hbusy, -⟩ | ⟨-, ⟨hnop, -⟩ | ⟨-, rfl⟩ | ⟨e, hmem, rfl⟩ | ⟨op, -, -, rfl⟩⟩ := exec_next h
  · simp [hb] at hbusy
  · exact absurd hnop hi
  · simp at he
  · exact ⟨e, hmem, failCommand_clearStatus hb e.code e.detail⟩
  · simp at he

/-- Settles O16: the next state is the error state of one of the table's errors (`exec_err`), and no command sees memory
(`exec_memoryBlind`). -/
theorem errorsArePrecise : Obligations.ErrorsArePrecise := by
  intro s t i hinv hb hi h he
  obtain ⟨e, hmem, rfl⟩ := exec_err hb hi h he
  have hjob : s.job = none := by simpa [hb] using hinv.busyJob
  exact ⟨rfl, hjob, irq_errorState e.code e.detail s, ⟨e, hmem, rfl, rfl⟩, fun m => exec_memoryBlind i s _ m h⟩

end Sys2Proof.Machine
end

section
/-! The interrupt line after each event that can move it (60_exceptions.md R190). -/

namespace Sys2Proof.Machine

theorem irq_eq_true_iff (s : State) :
    s.irq = true ↔ s.ctrl.ie = true ∧ (s.status.done = true ∨ s.status.err = true) := by
  simp [State.irq]

/-- A completion sets DONE and keeps CTRL, raced or not (44_commands.md R165). -/
theorem irq_completeJob (op : JobOp) (s : State) : (completeJob op s).irq = s.ctrl.ie := by
  cases hr : s.raced with
  | true => simp [completeJob_raced hr, State.irq]
  | false => simp [completeJob_dutiful hr, State.irq]

theorem exec_ctrl {i : Instr} {s t : State} (h : exec i s = .next t) : t.ctrl = s.ctrl := by
  obtain ⟨-, rfl⟩ | ⟨-, ⟨-, rfl⟩ | ⟨-, rfl⟩ | ⟨e, -, rfl⟩ | ⟨op, -, -, rfl⟩⟩ := exec_next h
  all_goals rfl

/-- A write of CTRL with BUSY = 0 changes no flag, so the line follows the new IE. -/
theorem hostStep_write_ctrl {s : State} (hb : s.status.busy = false) (v : Word) :
    hostStep (.regWrite 0x04 4 v) s = .next { s with ctrl := ctrlOfWord v } := by
  have hwrite : writeReg .ctrl v s = { s with ctrl := ctrlOfWord v } := by simp [writeReg, storeReg, hb]
  exact congrArg Host.Outcome.next hwrite

theorem exec_commandOf_idle (op : JobOp) {s : State} (h : s.status.busy = false) :
    exec (commandOf op) s = acceptJob op s := by
  cases op with
  | convert => exact unlessBusy_idle (acceptJob .convert) h
  | reorder => exact unlessBusy_idle (acceptJob .reorder) h
  | pack => exact unlessBusy_idle (acceptJob .pack) h

/-- An accepted job command that leaves ERR = 0 has started its job. -/
theorem exec_commandOf_started {op : JobOp} {s t : State} (hb : s.status.busy = false)
    (h : exec (commandOf op) s = .next t) (he : t.status.err = false) : ∃ n, t = startJob op n (clearStatus s) := by
  rw [exec_commandOf_idle op hb] at h
  obtain ⟨e, -, rfl⟩ | ⟨n, -, -, rfl⟩ := acceptJob_next h
  · simp at he
  · exact ⟨n, rfl⟩

/-- The start of a job sets BUSY alone, on a record `clearStatus` has emptied. -/
theorem irq_startJob_clearStatus (op : JobOp) (n : Nat) (s : State) :
    (startJob op n (clearStatus s)).irq = false := by
  simp [State.irq]

theorem irq_resetRegisters (s : State) : (resetRegisters s).irq = false := rfl

theorem irq_resetBlock (s : State) : (resetBlock s).irq = false := by
  cases hj : s.job with
  | none => rw [resetBlock_idle hj, irq_resetRegisters]
  | some op => rw [resetBlock_busy hj, irq_resetRegisters]

/-- Settles O44: the level is the definition of the line, and each other clause is the line after one event. -/
theorem interruptLevel : Obligations.InterruptLevel := by
  refine ⟨fun s => rfl, fun s t op hie hj hd h => ?completion, fun s t i hie _ h he => ?error,
    fun s t v hb h => ?ctrlWrite, fun s t hb h => ?clear, fun s t op hb h he => ?start, fun s t h => ?reset⟩
  case completion =>
    rw [step_completes hj hd] at h
    obtain rfl := Host.Outcome.next.inj h
    rw [irq_completeJob, hie]
  case error => exact (irq_eq_true_iff t).2 ⟨by rw [exec_ctrl h, hie], .inr he⟩
  case ctrlWrite =>
    rw [hostStep_write_ctrl hb] at h
    obtain rfl := Host.Outcome.next.inj h
    rfl
  case clear =>
    rw [exec_clear_idle hb] at h
    obtain rfl := Host.Outcome.next.inj h
    exact irq_clearStatus s
  case start =>
    obtain ⟨n, rfl⟩ := exec_commandOf_started hb h he
    exact irq_startJob_clearStatus op n s
  case reset =>
    obtain rfl := Host.Outcome.next.inj h
    exact irq_resetBlock s

end Sys2Proof.Machine
end

section
/-! The window and STATUS while a job runs, and what can change STATUS (70_reset_and_hazards.md R210, R211). -/

namespace Sys2Proof.Machine

/-! ### Register accesses -/

theorem regAt_eq_cmd_iff (off : BitVec 6) : regAt off = some .cmd ↔ off = 0x08 := by
  revert off
  decide

/-- A read at a register's own offset returns the register (10_state.md R22). -/
theorem readWindow_offset (r : Reg) (s : State) : readWindow r.offset 4 s = readReg r s := by
  cases r <;> rfl

@[simp] theorem storeReg_status (r : Reg) (v : Word) (s : State) : (storeReg r v s).status = s.status := by
  cases r <;> rfl

theorem writeReg_busy (r : Reg) (v : Word) {s : State} (h : s.status.busy = true) : writeReg r v s = s :=
  if_pos h

/-- With BUSY = 1 only CMD heeds a write: each other register is held, and reserved offsets and unsupported accesses
ignore writes at any time (70_reset_and_hazards.md R211). -/
theorem hostRegWrite_busy {off : BitVec 6} (hoff : off ≠ 0x08) (size : Nat) (v : Word) {s : State}
    (h : s.status.busy = true) : hostRegWrite off size v s = .next s := by
  cases hr : regAt off with
  | none => exact hostRegWrite_reserved hr size v s
  | some r =>
    cases r with
    | cmd => exact absurd ((regAt_eq_cmd_iff off).1 hr) hoff
    | id | ctrl | status | srcBase | srcLen | dstBase | rowWidth | tileCount | outLen =>
      simp [hostRegWrite, hr, writeReg_busy _ v h]

/-- Settles O41: each write is `hostRegWrite_busy`, and each read is at a register's own offset. -/
theorem operandWritesIgnoredWhileBusy : Obligations.OperandWritesIgnoredWhileBusy := by
  intro s off size v hbusy hoff
  exact ⟨hostRegWrite_busy hoff size v hbusy, readWindow_offset .ctrl s, readWindow_offset .srcBase s,
    readWindow_offset .srcLen s, readWindow_offset .dstBase s, readWindow_offset .rowWidth s⟩

/-! ### What can change STATUS -/

/-- Of all write accesses, only a word presented at CMD can change STATUS. -/
theorem hostRegWrite_status {off : BitVec 6} {size : Nat} {v : Word} {s t : State}
    (h : hostRegWrite off size v s = .next t) :
    t.status = s.status ∨ (off = 0x08 ∧ size = 4 ∧ exec (decode v) s = .next t) := by
  by_cases hoff : off = 0x08
  · subst hoff
    by_cases hsize : size = 4
    · subst hsize
      exact .inr ⟨rfl, rfl, h⟩
    · rw [hostRegWrite_unsupported (supportedAccess_eq_false_iff.2 (.inl hsize))] at h
      exact .inl (congrArg State.status (Host.Outcome.next.inj h).symm)
  · obtain rfl | ⟨-, r, rfl⟩ := hostRegWrite_other (mt (regAt_eq_cmd_iff off).1 hoff) h
    · exact .inl rfl
    · exact .inl (storeReg_status r v s)

/-- Of all host operations, only reset and a word presented at CMD can change STATUS. -/
theorem hostStep_status {op : HostOp} {s t : State} (h : hostStep op s = .next t) :
    t.status = s.status ∨ op = .reset ∨ ∃ w, op = .regWrite 0x08 4 w ∧ exec (decode w) s = .next t := by
  have looks : op.looksOnly = true → t.status = s.status := fun hl => by
    rw [(hostStep_looksOnly hl h).2]
  cases op with
  | regWrite off size v =>
    obtain hsame | ⟨rfl, rfl, hexec⟩ := hostRegWrite_status h
    · exact .inl hsame
    · exact .inr (.inr ⟨v, rfl, hexec⟩)
  | memWrite a v =>
    obtain ⟨-, -, rfl⟩ := hostMemWrite_next h
    exact .inl rfl
  | reset => exact .inr (.inl rfl)
  | regRead | poll | memRead | waitIrq | handOn | gather => exact .inl (looks rfl)

/-! ### DROP -/

/-- A completion moves BUSY to DONE, raced or not, and keeps the rest of STATUS (44_commands.md R165). -/
@[simp] theorem completeJob_status (op : JobOp) (s : State) :
    (completeJob op s).status = { s.status with busy := false, done := true } := by
  cases hr : s.raced with
  | true => simp [completeJob_raced hr]
  | false => simp [completeJob_dutiful hr]

@[simp] theorem completeJob_job (op : JobOp) (s : State) : (completeJob op s).job = none := rfl

/-- While a job runs STATUS shows no error (10_state.md R26). -/
theorem State.Inv.no_err_of_job {s : State} (h : s.Inv) {op : JobOp} (hj : s.job = some op) :
    s.status.err = false ∧ s.status.errCode = 0 ∧ s.status.errDetail = 0 := by
  have hb : s.status.busy = true := by simpa [hj] using h.busyJob
  obtain ⟨-, herr, -⟩ := h.exclusive
  have he : s.status.err = false := by simpa [hb] using herr
  have hrec : s.status.errCode = 0 ∧ s.status.errDetail = 0 := by
    simpa [Status.recordLegal, he] using h.record
  exact ⟨he, hrec⟩

/-- The completion of a job with a dropped word shows DONE and DROP alone (70_reset_and_hazards.md R210). -/
theorem completeJob_statusWord_of_drop {s : State} (h : s.Inv) {op : JobOp} (hj : s.job = some op)
    (hdrop : s.status.drop = true) : (completeJob op s).status.word = 0x0000000A := by
  obtain ⟨he, hcode, hdetail⟩ := h.no_err_of_job hj
  apply BitVec.eq_of_toNat_eq
  simp [statusWord_toNat, hdrop, he, hcode, hdetail]

/-- A word clears DROP only if it is accepted and is not NOP (44_commands.md R160). -/
theorem exec_clears_drop {i : Instr} {s t : State} (h : exec i s = .next t) (hs : s.status.drop = true)
    (ht : t.status.drop = false) : i ≠ .nop ∧ s.status.busy = false := by
  cases hb : s.status.busy with
  | true =>
    rw [exec_busy i hb] at h
    obtain rfl := Host.Outcome.next.inj h
    simp at ht
  | false =>
    refine ⟨?_, rfl⟩
    rintro rfl
    rw [exec_nop_idle hb] at h
    obtain rfl := Host.Outcome.next.inj h
    simp [hs] at ht

/-- A step clears DROP only by a host operation: a reset, or a word other than NOP that is accepted. -/
theorem step_clears_drop {s t : State} (h : step s = .next t) (hs : s.status.drop = true)
    (ht : t.status.drop = false) :
    ∃ op rest, s.hostOps = op :: rest ∧
      (op = .reset ∨ ∃ w, op = .regWrite 0x08 4 w ∧ decode w ≠ .nop ∧ s.status.busy = false) := by
  obtain ⟨op, -, -, hstep⟩ | ⟨-, -, hstep⟩ | ⟨op, rest, -, hops, hstep⟩ := step_cases s
  · rw [hstep] at h
    obtain rfl := Host.Outcome.next.inj h
    simp [hs] at ht
  · rw [hstep] at h
    obtain rfl := Host.Outcome.next.inj h
    simp [hs] at ht
  · rw [hstep] at h
    refine ⟨op, rest, hops, ?_⟩
    obtain hsame | hreset | ⟨w, hop, hexec⟩ := hostStep_status h
    · simp [hsame, hs] at ht
    · exact .inl hreset
    · obtain ⟨hnop, hidle⟩ := exec_clears_drop hexec hs ht
      exact .inr ⟨w, hop, hnop, hidle⟩

/-- Settles O12: a busy word is `exec_busy`, the completion keeps DROP (`completeJob_status`), and `step_clears_drop` says
what clears it. -/
theorem busyWordIsDropped : Obligations.BusyWordIsDropped := by
  refine ⟨fun s i hbusy => exec_busy i hbusy, fun s op hinv hj hdrop hdelay => ?_,
    fun s t _ => step_clears_drop⟩
  exact ⟨completeJob op s, step_completes hj hdelay, by rw [completeJob_status, hdrop],
    completeJob_statusWord_of_drop hinv hj hdrop, completeJob_job op s⟩

end Sys2Proof.Machine
end

section
/-! Decoding and encoding of command words undo each other, and the bytes a word lies in (30_encoding.md R70, R71, R74). -/

namespace Sys2Proof.Machine

/-! ### The fields and the word -/

theorem commandWord_toNat (op : BitVec 4) (rsvd : BitVec 28) :
    (commandWord op rsvd).toNat = 16 * rsvd.toNat + op.toNat :=
  toNat_append_add rsvd op

@[simp] theorem commandWord_fields (w : Word) : commandWord (opField w) (rsvdField w) = w := by
  apply BitVec.eq_of_toNat_eq
  rw [commandWord_toNat, opField_toNat, rsvdField_toNat]
  omega

@[simp] theorem opField_commandWord (op : BitVec 4) (rsvd : BitVec 28) : opField (commandWord op rsvd) = op := by
  apply BitVec.eq_of_toNat_eq
  rw [opField_toNat, commandWord_toNat]
  omega

@[simp] theorem rsvdField_commandWord (op : BitVec 4) (rsvd : BitVec 28) :
    rsvdField (commandWord op rsvd) = rsvd := by
  apply BitVec.eq_of_toNat_eq
  rw [rsvdField_toNat, commandWord_toNat]
  omega

/-- The words that are no command are those whose fields an illegal term may hold (30_encoding.md R74). -/
theorem illegalFields_iff (w : Word) :
    illegalFields (opField w) (rsvdField w) = true ↔ 5 ≤ w.toNat % 16 ∨ w.toNat / 16 ≠ 0 := by
  rw [illegalFields, Bool.or_eq_true, decide_eq_true_eq, decide_eq_true_eq, opField_toNat, rsvdField_ne_zero_iff]

/-! ### The round trips -/

theorem decode_encode {i : Instr} (h : i.wellFormed = true) : decode (encode i) = i := by
  cases i with
  | nop | convert | reorder | pack | clear => decide
  | illegal op rsvd =>
    have hfields := illegalFields_iff (commandWord op rsvd)
    rw [opField_commandWord, rsvdField_commandWord] at hfields
    rw [encode, decode_eq_illegal (hfields.1 h), opField_commandWord, rsvdField_commandWord]

/-- The five words below 5, one by one. -/
theorem encode_decode_ofNat_command :
    ∀ n < 5, (decode (BitVec.ofNat 32 n)).wellFormed = true ∧
      encode (decode (BitVec.ofNat 32 n)) = BitVec.ofNat 32 n := by
  decide

theorem encode_decode (w : Word) : (decode w).wellFormed = true ∧ encode (decode w) = w := by
  by_cases h : 5 ≤ w.toNat % 16 ∨ w.toNat / 16 ≠ 0
  · rw [decode_eq_illegal h]
    exact ⟨(illegalFields_iff w).2 h, commandWord_fields w⟩
  · have := encode_decode_ofNat_command w.toNat (by omega)
    rwa [BitVec.ofNat_toNat, BitVec.setWidth_eq] at this

/-- Settles O2: a word is its two fields (`commandWord_fields`), and the illegal row keeps both of them. -/
theorem decodeInvertsEncode : Obligations.DecodeInvertsEncode :=
  ⟨fun _ => decode_encode, encode_decode⟩

/-- Settles O1, by evaluation of the nine words. -/
theorem opcodeMapWordsDecode : Obligations.OpcodeMapWordsDecode := by
  unfold Obligations.OpcodeMapWordsDecode
  decide

/-! ### The bytes of a word -/

theorem lane_eq_ofNat (w : Word) (k : Nat) : lane w k = BitVec.ofNat 8 (w.toNat / 2 ^ (8 * k)) := by
  rw [lane, BitVec.extractLsb', Nat.shiftRight_eq_div_pow]

theorem decodeBytes_wordBytes (w : Word) (rest : List Byte) :
    decodeBytes (wordBytes w ++ rest) = .ok (decode w, rest) := by
  simp [wordBytes, decodeBytes]

theorem decodeBytes_truncated_iff (bs : List Byte) : decodeBytes bs = .error .truncated ↔ bs.length < 4 := by
  rcases bs with _ | ⟨b0, _ | ⟨b1, _ | ⟨b2, _ | ⟨b3, rest⟩⟩⟩⟩ <;> simp [decodeBytes]

/-- Settles O4: the four bytes are the word's lanes. -/
theorem commandBytesAreLittleEndian : Obligations.CommandBytesAreLittleEndian := by
  refine ⟨fun w rest => ?_, decodeBytes_truncated_iff⟩
  have h := decodeBytes_wordBytes w rest
  simpa [wordBytes, lane_eq_ofNat] using h

end Sys2Proof.Machine
end

section
/-! The checks of a job command at acceptance: which pass, which error each reports, and what then starts
(60_exceptions.md R181, 44_commands.md R160, R161). -/

namespace Sys2Proof.Machine

/-! ### The checks one by one -/

/-- The dimensions a job's command asks for (60_exceptions.md R181). -/
def JobDims : JobOp → State → Prop
  | .convert, s => RowDims s
  | .reorder, s => RowDims s
  | .pack, s => s.srcLen.toNat % 64 = 0

theorem outputLength_eq (op : JobOp) (s : State) : outputLength op s = jobBytes op * jobTiles op s := by
  cases op <;> rfl

theorem tilesOf_eq (op : JobOp) (s : State) : tilesOf op s = jobTiles op s := by
  cases op <;> rfl

theorem jobReady_iff (op : JobOp) (s : State) :
    JobReady op s ↔ JobDims op s ∧ RegionsFit s (jobBytes op * jobTiles op s) := by
  cases op <;> rfl

theorem checkRows_ok_iff (s : State) : checkRows s = .ok () ↔ RowDims s := by
  refine ⟨checkRows_ok, fun ⟨hpos, hlen, hwidth, hrows⟩ => ?_⟩
  rw [checkRows, if_neg hpos.ne', if_neg (not_not.2 hlen), if_neg (not_not.2 hwidth)]
  exact if_neg (not_not.2 hrows)

theorem checkTiles_ok_iff (s : State) : checkTiles s = .ok () ↔ s.srcLen.toNat % 64 = 0 := by
  by_cases h : s.srcLen.toNat % 64 = 0 <;> simp [checkTiles, h]

theorem checkDims_ok_iff (op : JobOp) (s : State) : checkDims op s = .ok () ↔ JobDims op s := by
  cases op with
  | convert => exact checkRows_ok_iff s
  | reorder => exact checkRows_ok_iff s
  | pack => exact checkTiles_ok_iff s

theorem check_of_dims_error {op : JobOp} {s : State} {e : BlockError} (h : checkDims op s = .error e) :
    check op s = .error e := by
  rw [check, h]

/-- Once the dimensions pass, the command is left with its region checks. -/
theorem check_of_dims {op : JobOp} {s : State} (h : JobDims op s) :
    check op s = (checkRegions op s).map fun _ => tilesOf op s := by
  rw [check, (checkDims_ok_iff op s).2 h]
  cases checkRegions op s <;> rfl

theorem overlaps_iff_sharesByte (op : JobOp) (s : State) :
    (dstRegion op s).overlaps s.srcRegion = true ↔ SharesByte s (jobBytes op * jobTiles op s) := by
  rw [region_overlaps_iff, ← outputLength_eq]
  rfl

theorem memorySize_eq : Config.memorySize = 2 ^ 32 := rfl

theorem checkRegions_srcRange {op : JobOp} {s : State} (h : 2 ^ 32 < s.srcBase.toNat + s.srcLen.toNat) :
    checkRegions op s = .error .srcRange := if_pos h

theorem checkRegions_dstRange {op : JobOp} {s : State} (hsrc : s.srcBase.toNat + s.srcLen.toNat ≤ 2 ^ 32)
    (hdst : 2 ^ 32 < s.dstBase.toNat + outputLength op s) : checkRegions op s = .error .dstRange := by
  rw [checkRegions, memorySize_eq, if_neg (not_lt.2 hsrc), if_pos hdst]

/-- In range, a command is left with the overlap check. -/
theorem checkRegions_of_inRange {op : JobOp} {s : State} (h : InRange s (outputLength op s)) :
    checkRegions op s = if (dstRegion op s).overlaps s.srcRegion then .error .overlap else .ok () := by
  obtain ⟨hsrc, hdst⟩ := h
  rw [checkRegions, memorySize_eq, if_neg (not_lt.2 hsrc), if_neg (not_lt.2 hdst)]

/-! ### The checks together -/

theorem check_ok {op : JobOp} {s : State} (hdims : JobDims op s)
    (hrange : InRange s (jobBytes op * jobTiles op s)) (hshare : ¬SharesByte s (jobBytes op * jobTiles op s)) :
    check op s = .ok (jobTiles op s) := by
  rw [← overlaps_iff_sharesByte] at hshare
  rw [← outputLength_eq] at hrange
  rw [check_of_dims hdims, checkRegions_of_inRange hrange, if_neg hshare, tilesOf_eq]
  rfl

theorem JobReady.check {op : JobOp} {s : State} (h : JobReady op s) :
    check op s = .ok (jobTiles op s) := by
  obtain ⟨hdims, hrange, hshare, -⟩ := (jobReady_iff op s).1 h
  exact check_ok hdims hrange hshare

/-- What `regionsOrdinary` computes (20_memory.md R58). -/
theorem regionsOrdinary_iff (op : JobOp) (s : State) :
    regionsOrdinary op s = true ↔ OrdinaryMemory s (jobBytes op * jobTiles op s) := by
  rw [← outputLength_eq]
  simp [regionsOrdinary, State.ordinary, OrdinaryMemory, State.srcRegion, dstRegion, forall_and]

theorem JobReady.regionsOrdinary {op : JobOp} {s : State} (h : JobReady op s) :
    regionsOrdinary op s = true := by
  obtain ⟨-, -, -, hordinary⟩ := (jobReady_iff op s).1 h
  exact (regionsOrdinary_iff op s).2 hordinary

/-! ### A job that starts -/

/-- The start of a job, on the record `clearStatus` has emptied. -/
theorem startJob_clearStatus (op : JobOp) (n : Nat) (s : State) :
    startJob op n (clearStatus s) = startedState op n s := rfl

/-- A command whose operands pass every check starts its job (44_commands.md R161). -/
theorem exec_commandOf_ready {op : JobOp} {s : State} (hb : s.status.busy = false) (h : JobReady op s) :
    exec (commandOf op) s = .next (startedState op (jobTiles op s) s) := by
  rw [exec_commandOf_idle op hb, acceptJob_ok h.check h.regionsOrdinary, startJob_clearStatus]

/-- Settles O8: a ready CONVERT is accepted (`exec_commandOf_ready`). -/
theorem convertStarts : Obligations.ConvertStarts :=
  fun _ hb hdims hfit => exec_commandOf_ready (op := .convert) hb ⟨hdims, hfit⟩

/-- Settles O9: a ready REORDER is accepted (`exec_commandOf_ready`). -/
theorem reorderStarts : Obligations.ReorderStarts :=
  fun _ hb hdims hfit => exec_commandOf_ready (op := .reorder) hb ⟨hdims, hfit⟩

/-- Settles O10: a ready PACK is accepted (`exec_commandOf_ready`), and its readiness names no row operand. -/
theorem packStarts : Obligations.PackStarts :=
  fun _ hb hdims hfit => exec_commandOf_ready (op := .pack) hb ⟨hdims, hfit⟩

/-! ### A job command that fails -/

/-- A failing check ends the command in that check's error (60_exceptions.md R184). -/
theorem exec_commandOf_error {op : JobOp} {s : State} {e : BlockError} (hb : s.status.busy = false)
    (h : check op s = .error e) : exec (commandOf op) s = .next (errorState e.code e.detail s) := by
  rw [exec_commandOf_idle op hb, acceptJob_error h, failCommand_clearStatus hb]

/-- CONVERT and REORDER make the same dimension checks. -/
theorem exec_of_checkRows_error {i : Instr} {s : State} {e : BlockError} (hi : i = .convert ∨ i = .reorder)
    (hb : s.status.busy = false) (h : checkRows s = .error e) :
    exec i s = .next (errorState e.code e.detail s) := by
  obtain rfl | rfl := hi
  · exact exec_commandOf_error (op := .convert) hb (check_of_dims_error h)
  · exact exec_commandOf_error (op := .reorder) hb (check_of_dims_error h)

/-- Settles O13: in each clause the checks before the failing one pass, so `checkRows` reports it. -/
theorem rowJobsReportFirstFailingDimension : Obligations.RowJobsReportFirstFailingDimension := by
  intro s i hi hb
  refine ⟨fun hzero => ?_, fun hpos hlen => ?_, fun hpos hlen hwidth => ?_, fun hpos hlen hwidth hrows => ?_⟩
  · exact exec_of_checkRows_error (e := .zeroWidth) hi hb (by rw [checkRows, if_pos hzero])
  · exact exec_of_checkRows_error (e := .shortRow) hi hb (by rw [checkRows, if_neg hpos.ne', if_pos hlen])
  · exact exec_of_checkRows_error (e := .widthNotTiled) hi hb
      (by rw [checkRows, if_neg hpos.ne', if_neg (not_not.2 hlen), if_pos hwidth])
  · exact exec_of_checkRows_error (e := .rowsNotTiled) hi hb
      (by rw [checkRows, if_neg hpos.ne', if_neg (not_not.2 hlen), if_neg (not_not.2 hwidth)]; exact if_pos hrows)

/-- Settles O14: the dimension check of PACK is its length's. -/
theorem packReportsPartialTile : Obligations.PackReportsPartialTile :=
  fun _ hb h => exec_commandOf_error (op := .pack) (e := .partialTile) hb (check_of_dims_error (if_pos h))

/-- Settles O15: past the dimensions the first failing region check is the error (`check_of_dims`). -/
theorem regionErrorsInOrder : Obligations.RegionErrorsInOrder := by
  intro s op len hb hlen hdims
  rw [← outputLength_eq] at hlen
  subst hlen
  have hdims : JobDims op s := by cases op <;> exact hdims
  have report : ∀ e, checkRegions op s = .error e →
      exec (commandOf op) s = .next (errorState e.code e.detail s) := fun e he =>
    exec_commandOf_error hb (by rw [check_of_dims hdims, he]; rfl)
  refine ⟨fun hsrc => ?_, fun hsrc hdst => ?_, fun hrange hshare => ?_⟩
  · exact report .srcRange (checkRegions_srcRange hsrc)
  · exact report .dstRange (checkRegions_dstRange hsrc hdst)
  · rw [outputLength_eq, ← overlaps_iff_sharesByte] at hshare
    exact report .overlap (by rw [checkRegions_of_inRange hrange, if_pos hshare])

/-- Settles O11: the opcode selects the error of an illegal word. -/
theorem illegalWordEndsInError : Obligations.IllegalWordEndsInError :=
  fun _ _ rsvd hb =>
    ⟨fun hop => exec_illegal_reservedOpcode hop rsvd hb, fun hop => exec_illegal_reservedBits hop rsvd hb⟩

/-! ### Memory with side effects -/

/-- A job command that passes its checks is refused for the memory it would touch (20_memory.md R58). -/
theorem exec_commandOf_refused {op : JobOp} {s : State} {n : Nat} (hb : s.status.busy = false)
    (hc : check op s = .ok n) (ho : ¬OrdinaryMemory s (jobBytes op * jobTiles op s)) :
    exec (commandOf op) s = .refused .sideEffectRegion := by
  rw [← regionsOrdinary_iff] at ho
  rw [exec_commandOf_idle op hb]
  simp [acceptJob, hc, ho]

/-- An accepted job command answers a next state, or is refused for the memory it would touch. -/
theorem exec_commandOf_cases (op : JobOp) {s : State} (hb : s.status.busy = false) :
    (∃ t, exec (commandOf op) s = .next t) ∨
      ∃ n, check op s = .ok n ∧ ¬OrdinaryMemory s (jobBytes op * jobTiles op s) := by
  cases hc : check op s with
  | error e => exact .inl ⟨_, exec_commandOf_error hb hc⟩
  | ok n =>
    by_cases ho : OrdinaryMemory s (jobBytes op * jobTiles op s)
    · rw [exec_commandOf_idle op hb, acceptJob_ok hc ((regionsOrdinary_iff op s).2 ho)]
      exact .inl ⟨_, rfl⟩
    · exact .inr ⟨n, rfl, ho⟩

/-- Every command answers a next state, or is an accepted job command that passes its checks and would touch memory
with side effects. -/
theorem exec_cases (i : Instr) (s : State) :
    (∃ t, exec i s = .next t) ∨
      (s.status.busy = false ∧
        ∃ op n, i = commandOf op ∧ check op s = .ok n ∧ ¬OrdinaryMemory s (jobBytes op * jobTiles op s)) := by
  cases hb : s.status.busy with
  | true => exact .inl ⟨_, exec_busy i hb⟩
  | false =>
    cases i with
    | nop => exact .inl ⟨_, exec_nop_idle hb⟩
    | clear => exact .inl ⟨_, exec_clear_idle hb⟩
    | illegal op rsvd => exact .inl ⟨_, exec_illegal_idle op rsvd hb⟩
    | convert => exact (exec_commandOf_cases .convert hb).imp_right fun ⟨n, h⟩ => ⟨rfl, .convert, n, rfl, h⟩
    | reorder => exact (exec_commandOf_cases .reorder hb).imp_right fun ⟨n, h⟩ => ⟨rfl, .reorder, n, rfl, h⟩
    | pack => exact (exec_commandOf_cases .pack hb).imp_right fun ⟨n, h⟩ => ⟨rfl, .pack, n, rfl, h⟩

theorem ordinaryMemory_of_no_devices {s : State} (h : s.devices = []) (len : Nat) : OrdinaryMemory s len := by
  simp [OrdinaryMemory, h]

theorem sideEffectAt_of_device {s : State} {d : Region} {a : Nat} (hd : d ∈ s.devices) (ha : d.holds a = true) :
    s.sideEffectAt a = true :=
  List.any_eq_true.2 ⟨d, hd, ha⟩

/-- A host access to existing memory with side effects is refused (log 7). -/
theorem hostMemory_refused {s : State} {a : Nat} (ha : a < 2 ^ 32) (h : s.sideEffectAt a = true) (v : Byte) :
    hostMemWrite a v s = .refused (.sideEffectAccess a) ∧ hostMemRead a s = .refused (.sideEffectAccess a) := by
  have hspace : ¬Config.memorySize ≤ a := not_le.2 ha
  simp [hostMemWrite, hostMemRead, hspace, h]

/-- Settles O52: of the two cases of `exec_cases` only the second is a refusal (`exec_commandOf_refused`), and it needs
a region with side effects. -/
theorem sideEffectMemoryIsRefused : Obligations.SideEffectMemoryIsRefused := by
  refine ⟨fun s op n => exec_commandOf_refused, fun s i r h => ?refusal, fun s i f h => ?fault,
    fun s a v d ha hd hold => hostMemory_refused ha (sideEffectAt_of_device hd hold) v, fun s i hdev => ?total⟩
  case refusal =>
    obtain ⟨t, ht⟩ | ⟨hb, op, n, rfl, hc, ho⟩ := exec_cases i s
    · simp [ht] at h
    · rw [exec_commandOf_refused hb hc ho] at h
      exact ⟨(Host.Outcome.refused.inj h).symm, hb, op, n, rfl, hc, ho⟩
  case fault =>
    obtain ⟨t, ht⟩ | ⟨hb, op, n, rfl, hc, ho⟩ := exec_cases i s
    · simp [ht] at h
    · simp [exec_commandOf_refused hb hc ho] at h
  case total =>
    obtain ht | ⟨-, op, n, -, -, ho⟩ := exec_cases i s
    · exact ht
    · exact absurd (ordinaryMemory_of_no_devices hdev _) ho

end Sys2Proof.Machine
end

section
/-! The register window and single host operations, one step each (10_state.md R22 to R36, 30_encoding.md R76). -/

namespace Sys2Proof.Machine

/-! ### The words of the window -/

/-- CTRL's two bits at their weights (10_state.md R24). -/
theorem ctrlWord_toNat (c : Ctrl) : c.word.toNat = c.rowOrder.toNat + 2 * c.ie.toNat := by
  simp only [Ctrl.word, flagBit, toNat_append_add, BitVec.toNat_ofBool, BitVec.ofNat_eq_ofNat,
    BitVec.toNat_ofNat, Nat.zero_mod]
  ring

/-- The window, word by word (10_state.md R22). -/
theorem registerFile_eq (s : State) :
    registerFile s =
      [Config.idWord, s.ctrl.word, 0, s.status.word, s.srcBase, s.srcLen, s.dstBase, s.rowWidth,
        s.tileCount, s.outLen, 0, 0, 0, 0, 0, 0] := rfl

/-- Settles O37: the window is the registers in their order. -/
theorem registerMapReads : Obligations.RegisterMapReads :=
  fun s => ⟨registerFile_eq s, ctrlWord_toNat s.ctrl⟩

/-- The window when every register holds its reset value (10_state.md R43). -/
theorem registerFile_resetRegisters (s : State) :
    registerFile (resetRegisters s) = [0x42500001, 0, 0, 0, 0, 0, 0, 0x80, 0, 0, 0, 0, 0, 0, 0, 0] := by
  have hreset : registerFile (resetRegisters s) = registerFile State.reset := rfl
  rw [hreset]
  decide

/-- Settles O29: the reset state is its own reset. -/
theorem resetValuesReadBack : Obligations.ResetValuesReadBack :=
  ⟨registerFile_resetRegisters State.reset, rfl, irq_resetRegisters State.reset⟩

/-- Settles O47: nothing is stored, flagged or running after reset. -/
theorem resetMeetsInvariant : Obligations.ResetMeetsInvariant :=
  { memWf := reset_mem_wf
    memSpace := rfl
    busyJob := rfl
    exclusive := by simp [Status.exclusive, State.reset, Status.zero]
    record := by simp [Status.recordLegal, State.reset, Status.zero]
    dropJob := by simp [State.reset, Status.zero]
    errCounts := by simp [State.reset]
    jobOk := by simp [State.reset]
    racedJob := by simp [State.reset] }

/-! ### Register accesses -/

/-- A 32-bit write of a named register other than CMD with BUSY = 0 (10_state.md R24, R28, R29). -/
theorem hostStep_write_idle {r : Reg} (hr : r ≠ .cmd) (v : Word) {s : State} (hb : s.status.busy = false) :
    hostStep (.regWrite r.offset 4 v) s = .next (storeReg r v s) := by
  have hwrite : hostStep (.regWrite r.offset 4 v) s = .next (writeReg r v s) := by
    cases r with
    | cmd => exact absurd rfl hr
    | id | ctrl | status | srcBase | srcLen | dstBase | rowWidth | tileCount | outLen => rfl
  simp [hwrite, writeReg, hb]

/-- Settles O40: each of the five writes is `hostStep_write_idle` at its register. -/
theorem operandWritesTakeEffect : Obligations.OperandWritesTakeEffect := by
  intro s v hb
  exact ⟨hostStep_write_idle (r := .ctrl) (by decide) v hb, hostStep_write_idle (r := .srcBase) (by decide) v hb,
    hostStep_write_idle (r := .srcLen) (by decide) v hb, hostStep_write_idle (r := .dstBase) (by decide) v hb,
    hostStep_write_idle (r := .rowWidth) (by decide) v hb⟩

/-- Settles O38: the step is the host's, and a read only notes what it saw (`hostRegRead_eq`). -/
theorem registerReadHasNoSideEffect : Obligations.RegisterReadHasNoSideEffect := by
  intro s off size rest hc hops
  exact step_host hc hops

/-- Settles O46: the two branches of each waiting operation. -/
theorem pollRepeatsUntilValue : Obligations.PollRepeatsUntilValue := by
  refine ⟨fun s off mask v => ?_, fun s => ⟨fun h => ?_, fun h => ?_⟩⟩
  · by_cases h : readWindow off 4 s &&& mask = v <;> simp [hostStep, hostPoll, h, hostRegRead, noteRead, keepHostOp]
  · exact congrArg Host.Outcome.next (if_pos h)
  · exact congrArg Host.Outcome.next (if_neg (Bool.not_eq_true _ ▸ h))

/-! ### A step that presents a word, and a step of an ended run -/

theorem tableWord_of_toNat (w : Word) : tableWord 32 w.toNat = w := by
  rw [tableWord, Nat.mod_eq_of_lt w.isLt, BitVec.ofNat_toNat, BitVec.setWidth_eq]

theorem step_cmd_write {s : State} {w : Word} {rest : List HostOp} (hc : s.completesNow = false)
    (hops : s.hostOps = .regWrite 0x08 4 w :: rest) : step s = exec (decode w) (s.hostMoves rest) := by
  rw [step_host hc hops]
  exact hostRegWrite_cmd w _

/-- `withCommand` leaves a running job at least one host step. -/
theorem completesNow_withCommand (w : Word) (s : State) : (withCommand w s).completesNow = false := by
  simp only [State.completesNow, withCommand_job, withCommand_delay]
  cases s.job.isSome with
  | false => rfl
  | true => cases h : s.delay == 0 <;> simp_all

/-- Settles O5: the step of a CMD write is `step_cmd_write`, and `withFetchWord` puts one at the front of the list. -/
theorem stepPresentsCommandWord : Obligations.StepPresentsCommandWord := by
  refine ⟨fun s w rest => step_cmd_write, fun s w => ?_⟩
  rw [State.withFetchWord, tableWord_of_toNat]
  refine ⟨((withCommand w s).hostMoves s.hostOps).delay,
    step_cmd_write (completesNow_withCommand w s) (withCommand_hostOps w s), fun hj => ?_⟩
  simp [hj]

theorem State.completesNow_of_no_job {s : State} (h : s.job = none) : s.completesNow = false := by
  simp [State.completesNow, h]

/-- With no job there is no countdown to move: the host's turn only takes its operation off the list. -/
theorem hostMoves_of_no_job {s : State} (h : s.job = none) (rest : List HostOp) :
    s.hostMoves rest = { s with hostOps := rest } := by
  simp [State.hostMoves, h]

/-- Settles O54: with nothing left and no job, the host's turn changes nothing (`step_host_idle`). -/
theorem endedRunStays : Obligations.EndedRunStays := by
  intro s h
  simp only [State.ended, Bool.and_eq_true, List.isEmpty_iff, Option.isNone_iff_eq_none] at h
  obtain ⟨hops, hj⟩ := h
  rw [step_host_idle (State.completesNow_of_no_job hj) hops, hostMoves_of_no_job hj, ← hops]

/-! ### Accesses to data memory -/

/-- A host write that breaks no duty (20_memory.md R62). -/
theorem hostMemWrite_plain {s : State} {a : Nat} (ha : a < 2 ^ 32) (hs : s.sideEffectAt a = false)
    (hr : s.jobReads a = false) (hw : s.jobWrites a = false) (v : Byte) :
    hostMemWrite a v s = .next { s with mem := memWrite s.mem a v } := by
  have hspace : ¬Config.memorySize ≤ a := not_le.2 ha
  simp [hostMemWrite, hspace, hs, hr, hw]

theorem hostMemory_fault {a : Nat} (ha : 2 ^ 32 ≤ a) (v : Byte) (s : State) :
    hostMemWrite a v s = .fault (.noSuchAddress a) ∧ hostMemRead a s = .fault (.noSuchAddress a) :=
  ⟨if_pos ha, if_pos ha⟩

/-- Settles O53: the plain write and read, and the fault above the address space. -/
theorem hostMemoryAccesses : Obligations.HostMemoryAccesses :=
  ⟨fun s a v hinv hr hw ha hs =>
      ⟨memWrite s.mem a v, hostMemWrite_plain ha hs hr hw v, fun b => memRead_memWrite hinv.memWf a b v⟩,
    fun _ _ hw ha hs => hostMemRead_plain ha hs hw,
    fun s _ v ha => hostMemory_fault ha v s⟩

/-! ### The bytes of a tile -/

theorem tile_length (s : State) (t : Nat) : (s.tile t).length = 64 := by
  simp [State.tile, Config.tileBytes]

/-- The address of a pixel is that of its column in its stored row. -/
theorem srcAddr_eq (s : State) (t r c : Nat) :
    s.srcAddr t r c =
      s.srcBase.toNat + srcRow s.ctrl.rowOrder s.rows (8 * (t / (s.rowWidth.toNat / 8)) + r) * s.rowWidth.toNat +
        (8 * (t % (s.rowWidth.toNat / 8)) + c) := by
  rw [State.srcAddr, srcOff_eq, Nat.add_assoc]

/-- Settles O33: a tile lists its pixels in row-major order (`tile_getD`), and `srcAddr` is the address `norm` reads. -/
theorem tileBytesAreNormalizedPixels : Obligations.TileBytesAreNormalizedPixels := by
  intro s t r c hr hc
  have hlen : 8 * r + c < (s.tile t).length := by rw [tile_length]; omega
  rw [List.getElem?_eq_getElem hlen, ← List.getD_eq_getElem _ 0 hlen, tile_getD s t hr hc, srcAddr_eq]
  rfl

end Sys2Proof.Machine
end

section
/-! The memory each job leaves, its completion in one step, and what the blocks it wrote depend on (44_commands.md R163
to R167, 42_tile_reorder.md R127, 43_bitplane_pack.md R148). -/

namespace Sys2Proof.Machine

/-! ### Loops of block-writing turns -/

/-- A loop whose turn `t` writes bytes `len * t` to `len * t + len - 1` of one block writes that block. -/
theorem forUp_writesBlock_join {n base len : Nat} {body : Nat → Memory → Memory} {m : Memory} (g : Nat → Byte)
    (hm : Memory.wf m = true) (hwf : ∀ t m', Memory.wf m' = true → Memory.wf (body t m') = true)
    (hbody : ∀ t m', t < n → Memory.wf m' = true →
      (∀ a, ¬(base ≤ a ∧ a < base + len * n) → memRead m' a = memRead m a) →
      WritesBlock (base + len * t) len (fun i => g (len * t + i)) m' (body t m')) :
    WritesBlock base (len * n) g m (forUp n body m) := by
  obtain ⟨hblock, hframe⟩ := forUp_writesBlock (fun t i => g (len * t + i)) hm
    fun t m' ht hm' hframe => ⟨hwf t m' hm', hbody t m' ht hm' hframe⟩
  refine ⟨fun i hi => ?_, hframe⟩
  have hpos : 0 < len := Nat.pos_of_ne_zero fun h0 => by simp [h0] at hi
  have := hblock (i / len) (Nat.div_lt_of_lt_mul hi) (i % len) (Nat.mod_lt i hpos)
  rwa [Nat.add_assoc, Nat.div_add_mod] at this

theorem memWrite_writesBlock {m : Memory} (hm : Memory.wf m = true) (a : Nat) (v : Byte) {f : Nat → Byte}
    (hv : v = f 0) : WritesBlock a 1 f m (memWrite m a v) := by
  refine ⟨fun i hi => ?_, fun b hb => memRead_memWrite_other m v (by omega)⟩
  obtain rfl : i = 0 := by omega
  rw [Nat.add_zero, memRead_memWrite_same hm, hv]

/-! ### The memory REORDER leaves -/

/-- One turn of REORDER's innermost loop: one pixel is copied. -/
def reorderByte (s : State) (t r c : Nat) (m : Memory) : Memory :=
  memWrite m (s.dstBase.toNat + 64 * t + 8 * r + c) (memRead m (s.srcAddr t r c))

theorem reorderLoop_eq (s : State) :
    reorderLoop s = forUp (tilesOf .reorder s) (fun t => forUp 8 fun r => forUp 8 (reorderByte s t r)) s.mem := rfl

theorem reorderRow_wf {m : Memory} (hm : Memory.wf m = true) (s : State) (t r : Nat) :
    Memory.wf (forUp 8 (reorderByte s t r) m) = true :=
  forUp_wf hm fun _ _ h => memWrite_wf h _ _

/-- The two inner loops copy the tile when no byte they write is one of the tile's source bytes. -/
theorem reorderTile_writesBlock {s : State} {m : Memory} (hm : Memory.wf m = true) {t : Nat}
    (hsrc : ∀ r < 8, ∀ c < 8, memRead m (s.srcAddr t r c) = memRead s.mem (s.srcAddr t r c))
    (hdisj : ∀ r < 8, ∀ c < 8, ¬(s.dstBase.toNat + 64 * t ≤ s.srcAddr t r c ∧
      s.srcAddr t r c < s.dstBase.toNat + 64 * t + 64)) :
    WritesBlock (s.dstBase.toNat + 64 * t) 64 (fun i => (s.tile t).getD i 0) m
      (forUp 8 (fun r => forUp 8 (reorderByte s t r)) m) := by
  refine forUp_writesBlock_join (n := 8) (len := 8) _ hm (fun r m' h => reorderRow_wf h s t r)
    fun r m' hr hm' hframe => ?_
  refine forUp_writesBlock_join (n := 8) (len := 1) _ hm' (fun c m'' h => memWrite_wf h _ _)
    fun c m'' hc hm'' hframe' => ?_
  have hout := hdisj r hr c hc
  rw [Nat.one_mul]
  refine memWrite_writesBlock hm'' _ _ ?_
  rw [hframe' _ (by omega), hframe _ (by omega), hsrc r hr c hc]
  exact (tile_getD s t hr hc).symm

/-! ### The memory PACK leaves -/

/-- One turn of PACK's loop: a tile is read, packed and written. -/
def packTurn (s : State) (t : Nat) (m : Memory) : Memory :=
  forUp 16 (fun i m' => memWrite m' (s.dstBase.toNat + 16 * t + i)
    ((packTile (memBytes m (s.srcBase.toNat + 64 * t) 64)).getD i 0)) m

theorem packLoop_eq (s : State) : packLoop s = forUp (tilesOf .pack s) (packTurn s) s.mem := rfl

theorem packTurn_wf {m : Memory} (hm : Memory.wf m = true) (s : State) (t : Nat) :
    Memory.wf (packTurn s t m) = true :=
  forUp_wf hm fun _ _ h => memWrite_wf h _ _

theorem memBytes_congr {m m' : Memory} {base base' len : Nat}
    (h : ∀ i < len, memRead m (base + i) = memRead m' (base' + i)) : memBytes m base len = memBytes m' base' len :=
  List.map_congr_left fun i hi => h i (List.mem_range.1 hi)

/-- A turn writes the packed tile when the memory it finds has the tile's source bytes as the job found them. -/
theorem packTurn_writesBlock {s : State} {m : Memory} (hm : Memory.wf m = true) {t : Nat}
    (hsrc : ∀ i < 64, memRead m (s.srcBase.toNat + 64 * t + i) = memRead s.mem (s.srcBase.toNat + 64 * t + i)) :
    WritesBlock (s.dstBase.toNat + 16 * t) 16 (fun i => (packTile (s.packedTile t)).getD i 0) m
      (packTurn s t m) := by
  have htile : memBytes m (s.srcBase.toNat + 64 * t) 64 = s.packedTile t := memBytes_congr hsrc
  rw [packTurn, htile]
  refine ⟨fun i hi => ?_, fun a ha => ?_⟩
  · rw [memRead_forUp_write hm, if_pos (by omega), Nat.add_sub_cancel_left]
  · rw [memRead_forUp_write hm, if_neg ha]

/-! ### The memory a job leaves -/

theorem jobBlock_length (op : JobOp) (s : State) (t : Nat) : (jobBlock op s t).length = jobBytes op := by
  cases op with
  | convert => exact packTile_length _
  | reorder => exact tile_length s t
  | pack => exact packTile_length _

/-- No source byte of a checked job is among those it writes. -/
theorem State.Inv.src_outside_dst {s : State} (h : s.Inv) {op : JobOp} (hj : s.job = some op) {a : Nat}
    (ha : s.srcRegion.holds a = true) :
    ¬(s.dstBase.toNat ≤ a ∧ a < s.dstBase.toNat + jobBytes op * jobTiles op s) := fun hin => by
  have hd := h.regions_disjoint hj ha
  rw [Bool.eq_false_iff, Ne, region_holds_iff] at hd
  rw [← outputLength_eq] at hin
  exact hd hin

theorem State.Inv.jobDims {s : State} (h : s.Inv) {op : JobOp} (hj : s.job = some op) : JobDims op s :=
  (checkDims_ok_iff op s).1 (check_ok_dims (h.checked hj))

/-- The tiles of PACK lie in the source region. -/
theorem srcRegion_holds_packedTile {s : State} {t i : Nat} (ht : t < lengthTiles s) (hi : i < 64) :
    s.srcRegion.holds (s.srcBase.toNat + 64 * t + i) = true := by
  unfold lengthTiles at ht
  refine (region_holds_iff _ _).2 ⟨?_, ?_⟩ <;> simp only [State.srcRegion] <;> omega

theorem reorderLoop_writes {s : State} (h : s.Inv) (hj : s.job = some .reorder) :
    (∀ t, t < rowTiles s → ∀ i, i < 64 →
      memRead (reorderLoop s) (s.dstBase.toNat + 64 * t + i) = (s.tile t).getD i 0) ∧
      ∀ a, ¬(s.dstBase.toNat ≤ a ∧ a < s.dstBase.toNat + 64 * rowTiles s) →
        memRead (reorderLoop s) a = memRead s.mem a := by
  have hdims : RowDims s := h.jobDims hj
  rw [reorderLoop_eq, tilesOf_eq]
  refine forUp_writesBlock (fun t i => (s.tile t).getD i 0) h.memWf fun t m ht hwf hframe => ?_
  have hout : ∀ r < 8, ∀ c < 8, ¬(s.dstBase.toNat ≤ s.srcAddr t r c ∧
      s.srcAddr t r c < s.dstBase.toNat + 64 * rowTiles s) := fun r hr c hc =>
    h.src_outside_dst hj (hdims.srcRegion_holds_srcAddr ht hr hc)
  have hlast : t < rowTiles s := ht
  refine ⟨forUp_wf hwf fun r m' h => reorderRow_wf h s t r, reorderTile_writesBlock hwf ?_ ?_⟩
  · exact fun r hr c hc => hframe _ (hout r hr c hc)
  · exact fun r hr c hc hin => hout r hr c hc (by omega)

theorem packLoop_writes {s : State} (h : s.Inv) (hj : s.job = some .pack) :
    (∀ t, t < lengthTiles s → ∀ i, i < 16 →
      memRead (packLoop s) (s.dstBase.toNat + 16 * t + i) = (packTile (s.packedTile t)).getD i 0) ∧
      ∀ a, ¬(s.dstBase.toNat ≤ a ∧ a < s.dstBase.toNat + 16 * lengthTiles s) →
        memRead (packLoop s) a = memRead s.mem a := by
  rw [packLoop_eq, tilesOf_eq]
  refine forUp_writesBlock (fun t i => (packTile (s.packedTile t)).getD i 0) h.memWf fun t m ht hwf hframe => ?_
  refine ⟨packTurn_wf hwf s t, packTurn_writesBlock hwf fun i hi => ?_⟩
  exact hframe _ (h.src_outside_dst hj (srcRegion_holds_packedTile ht hi))

/-- A job writes its blocks one after the other into the destination, and nothing else (44_commands.md R163). -/
theorem jobMemory_writes {s : State} (h : s.Inv) {op : JobOp} (hj : s.job = some op) :
    (∀ t, t < jobTiles op s → ∀ i, i < jobBytes op →
      memRead (jobMemory op s) (s.dstBase.toNat + jobBytes op * t + i) = (jobBlock op s t).getD i 0) ∧
      ∀ a, ¬(s.dstBase.toNat ≤ a ∧ a < s.dstBase.toNat + jobBytes op * jobTiles op s) →
        memRead (jobMemory op s) a = memRead s.mem a := by
  cases op with
  | convert => exact convertLoop_writes h hj
  | reorder => exact reorderLoop_writes h hj
  | pack => exact packLoop_writes h hj

theorem memBytes_eq_of_getD {m : Memory} {base len : Nat} {l : List Byte} (hlen : l.length = len)
    (h : ∀ i < len, memRead m (base + i) = l.getD i 0) : memBytes m base len = l := by
  subst hlen
  refine List.ext_getElem (by simp [memBytes]) fun i _ hi => ?_
  simp [memBytes, h i hi, hi]

theorem memBytes_jobMemory {s : State} (h : s.Inv) {op : JobOp} (hj : s.job = some op) {t : Nat}
    (ht : t < jobTiles op s) :
    memBytes (jobMemory op s) (s.dstBase.toNat + jobBytes op * t) (jobBytes op) = jobBlock op s t :=
  memBytes_eq_of_getD (jobBlock_length op s t) ((jobMemory_writes h hj).1 t ht)

/-! ### Completion -/

/-- The completion of a job whose host kept its duties (44_commands.md R166). -/
theorem step_completes_dutiful {s : State} {op : JobOp} (hj : s.job = some op) (hd : s.delay = 0)
    (hr : s.raced = false) :
    step s = .next (doneState (jobBytes op * jobTiles op s) (jobMemory op s) s) := by
  rw [step_completes hj hd, completeJob_dutiful hr, outputLength_eq]
  rfl

/-- A completion in one step: the done state, with the job's blocks in the destination and nothing else changed. -/
theorem step_delivers {s : State} (h : s.Inv) {op : JobOp} (hj : s.job = some op) (hd : s.delay = 0)
    (hr : s.raced = false) :
    ∃ m, step s = .next (doneState (jobBytes op * jobTiles op s) m s) ∧
      (∀ i, i < jobTiles op s →
        memBytes m (s.dstBase.toNat + jobBytes op * i) (jobBytes op) = jobBlock op s i) ∧
      ∀ a, ¬(s.dstBase.toNat ≤ a ∧ a < s.dstBase.toNat + jobBytes op * jobTiles op s) →
        memRead m a = memRead s.mem a :=
  ⟨jobMemory op s, step_completes_dutiful hj hd hr, fun _ hi => memBytes_jobMemory h hj hi,
    (jobMemory_writes h hj).2⟩

/-- Settles O19: `step_delivers` for CONVERT, whose loop is `convertLoop_writes`. -/
theorem convertWritesPackedTiles : Obligations.ConvertWritesPackedTiles :=
  fun _ h hj hd hr => step_delivers h hj hd hr

/-- Settles O20: `step_delivers` for REORDER, whose loop is `reorderLoop_writes`. -/
theorem reorderWritesTiles : Obligations.ReorderWritesTiles :=
  fun _ h hj hd hr => step_delivers h hj hd hr

/-- Settles O21: `step_delivers` for PACK, whose loop is `packLoop_writes`. -/
theorem packWritesPackedTiles : Obligations.PackWritesPackedTiles :=
  fun _ h hj hd hr => step_delivers h hj hd hr

end Sys2Proof.Machine
end

section
/-! What a job's output depends on, and CONVERT as PACK after REORDER (44_commands.md R167). -/

namespace Sys2Proof.Machine

/-! ### The length of the output -/

/-- The tiles of a row job hold its source bytes (42_tile_reorder.md R122). -/
theorem RowDims.tileBytes_eq_srcLen {s : State} (h : RowDims s) : 64 * rowTiles s = s.srcLen.toNat := by
  have harea := h.rows_mul_rowWidth
  obtain ⟨-, -, hwidth, hrows⟩ := h
  rw [← harea]
  exact tiles_mul_tileBytes hwidth hrows

/-- No job writes more bytes than it reads. -/
theorem JobDims.output_le_srcLen {op : JobOp} {s : State} (h : JobDims op s) :
    jobBytes op * jobTiles op s ≤ s.srcLen.toNat := by
  cases op with
  | convert =>
    have := RowDims.tileBytes_eq_srcLen h
    simp only [jobBytes, jobTiles]
    omega
  | reorder => exact (RowDims.tileBytes_eq_srcLen h).le
  | pack =>
    simp only [jobBytes, jobTiles, lengthTiles]
    omega

/-- So OUT_LEN holds the output's length in full. -/
theorem JobDims.outLen_toNat {op : JobOp} {s : State} (h : JobDims op s) :
    (BitVec.ofNat 32 (jobBytes op * jobTiles op s)).toNat = jobBytes op * jobTiles op s := by
  have hle := h.output_le_srcLen
  rw [BitVec.toNat_ofNat, Nat.mod_eq_of_lt (by omega)]

/-! ### Tiles and blocks as functions of the source bytes -/

/-- Tiles of two images of the same shape whose source bytes agree. -/
theorem tile_congr {s s' : State} (hdims : RowDims s) (hlen : s'.srcLen = s.srcLen)
    (hwidth : s'.rowWidth = s.rowWidth) (horder : s'.ctrl.rowOrder = s.ctrl.rowOrder)
    (hsrc : ∀ i, i < s.srcLen.toNat →
      memRead s'.mem (s'.srcBase.toNat + i) = memRead s.mem (s.srcBase.toNat + i))
    {t : Nat} (ht : t < rowTiles s) : s'.tile t = s.tile t := by
  refine eq_of_getD_eight_mul_add (n := 8) (tile_length s' t) (tile_length s t) fun r c hr hc => ?_
  have hrows : s'.rows = s.rows := by rw [State.rows, State.rows, hlen, hwidth]
  have hin := (region_holds_iff _ _).1 (hdims.srcRegion_holds_srcAddr ht hr hc)
  rw [tile_getD s' t hr hc, tile_getD s t hr hc]
  rw [State.srcAddr, hrows, hwidth, horder]
  exact hsrc _ (Nat.lt_of_add_lt_add_left hin.2)

theorem packedTile_congr {s s' : State}
    (hsrc : ∀ i, i < s.srcLen.toNat →
      memRead s'.mem (s'.srcBase.toNat + i) = memRead s.mem (s.srcBase.toNat + i))
    {t : Nat} (ht : t < lengthTiles s) : s'.packedTile t = s.packedTile t := by
  refine memBytes_congr fun i hi => ?_
  unfold lengthTiles at ht
  rw [Nat.add_assoc, Nat.add_assoc]
  exact hsrc _ (by unfold Config.tileBytes at *; omega)

/-- A block is a function of the source bytes and of the operands its command reads. -/
theorem jobBlock_congr {s s' : State} {op : JobOp} (hdims : JobDims op s) (hlen : s'.srcLen = s.srcLen)
    (hrow : op ≠ .pack → s'.rowWidth = s.rowWidth ∧ s'.ctrl.rowOrder = s.ctrl.rowOrder)
    (hsrc : ∀ i, i < s.srcLen.toNat →
      memRead s'.mem (s'.srcBase.toNat + i) = memRead s.mem (s.srcBase.toNat + i))
    {t : Nat} (ht : t < jobTiles op s) : jobBlock op s' t = jobBlock op s t := by
  cases op with
  | convert =>
    obtain ⟨hwidth, horder⟩ := hrow (by decide)
    exact congrArg packTile (tile_congr hdims hlen hwidth horder hsrc ht)
  | reorder =>
    obtain ⟨hwidth, horder⟩ := hrow (by decide)
    exact tile_congr hdims hlen hwidth horder hsrc ht
  | pack => exact congrArg packTile (packedTile_congr hsrc ht)

theorem jobTiles_congr {s s' : State} (op : JobOp) (hlen : s'.srcLen = s.srcLen)
    (hwidth : op ≠ .pack → s'.rowWidth = s.rowWidth) : jobTiles op s' = jobTiles op s := by
  cases op with
  | convert => simp only [jobTiles, rowTiles, hlen, hwidth (by decide)]
  | reorder => simp only [jobTiles, rowTiles, hlen, hwidth (by decide)]
  | pack => simp only [jobTiles, lengthTiles, hlen]

/-! ### The output of a completion -/

/-- A dutiful completion: OUT_LEN, and every destination byte by its block. -/
theorem completion_output {s t : State} (h : s.Inv) {op : JobOp} (hj : s.job = some op) (hd : s.delay = 0)
    (hr : s.raced = false) (hstep : step s = .next t) :
    t.outLen = BitVec.ofNat 32 (jobBytes op * jobTiles op s) ∧
      ∀ i, i < jobBytes op * jobTiles op s →
        memRead t.mem (s.dstBase.toNat + i) = (jobBlock op s (i / jobBytes op)).getD (i % jobBytes op) 0 := by
  rw [step_completes_dutiful hj hd hr] at hstep
  obtain rfl := Host.Outcome.next.inj hstep
  refine ⟨rfl, fun i hi => ?_⟩
  have hpos : 0 < jobBytes op := by cases op <;> decide
  have hbyte := (jobMemory_writes h hj).1 (i / jobBytes op) (Nat.div_lt_of_lt_mul hi) (i % jobBytes op)
    (Nat.mod_lt i hpos)
  rwa [Nat.add_assoc, Nat.div_add_mod] at hbyte

/-- Settles O25: output bytes are bytes of blocks (`completion_output`), and blocks are functions of the source bytes and
the operands (`jobBlock_congr`). -/
theorem outputDependsOnSourceAndOperands : Obligations.OutputDependsOnSourceAndOperands := by
  intro s s' t t' op h h' hj hj' hd hd' hr hr' hlen hrow hsrc hstep hstep'
  have hdims := h.jobDims hj
  have htiles : jobTiles op s' = jobTiles op s := jobTiles_congr op hlen fun hop => (hrow hop).1
  obtain ⟨hout, hbytes⟩ := completion_output h hj hd hr hstep
  obtain ⟨hout', hbytes'⟩ := completion_output h' hj' hd' hr' hstep'
  rw [htiles] at hout' hbytes'
  refine ⟨hout'.trans hout.symm, fun i hi => ?_⟩
  rw [hout, hdims.outLen_toNat] at hi
  rw [hbytes i hi, hbytes' i hi, jobBlock_congr hdims hlen hrow hsrc (Nat.div_lt_of_lt_mul hi)]

/-- The tiles PACK reads from where REORDER wrote them are the tiles of the image. -/
theorem packedTile_after_reorder {s1 s2 t1 : State} (h1 : s1.Inv) (hj1 : s1.job = some .reorder) (hd1 : s1.delay = 0)
    (hr1 : s1.raced = false) (hstep1 : step s1 = .next t1) (hbase : s2.srcBase = s1.dstBase)
    (hbytes : ∀ i, i < 64 * rowTiles s1 →
      memRead s2.mem (s1.dstBase.toNat + i) = memRead t1.mem (s1.dstBase.toNat + i))
    {t : Nat} (ht : t < rowTiles s1) : s2.packedTile t = s1.tile t := by
  rw [step_completes_dutiful hj1 hd1 hr1] at hstep1
  obtain rfl := Host.Outcome.next.inj hstep1
  refine Eq.trans (memBytes_congr fun i hi => ?_) (memBytes_jobMemory h1 hj1 ht)
  have hin : 64 * t + i < 64 * rowTiles s1 := by
    have hi : i < 64 := hi
    omega
  have hbyte := hbytes (64 * t + i) hin
  rw [← Nat.add_assoc] at hbyte
  rw [hbase]
  exact hbyte

/-- Settles O24: PACK's tiles are the tiles REORDER wrote (`packedTile_after_reorder`), and CONVERT packs the same ones
(`tile_congr`). -/
theorem convertIsPackAfterReorder : Obligations.ConvertIsPackAfterReorder := by
  intro s1 s2 s3 t1 t2 t3 h1 h2 h3 hj1 hj2 hj3 hd1 hd2 hd3 hr1 hr2 hr3 hstep1 hstep2 hstep3 hbase3 hlen3 hwidth3 horder3
    hsrc3 hbase2 hlen2 hsrc2
  have hdims1 : JobDims .reorder s1 := h1.jobDims hj1
  obtain ⟨hout1, -⟩ := completion_output h1 hj1 hd1 hr1 hstep1
  obtain ⟨hout2, hbytes2⟩ := completion_output h2 hj2 hd2 hr2 hstep2
  obtain ⟨hout3, hbytes3⟩ := completion_output h3 hj3 hd3 hr3 hstep3
  have hlen1 : t1.outLen.toNat = 64 * rowTiles s1 := by
    rw [hout1]
    exact hdims1.outLen_toNat
  have htiles2 : jobTiles .pack s2 = rowTiles s1 := by
    rw [jobTiles, lengthTiles, hlen2, hlen1]
    omega
  have htiles3 : jobTiles .convert s3 = rowTiles s1 := jobTiles_congr .convert hlen3 fun _ => hwidth3
  rw [htiles2] at hout2 hbytes2
  rw [htiles3] at hout3 hbytes3
  refine ⟨hout2.trans hout3.symm, fun i hi => ?_⟩
  have hi : i < 16 * rowTiles s1 := by
    have := (h3.jobDims hj3).outLen_toNat
    rw [htiles3] at this
    rwa [hout3, this] at hi
  have ht : i / 16 < rowTiles s1 := Nat.div_lt_of_lt_mul hi
  have htile : s2.packedTile (i / 16) = s3.tile (i / 16) :=
    (packedTile_after_reorder h1 hj1 hd1 hr1 hstep1 hbase2 (hlen1 ▸ hsrc2) ht).trans
      (tile_congr hdims1 hlen3 hwidth3 horder3 (fun j hj => by rw [hbase3]; exact hsrc3 j hj) ht).symm
  rw [hbytes2 i hi, hbytes3 i hi]
  exact congrArg (fun tile => (packTile tile).getD (i % 16) 0) htile

end Sys2Proof.Machine
end

section
/-! What one host operation can do, what each step leaves in memory, and the invariant of the machine (10_state.md R26,
R40; 20_memory.md R51, R65). -/

namespace Sys2Proof.Machine

/-! ### One host operation -/

/-- Everything a host operation that answers a next state can do: only look, ignore a write or store a register, present
a word at CMD, write a byte, or reset. -/
theorem hostStep_next {op : HostOp} {s t : State} (h : hostStep op s = .next t) :
    (op.looksOnly = true ∧ t = { s with
      hostOps := t.hostOps, hostReads := t.hostReads, handedOn := t.handedOn, draws := t.draws }) ∨
    (∃ off size v, op = .regWrite off size v ∧ (t = s ∨ s.status.busy = false ∧ ∃ r, t = storeReg r v s)) ∨
    (∃ w, op = .regWrite 0x08 4 w ∧ exec (decode w) s = .next t) ∨
    (∃ a v, op = .memWrite a v ∧ a < Config.memorySize ∧
      t = { s with mem := memWrite s.mem a v, raced := s.raced || s.jobReads a || s.jobWrites a }) ∨
    (op = .reset ∧ t = resetBlock s) := by
  cases op with
  | regRead | poll | memRead | waitIrq | handOn | gather => exact .inl ⟨rfl, (hostStep_looksOnly rfl h).2⟩
  | regWrite off size v =>
    by_cases hcmd : regAt off = some .cmd
    · obtain rfl := (regAt_eq_cmd_iff off).1 hcmd
      cases hsup : supportedAccess 0x08 size with
      | true =>
        obtain rfl : size = 4 := by simpa [supportedAccess] using hsup
        exact .inr (.inr (.inl ⟨v, rfl, h⟩))
      | false =>
        rw [hostStep, hostRegWrite_unsupported hsup] at h
        exact .inr (.inl ⟨_, _, _, rfl, .inl (Host.Outcome.next.inj h).symm⟩)
    · exact .inr (.inl ⟨_, _, _, rfl, hostRegWrite_other hcmd h⟩)
  | memWrite a v =>
    obtain ⟨ha, -, rfl⟩ := hostMemWrite_next h
    exact .inr (.inr (.inr (.inl ⟨a, v, rfl, ha, rfl⟩)))
  | reset => exact .inr (.inr (.inr (.inr ⟨rfl, (Host.Outcome.next.inj h).symm⟩)))

/-- A command changes no memory (44_commands.md R160). -/
theorem exec_mem {i : Instr} {s t : State} (h : exec i s = .next t) : t.mem = s.mem := by
  obtain ⟨-, rfl⟩ | ⟨-, ⟨-, rfl⟩ | ⟨-, rfl⟩ | ⟨e, -, rfl⟩ | ⟨op, -, -, rfl⟩⟩ := exec_next h
  all_goals rfl

@[simp] theorem storeReg_mem (r : Reg) (v : Word) (s : State) : (storeReg r v s).mem = s.mem := by
  cases r <;> rfl

@[simp] theorem storeReg_job (r : Reg) (v : Word) (s : State) : (storeReg r v s).job = s.job := by
  cases r <;> rfl

@[simp] theorem storeReg_raced (r : Reg) (v : Word) (s : State) : (storeReg r v s).raced = s.raced := by
  cases r <;> rfl

@[simp] theorem storeReg_counts (r : Reg) (v : Word) (s : State) :
    (storeReg r v s).tileCount = s.tileCount ∧ (storeReg r v s).outLen = s.outLen := by
  cases r <;> exact ⟨rfl, rfl⟩

/-! ### Memory after a completion and after a reset -/

/-- A completion, raced or not, leaves every byte outside the destination alone (20_memory.md R51). -/
theorem memRead_completeJob_outside {s : State} (h : s.Inv) {op : JobOp} (hj : s.job = some op) {a : Nat}
    (ha : (dstRegion op s).holds a = false) : memRead (completeJob op s).mem a = memRead s.mem a := by
  cases hr : s.raced with
  | true =>
    rw [completeJob_raced hr, finishJob_mem, memRead_drawRegion h.memWf, ha]
    rfl
  | false =>
    rw [completeJob_dutiful hr, finishJob_mem]
    refine (jobMemory_writes h hj).2 a fun hin => ?_
    rw [← outputLength_eq] at hin
    exact absurd ((region_holds_iff _ _).2 hin) (Bool.eq_false_iff.1 ha)

/-- Every byte after a reset during a job (70_reset_and_hazards.md R201). -/
theorem memRead_resetBlock_busy {s : State} (hm : Memory.wf s.mem = true) {op : JobOp} (hj : s.job = some op)
    (a : Nat) :
    memRead (resetBlock s).mem a =
      if (dstRegion op s).holds a then Config.freeByte (s.draws + (a - s.dstBase.toNat)) else memRead s.mem a := by
  rw [resetBlock_busy hj, resetRegisters_mem, memRead_drawRegion hm]
  rfl

theorem mem_resetBlock_idle {s : State} (hj : s.job = none) : (resetBlock s).mem = s.mem := by
  rw [resetBlock_idle hj, resetRegisters_mem]

/-! ### Data memory stays inside its space -/

/-- A listed byte is what its address reads, and not the unlisted byte. -/
theorem memRead_of_mem {lo : Nat} {m : Memory} (hm : memSorted lo m = true) {c : Host.Cell} (hc : c ∈ m) :
    memRead m c.1 = c.2 ∧ c.2 ≠ unlistedByte ∧ lo ≤ c.1 := by
  induction m generalizing lo with
  | nil => cases hc
  | cons x m ih =>
    obtain ⟨k, w⟩ := x
    simp only [memSorted, Bool.and_eq_true, decide_eq_true_eq] at hm
    obtain ⟨⟨hlo, hw⟩, hrest⟩ := hm
    obtain rfl | hc := List.mem_cons.1 hc
    · exact ⟨if_pos rfl, hw, hlo⟩
    · obtain ⟨hread, hne, habove⟩ := ih hrest hc
      have hk : k ≠ c.1 := by omega
      exact ⟨by rw [memRead, if_neg hk, hread], hne, by omega⟩

theorem memRead_of_not_listed {m : Memory} {a : Nat} (h : ∀ c ∈ m, c.1 ≠ a) : memRead m a = unlistedByte := by
  induction m with
  | nil => rfl
  | cons x m ih =>
    rw [memRead, if_neg (h x List.mem_cons_self)]
    exact ih fun c hc => h c (List.mem_cons_of_mem x hc)

/-- A canonical memory lies in data memory when everything above reads as never written (10_state.md R36). -/
theorem memInSpace_iff {m : Memory} (hm : Memory.wf m = true) :
    memInSpace m = true ↔ ∀ a, Config.memorySize ≤ a → memRead m a = unlistedByte := by
  simp only [memInSpace, List.all_eq_true, decide_eq_true_eq]
  refine ⟨fun h a ha => memRead_of_not_listed fun c hc => ?_, fun h c hc => ?_⟩
  · have := h c hc
    omega
  · obtain ⟨hread, hne, -⟩ := memRead_of_mem hm hc
    exact not_le.1 fun hle => hne (hread ▸ h _ hle)

/-- The destination of a checked job ends inside data memory. -/
theorem State.Inv.dst_below_memorySize {s : State} (h : s.Inv) {op : JobOp} (hj : s.job = some op) {a : Nat}
    (ha : Config.memorySize ≤ a) : (dstRegion op s).holds a = false := by
  obtain ⟨-, hdst, -⟩ := check_ok_regions (h.checked hj)
  refine Bool.eq_false_iff.2 fun hin => ?_
  have hlt : a < s.dstBase.toNat + outputLength op s := ((region_holds_iff _ _).1 hin).2
  omega

theorem State.Inv.memRead_above {s : State} (h : s.Inv) {a : Nat} (ha : Config.memorySize ≤ a) :
    memRead s.mem a = unlistedByte := (memInSpace_iff h.memWf).1 h.memSpace a ha

theorem completeJob_inSpace {s : State} (h : s.Inv) {op : JobOp} (hj : s.job = some op) :
    memInSpace (completeJob op s).mem = true := by
  refine (memInSpace_iff (completeJob_wf h.memWf)).2 fun a ha => ?_
  rw [memRead_completeJob_outside h hj (h.dst_below_memorySize hj ha), h.memRead_above ha]

theorem resetBlock_inSpace {s : State} (h : s.Inv) : memInSpace (resetBlock s).mem = true := by
  cases hj : s.job with
  | none =>
    rw [mem_resetBlock_idle hj]
    exact h.memSpace
  | some op =>
    refine (memInSpace_iff (resetBlock_wf h.memWf)).2 fun a ha => ?_
    rw [memRead_resetBlock_busy h.memWf hj, h.dst_below_memorySize hj ha, if_neg Bool.false_ne_true, h.memRead_above ha]

/-! ### The invariant under each change of the state -/

/-- What the invariant asks of a job depends on the operands and the counts alone. -/
theorem jobChecked_congr {s t : State} {op : JobOp} (hb : t.srcBase = s.srcBase) (hl : t.srcLen = s.srcLen)
    (hd : t.dstBase = s.dstBase) (hw : t.rowWidth = s.rowWidth) (htc : t.tileCount = s.tileCount)
    (hol : t.outLen = s.outLen) (h : s.jobChecked op) : t.jobChecked op := by
  obtain ⟨hcheck, htiles, hout⟩ := h
  refine ⟨?_, ?_, hol.trans hout⟩
  · rw [check_congr op hb hl hd hw, tilesOf_congr op hl hw, hcheck]
  · rw [htc, htiles, tilesOf_congr op hl hw]

/-- The host's list, what it read and handed on, the countdown and the draws are free. -/
theorem State.Inv.host_fields {s : State} (h : s.Inv) (ops : List HostOp) (reads : List HostRead)
    (handed : List HostResult) (d n : Nat) :
    State.Inv { s with hostOps := ops, hostReads := reads, handedOn := handed, delay := d, draws := n } :=
  { memWf := h.memWf
    memSpace := h.memSpace
    busyJob := h.busyJob
    exclusive := h.exclusive
    record := h.record
    dropJob := h.dropJob
    errCounts := h.errCounts
    jobOk := fun op hj => jobChecked_congr rfl rfl rfl rfl rfl rfl (h.jobOk op hj)
    racedJob := h.racedJob }

theorem State.Inv.after_hostMoves {s : State} (h : s.Inv) (rest : List HostOp) : (s.hostMoves rest).Inv :=
  h.host_fields rest s.hostReads s.handedOn _ s.draws

/-- BUSY = 0 is no job, so no race. -/
theorem State.Inv.of_idle {s : State} (h : s.Inv) (hb : s.status.busy = false) :
    s.job = none ∧ s.raced = false := by
  have hj : s.job = none := by simpa [hb] using h.busyJob
  refine ⟨hj, Bool.eq_false_iff.2 fun hr => ?_⟩
  simpa [hj] using h.racedJob hr

theorem State.Inv.busy_of_job {s : State} (h : s.Inv) {op : JobOp} (hj : s.job = some op) :
    s.status.busy = true := by
  simpa [hj] using h.busyJob

/-- With BUSY = 0 the operand registers are free. -/
theorem State.Inv.after_storeReg {s : State} (h : s.Inv) (hb : s.status.busy = false) (r : Reg) (v : Word) :
    (storeReg r v s).Inv := by
  obtain ⟨hj, hraced⟩ := h.of_idle hb
  obtain ⟨htc, hol⟩ := storeReg_counts r v s
  exact
    { memWf := by rw [storeReg_mem]; exact h.memWf
      memSpace := by rw [storeReg_mem]; exact h.memSpace
      busyJob := by rw [storeReg_status, storeReg_job]; exact h.busyJob
      exclusive := by rw [storeReg_status]; exact h.exclusive
      record := by rw [storeReg_status]; exact h.record
      dropJob := by rw [storeReg_status]; exact h.dropJob
      errCounts := by rw [storeReg_status, htc, hol]; exact h.errCounts
      jobOk := by simp [hj]
      racedJob := by simp [hraced] }

/-- A host write of a byte that exists. -/
theorem State.Inv.after_memWrite {s : State} (h : s.Inv) {a : Nat} (ha : a < Config.memorySize) (v : Byte) :
    State.Inv { s with mem := memWrite s.mem a v, raced := s.raced || s.jobReads a || s.jobWrites a } :=
  { memWf := memWrite_wf h.memWf a v
    memSpace := memWrite_inSpace h.memSpace ha v
    busyJob := h.busyJob
    exclusive := h.exclusive
    record := h.record
    dropJob := h.dropJob
    errCounts := h.errCounts
    jobOk := fun op hj => jobChecked_congr rfl rfl rfl rfl rfl rfl (h.jobOk op hj)
    racedJob := by
      cases hj : s.job with
      | some op => simp
      | none =>
        have hraced : s.raced = false := Bool.eq_false_iff.2 fun hr => by simpa [hj] using h.racedJob hr
        simp [hraced, State.jobReads, State.jobWrites, hj] }

theorem State.Inv.after_dropWord {s : State} (h : s.Inv) (hb : s.status.busy = true) : (dropWord s).Inv :=
  { memWf := h.memWf
    memSpace := h.memSpace
    busyJob := h.busyJob
    exclusive := h.exclusive
    record := h.record
    dropJob := fun _ => .inl hb
    errCounts := h.errCounts
    jobOk := fun op hj => jobChecked_congr rfl rfl rfl rfl rfl rfl (h.jobOk op hj)
    racedJob := h.racedJob }

theorem State.Inv.after_clearStatus {s : State} (h : s.Inv) (hb : s.status.busy = false) : (clearStatus s).Inv := by
  obtain ⟨hj, hraced⟩ := h.of_idle hb
  exact
    { memWf := h.memWf
      memSpace := h.memSpace
      busyJob := h.busyJob
      exclusive := by simp [Status.exclusive]
      record := by simp [Status.recordLegal]
      dropJob := by simp
      errCounts := by simp
      jobOk := by simp [hj]
      racedJob := by simp [hraced] }

/-- An error recorded on an idle block (60_exceptions.md R184). -/
theorem State.Inv.after_failCommand {s : State} (h : s.Inv) (hb : s.status.busy = false) {e : BlockError}
    (he : e ∈ allErrors) : (failCommand e.code e.detail (clearStatus s)).Inv := by
  obtain ⟨hj, hraced⟩ := h.of_idle hb
  exact
    { memWf := h.memWf
      memSpace := h.memSpace
      busyJob := h.busyJob
      exclusive := by simp [Status.exclusive, hb]
      record := by simpa [Status.recordLegal] using ⟨e, he, rfl, rfl⟩
      dropJob := by simp
      errCounts := by simp
      jobOk := by simp [hj]
      racedJob := by simp [hraced] }

/-- The start of a checked job (44_commands.md R161). -/
theorem State.Inv.after_startJob {s : State} (h : s.Inv) {op : JobOp} (hc : check op s = .ok (tilesOf op s)) :
    (startJob op (tilesOf op s) (clearStatus s)).Inv :=
  { memWf := h.memWf
    memSpace := h.memSpace
    busyJob := rfl
    exclusive := by simp [Status.exclusive]
    record := by simp [Status.recordLegal]
    dropJob := by simp
    errCounts := by simp
    jobOk := fun op' hop => by
      obtain rfl : op = op' := Option.some.inj hop
      have htiles : tilesOf op (startJob op (tilesOf op s) (clearStatus s)) = tilesOf op s :=
        tilesOf_congr op rfl rfl
      refine ⟨?_, ?_, rfl⟩
      · rw [htiles, ← hc]
        exact check_congr op rfl rfl rfl rfl
      · rw [htiles, startJob_tileCount]
    racedJob := by simp }

/-- The end of a job (44_commands.md R165). -/
theorem State.Inv.after_completeJob {s : State} (h : s.Inv) {op : JobOp} (hj : s.job = some op) :
    (completeJob op s).Inv := by
  obtain ⟨herr, hcode, hdetail⟩ := h.no_err_of_job hj
  exact
    { memWf := completeJob_wf h.memWf
      memSpace := completeJob_inSpace h hj
      busyJob := by simp
      exclusive := by simp [Status.exclusive, herr]
      record := by simp [Status.recordLegal, herr, hcode, hdetail]
      dropJob := by simp
      errCounts := by simp [herr]
      jobOk := by simp
      racedJob := by simp [completeJob] }

theorem resetBlock_block (s : State) :
    (resetBlock s).status = Status.zero ∧ (resetBlock s).job = none ∧ (resetBlock s).raced = false := by
  cases hj : s.job with
  | none => simp [resetBlock_idle hj]
  | some op => simp [resetBlock_busy hj]

theorem State.Inv.after_resetBlock {s : State} (h : s.Inv) : (resetBlock s).Inv := by
  obtain ⟨hstatus, hj, hraced⟩ := resetBlock_block s
  exact
    { memWf := resetBlock_wf h.memWf
      memSpace := resetBlock_inSpace h
      busyJob := by simp [hstatus, hj, Status.zero]
      exclusive := by simp [hstatus, Status.exclusive, Status.zero]
      record := by simp [hstatus, Status.recordLegal, Status.zero]
      dropJob := by simp [hstatus, Status.zero]
      errCounts := by simp [hstatus, Status.zero]
      jobOk := by simp [hj]
      racedJob := by simp [hraced] }

/-! ### Every step keeps the invariant -/

theorem State.Inv.after_exec {s t : State} (h : s.Inv) {i : Instr} (he : exec i s = .next t) : t.Inv := by
  obtain ⟨hb, rfl⟩ | ⟨hb, ⟨-, rfl⟩ | ⟨-, rfl⟩ | ⟨e, hmem, rfl⟩ | ⟨op, hc, -, rfl⟩⟩ := exec_next he
  · exact h.after_dropWord hb
  · exact h
  · exact h.after_clearStatus hb
  · exact h.after_failCommand hb hmem
  · exact h.after_startJob hc

theorem State.Inv.after_hostStep {s t : State} (h : s.Inv) {op : HostOp} (hs : hostStep op s = .next t) : t.Inv := by
  obtain ⟨-, ht⟩ | ⟨off, size, v, -, rfl | ⟨hb, r, rfl⟩⟩ | ⟨w, -, hexec⟩ | ⟨a, v, -, ha, rfl⟩ | ⟨-, rfl⟩ :=
    hostStep_next hs
  · rw [ht]
    exact h.host_fields _ _ _ s.delay _
  · exact h
  · exact h.after_storeReg hb r v
  · exact h.after_exec hexec
  · exact h.after_memWrite ha v
  · exact h.after_resetBlock

theorem State.Inv.after_step {s t : State} (h : s.Inv) (hs : step s = .next t) : t.Inv := by
  obtain ⟨op, hj, -, hstep⟩ | ⟨-, -, hstep⟩ | ⟨op, rest, -, -, hstep⟩ := step_cases s
  all_goals rw [hstep] at hs
  · obtain rfl := Host.Outcome.next.inj hs
    exact h.after_completeJob hj
  · obtain rfl := Host.Outcome.next.inj hs
    exact h.after_hostMoves []
  · exact (h.after_hostMoves rest).after_hostStep hs

/-- Settles O48: `State.Inv.after_step`, by the cases of a step. -/
theorem stepKeepsInvariant : Obligations.StepKeepsInvariant := fun _ _ => State.Inv.after_step

/-! ### What changes memory -/

/-- A host operation changes a byte only by writing it, or by a reset during a job that writes it. -/
theorem hostStep_changes_memory {op : HostOp} {s t : State} (h : s.Inv) (hs : hostStep op s = .next t) {a : Nat}
    (ha : memRead t.mem a ≠ memRead s.mem a) :
    (op = .reset ∧ ∃ j, s.job = some j ∧ (dstRegion j s).holds a = true) ∨
      ∃ v, op = .memWrite a v ∧ memRead t.mem a = v := by
  obtain ⟨-, ht⟩ | ⟨off, size, v, -, rfl | ⟨-, r, rfl⟩⟩ | ⟨w, -, hexec⟩ | ⟨b, v, rfl, -, rfl⟩ | ⟨rfl, rfl⟩ :=
    hostStep_next hs
  · rw [ht] at ha
    exact absurd rfl ha
  · exact absurd rfl ha
  · rw [storeReg_mem] at ha
    exact absurd rfl ha
  · rw [exec_mem hexec] at ha
    exact absurd rfl ha
  · simp only [memRead_memWrite h.memWf] at ha ⊢
    by_cases hab : a = b
    · exact .inr ⟨v, by rw [hab], by rw [if_pos hab]⟩
    · simp [hab] at ha
  · refine .inl ⟨rfl, ?_⟩
    cases hj : s.job with
    | none =>
      rw [mem_resetBlock_idle hj] at ha
      exact absurd rfl ha
    | some j =>
      rw [memRead_resetBlock_busy h.memWf hj] at ha
      exact ⟨j, rfl, by simpa using fun hd => ha (if_neg hd)⟩

/-- Settles O49: a completion changes destination bytes alone (`memRead_completeJob_outside`), and the host's part is
`hostStep_changes_memory`; no source byte is in the destination. -/
theorem onlyDestinationAndHostWritesChangeMemory : Obligations.OnlyDestinationAndHostWritesChangeMemory := by
  intro s t a h hs ha
  have job : ∀ op, s.job = some op → (dstRegion op s).holds a = true → s.srcRegion.holds a = false :=
    fun op hj hd => Bool.eq_false_iff.2 fun hsrc => by simp [h.regions_disjoint hj hsrc] at hd
  obtain ⟨op, hj, hd, hstep⟩ | ⟨-, -, hstep⟩ | ⟨op, rest, -, hops, hstep⟩ := step_cases s
  all_goals rw [hstep] at hs
  · obtain rfl := Host.Outcome.next.inj hs
    have hin : (dstRegion op s).holds a = true := by
      by_contra hout
      exact ha (memRead_completeJob_outside h hj (by simpa using hout))
    exact .inl ⟨op, hj, .inl hd, hin, job op hj hin⟩
  · obtain rfl := Host.Outcome.next.inj hs
    exact absurd rfl ha
  · obtain ⟨rfl, j, hj, hin⟩ | ⟨v, rfl, hv⟩ := hostStep_changes_memory (h.after_hostMoves rest) hs ha
    · exact .inl ⟨j, hj, .inr ⟨rest, hops⟩, hin, job j hj hin⟩
    · exact .inr ⟨v, rest, hops, hv⟩

end Sys2Proof.Machine
end

section
/-! Races, reset, and what a step can do to a running job, to STATUS and to the operands (20_memory.md R62;
70_reset_and_hazards.md R200, R201, R211, R213). -/

namespace Sys2Proof.Machine

/-! ### Races -/

theorem jobReads_of_job {s : State} {op : JobOp} (hj : s.job = some op) (a : Nat) :
    s.jobReads a = s.srcRegion.holds a := by
  simp [State.jobReads, hj]

theorem jobWrites_of_job {s : State} {op : JobOp} (hj : s.job = some op) (a : Nat) :
    s.jobWrites a = (dstRegion op s).holds a := by
  simp [State.jobWrites, hj]

/-- A host write into a region of the running job stores its byte and marks the race. -/
theorem hostMemWrite_racing {s : State} {op : JobOp} {a : Nat} (hj : s.job = some op) (ha : a < 2 ^ 32)
    (hs : s.sideEffectAt a = false) (hin : s.srcRegion.holds a = true ∨ (dstRegion op s).holds a = true) (v : Byte) :
    hostMemWrite a v s = .next { s with mem := memWrite s.mem a v, raced := true } := by
  have hspace : ¬Config.memorySize ≤ a := not_le.2 ha
  have hrace : (s.raced || s.jobReads a || s.jobWrites a) = true := by
    rw [jobReads_of_job hj, jobWrites_of_job hj, Bool.or_assoc, Bool.or_eq_true, Bool.or_eq_true]
    exact .inr hin
  simp [hostMemWrite, hspace, hs, hrace]

/-- A host read of a destination byte of the running job draws a free value. -/
theorem hostMemRead_racing {s : State} {op : JobOp} {a : Nat} (hj : s.job = some op) (ha : a < 2 ^ 32)
    (hs : s.sideEffectAt a = false) (hin : (dstRegion op s).holds a = true) :
    hostMemRead a s =
      .next { s with hostReads := .mem a (Config.freeByte s.draws) :: s.hostReads, draws := s.draws + 1 } := by
  have hspace : ¬Config.memorySize ≤ a := not_le.2 ha
  have hw : s.jobWrites a = true := by rw [jobWrites_of_job hj, hin]
  simp [hostMemRead, hspace, hs, hw, hostByte, noteRead]

/-- What a command leaves of the mark: only the start of a job clears it. -/
theorem exec_raced {i : Instr} {s t : State} (h : exec i s = .next t) :
    t.raced = s.raced ∨ (s.status.busy = false ∧ t.raced = false) := by
  obtain ⟨-, rfl⟩ | ⟨hb, ⟨-, rfl⟩ | ⟨-, rfl⟩ | ⟨e, -, rfl⟩ | ⟨op, -, -, rfl⟩⟩ := exec_next h
  · exact .inl rfl
  · exact .inl rfl
  · exact .inl rfl
  · exact .inl rfl
  · exact .inr ⟨hb, rfl⟩

/-- The mark of a running job stays under every host operation but reset. -/
theorem hostStep_keeps_race {op : HostOp} {s t : State} (hb : s.status.busy = true) (hr : s.raced = true)
    (hop : op ≠ .reset) (h : hostStep op s = .next t) : t.raced = true := by
  obtain ⟨-, ht⟩ | ⟨off, size, v, -, rfl | ⟨-, r, rfl⟩⟩ | ⟨w, -, hexec⟩ | ⟨a, v, -, -, rfl⟩ | ⟨rfl, -⟩ := hostStep_next h
  · rw [ht]
    exact hr
  · exact hr
  · rwa [storeReg_raced]
  · obtain hsame | ⟨hidle, -⟩ := exec_raced hexec
    · rw [hsame, hr]
    · simp [hb] at hidle
  · simp [hr]
  · exact absurd rfl hop

/-- The mark of a running job stays until its completion or a reset (log 6). -/
theorem step_keeps_race {s t : State} (h : s.Inv) (hr : s.raced = true) (hs : step s = .next t) :
    t.raced = true ∨ s.delay = 0 ∨ ∃ rest, s.hostOps = .reset :: rest := by
  obtain ⟨op, -, hd, -⟩ | ⟨-, -, hstep⟩ | ⟨op, rest, -, hops, hstep⟩ := step_cases s
  · exact .inr (.inl hd)
  · rw [hstep] at hs
    obtain rfl := Host.Outcome.next.inj hs
    exact .inl hr
  · rw [hstep] at hs
    by_cases hop : op = .reset
    · exact .inr (.inr ⟨rest, by rw [hops, hop]⟩)
    · have hb : s.status.busy = true := by rw [h.busyJob, h.racedJob hr]
      exact .inl (hostStep_keeps_race (s := s.hostMoves rest) hb hr hop hs)

/-- The completion of a marked job: the registers as always, every destination byte a free value (log 6). -/
theorem step_completes_raced {s : State} (h : s.Inv) {op : JobOp} (hj : s.job = some op) (hd : s.delay = 0)
    (hr : s.raced = true) :
    ∃ m, step s = .next { doneState (jobBytes op * jobTiles op s) m s with
        draws := s.draws + jobBytes op * jobTiles op s } ∧
      ∀ a, memRead m a =
        if (dstRegion op s).holds a then Config.freeByte (s.draws + (a - s.dstBase.toNat)) else memRead s.mem a := by
  refine ⟨(drawRegion (dstRegion op s) s).mem, ?_, memRead_drawRegion h.memWf⟩
  rw [step_completes hj hd, completeJob_raced hr, ← outputLength_eq]
  rfl

/-- Settles O27: the racing write, the mark's stay, the marked completion and the racing read. -/
theorem brokenHostDutyLeavesFreeBytes : Obligations.BrokenHostDutyLeavesFreeBytes :=
  ⟨fun _ _ _ v hj ha hs hin => hostMemWrite_racing hj ha hs hin v,
    fun _ _ => step_keeps_race,
    fun _ _ h hj hd hr => step_completes_raced h hj hd hr,
    fun _ _ _ => hostMemRead_racing⟩

/-- A host operation that keeps its duty marks no race. -/
theorem hostStep_dutiful {op : HostOp} {s t : State} (hr : s.raced = false) (hop : op.dutiful s = true)
    (h : hostStep op s = .next t) : t.raced = false := by
  obtain ⟨-, ht⟩ | ⟨off, size, v, -, rfl | ⟨-, r, rfl⟩⟩ | ⟨w, -, hexec⟩ | ⟨a, v, rfl, -, rfl⟩ | ⟨-, rfl⟩ := hostStep_next h
  · rw [ht]
    exact hr
  · exact hr
  · rwa [storeReg_raced]
  · obtain hsame | ⟨-, hfree⟩ := exec_raced hexec
    · rw [hsame, hr]
    · exact hfree
  · simp only [HostOp.dutiful, Bool.and_eq_true, Bool.not_eq_true'] at hop
    simp [hr, hop]
  · exact (resetBlock_block s).2.2

/-- Settles O28: a completion clears the mark, and the host's operation is `hostStep_dutiful`; what is dutiful does not
depend on the host's list or on the countdown. -/
theorem dutifulHostNeverRaces : Obligations.DutifulHostNeverRaces := by
  intro s t hr hdutiful hs
  obtain ⟨op, -, -, hstep⟩ | ⟨-, -, hstep⟩ | ⟨op, rest, -, hops, hstep⟩ := step_cases s
  all_goals rw [hstep] at hs
  · obtain rfl := Host.Outcome.next.inj hs
    rfl
  · obtain rfl := Host.Outcome.next.inj hs
    exact hr
  · have hduty : op.dutiful (s.hostMoves rest) = true := hdutiful op rest hops
    exact hostStep_dutiful (s := s.hostMoves rest) hr hduty hs

/-! ### Reset -/

/-- A reset leaves the window as it is after reset, whatever ran. -/
theorem registerFile_resetBlock (s : State) :
    registerFile (resetBlock s) = [0x42500001, 0, 0, 0, 0, 0, 0, 0x80, 0, 0, 0, 0, 0, 0, 0, 0] := by
  cases hj : s.job with
  | none => rw [resetBlock_idle hj, registerFile_resetRegisters]
  | some op => rw [resetBlock_busy hj, registerFile_resetRegisters]

/-- Settles O30: the registers are `registerFile_resetBlock`, memory is `memRead_resetBlock_busy`, and the source is
outside the destination. -/
theorem resetAtAnyStep : Obligations.ResetAtAnyStep := by
  intro s h
  refine ⟨resetBlock s, rfl, registerFile_resetBlock s, (resetBlock_block s).2.1, irq_resetBlock s,
    mem_resetBlock_idle, fun op hj => ⟨memRead_resetBlock_busy h.memWf hj, fun a ha => ?_⟩⟩
  rw [memRead_resetBlock_busy h.memWf hj, h.regions_disjoint hj ha, if_neg Bool.false_ne_true]

/-! ### What a host operation leaves of a running job -/

/-- With BUSY = 1 every host operation but reset leaves the registers, the job and the countdown: of STATUS it may set
DROP, and it may write memory and mark a race. -/
theorem hostStep_busy {op : HostOp} {s t : State} (hb : s.status.busy = true) (hop : op ≠ .reset)
    (h : hostStep op s = .next t) :
    t = { s with
      status := { s.status with drop := t.status.drop }
      mem := t.mem, hostOps := t.hostOps, hostReads := t.hostReads, handedOn := t.handedOn,
      raced := t.raced, draws := t.draws } := by
  obtain ⟨-, ht⟩ | ⟨off, size, v, -, rfl | ⟨hidle, -⟩⟩ | ⟨w, -, hexec⟩ | ⟨a, v, -, -, rfl⟩ | ⟨rfl, -⟩ := hostStep_next h
  · rw [ht]
  · rfl
  · simp [hb] at hidle
  · rw [exec_busy _ hb] at hexec
    obtain rfl := Host.Outcome.next.inj hexec
    rfl
  · rfl
  · exact absurd rfl hop

theorem completeJob_operands (op : JobOp) (s : State) :
    (completeJob op s).srcBase = s.srcBase ∧ (completeJob op s).srcLen = s.srcLen ∧
      (completeJob op s).dstBase = s.dstBase ∧ (completeJob op s).rowWidth = s.rowWidth ∧
      (completeJob op s).ctrl = s.ctrl ∧ (completeJob op s).tileCount = s.tileCount := by
  cases hr : s.raced with
  | true => simp [completeJob_raced hr]
  | false => simp [completeJob_dutiful hr]

/-- Settles O51: neither a completion (`completeJob_operands`) nor a host operation while busy (`hostStep_busy`) touches
an operand. -/
theorem runningJobKeepsOperands : Obligations.RunningJobKeepsOperands := by
  intro s t h hb hs hreset
  obtain ⟨op, -, -, hstep⟩ | ⟨-, -, hstep⟩ | ⟨op, rest, hc, hops, hstep⟩ := step_cases s
  all_goals rw [hstep] at hs
  · obtain rfl := Host.Outcome.next.inj hs
    exact completeJob_operands op s
  · obtain rfl := Host.Outcome.next.inj hs
    exact ⟨rfl, rfl, rfl, rfl, rfl, rfl⟩
  · have hjob : s.job.isSome = true := h.busyJob ▸ hb
    have hd : s.delay ≠ 0 := by simpa [State.completesNow, hjob] using hc
    have hop : op ≠ .reset := fun heq => hreset hd rest (heq ▸ hops)
    rw [hostStep_busy (s := s.hostMoves rest) hb hop hs]
    exact ⟨rfl, rfl, rfl, rfl, rfl, rfl⟩

/-! ### What the registers read while a job runs -/

/-- The word of STATUS while a job runs (70_reset_and_hazards.md R213). -/
theorem statusWord_of_job {s : State} (h : s.Inv) {op : JobOp} (hj : s.job = some op) :
    s.status.word = 0x00000001 ∨ s.status.word = 0x00000009 := by
  have hb := h.busy_of_job hj
  obtain ⟨he, -, -⟩ := h.no_err_of_job hj
  have hmem := statusWord_mem_of_not_err h he
  have hbit := (statusWord_bits s.status).1
  rw [hb] at hbit
  generalize s.status.word = w at hmem hbit ⊢
  simp only [List.mem_cons, List.not_mem_nil, or_false] at hmem
  obtain rfl | h1 | rfl | h9 | rfl := hmem
  · exact absurd hbit (by decide)
  · exact .inl h1
  · exact absurd hbit (by decide)
  · exact .inr h9
  · exact absurd hbit (by decide)

/-- TILE_COUNT holds the running job's N in full. -/
theorem State.Inv.tileCount_toNat {s : State} (h : s.Inv) {op : JobOp} (hj : s.job = some op) :
    s.tileCount.toNat = jobTiles op s := by
  obtain ⟨-, htiles, -⟩ := h.jobOk op hj
  have hle := (h.jobDims hj).output_le_srcLen
  have hbytes : 0 < jobBytes op := by cases op <;> decide
  have hlt : jobTiles op s < 2 ^ 32 := by
    have := Nat.le_mul_of_pos_left (jobTiles op s) hbytes
    omega
  rw [htiles, tilesOf_eq, BitVec.toNat_ofNat, Nat.mod_eq_of_lt hlt]

/-- Settles O45: each read is at a register's own offset, and the invariant says what the register holds. -/
theorem readsWhileBusy : Obligations.ReadsWhileBusy := by
  intro s op h hj
  obtain ⟨-, -, hout⟩ := h.jobOk op hj
  exact ⟨statusWord_of_job h hj, h.tileCount_toNat hj, hout, readWindow_offset .srcBase s, readWindow_offset .srcLen s,
    readWindow_offset .dstBase s, readWindow_offset .rowWidth s⟩

/-! ### What raises DONE and BUSY, and what leaves an error record -/

theorem exec_sets_busy {i : Instr} {s t : State} (h : exec i s = .next t) (hs : s.status.busy = false)
    (ht : t.status.busy = true) : ∃ op, i = commandOf op ∧ t.job = some op := by
  have job : ∀ op, i = commandOf op → ∃ op, i = commandOf op ∧ t.job = some op := by
    rintro op rfl
    rw [exec_commandOf_idle op hs] at h
    obtain ⟨e, -, rfl⟩ | ⟨n, -, -, rfl⟩ := acceptJob_next h
    · simp [hs] at ht
    · exact ⟨op, rfl, rfl⟩
  cases i with
  | convert => exact job .convert rfl
  | reorder => exact job .reorder rfl
  | pack => exact job .pack rfl
  | nop =>
    rw [exec_nop_idle hs] at h
    obtain rfl := Host.Outcome.next.inj h
    simp [hs] at ht
  | clear =>
    rw [exec_clear_idle hs] at h
    obtain rfl := Host.Outcome.next.inj h
    simp [hs] at ht
  | illegal op rsvd =>
    rw [exec_illegal_idle op rsvd hs] at h
    obtain rfl := Host.Outcome.next.inj h
    simp [errorState] at ht

/-- No command raises DONE. -/
theorem exec_done {i : Instr} {s t : State} (h : exec i s = .next t) (hs : s.status.done = false) :
    t.status.done = false := by
  obtain ⟨-, rfl⟩ | ⟨-, ⟨-, rfl⟩ | ⟨-, rfl⟩ | ⟨e, -, rfl⟩ | ⟨op, -, -, rfl⟩⟩ := exec_next h
  all_goals simp [hs]

/-- Everything a step can do to STATUS: complete a job, leave it, reset it, or present a word. -/
theorem step_status {s t : State} (hs : step s = .next t) :
    (∃ op, s.job = some op ∧ s.delay = 0 ∧ t = completeJob op s) ∨ t.status = s.status ∨
      (∃ rest, s.hostOps = .reset :: rest ∧ t.status = Status.zero) ∨
      ∃ w rest, s.hostOps = .regWrite 0x08 4 w :: rest ∧ exec (decode w) (s.hostMoves rest) = .next t := by
  obtain ⟨op, hj, hd, hstep⟩ | ⟨-, -, hstep⟩ | ⟨op, rest, -, hops, hstep⟩ := step_cases s
  all_goals rw [hstep] at hs
  · exact .inl ⟨op, hj, hd, (Host.Outcome.next.inj hs).symm⟩
  · obtain rfl := Host.Outcome.next.inj hs
    exact .inr (.inl rfl)
  · obtain hsame | rfl | ⟨w, rfl, hexec⟩ := hostStep_status hs
    · exact .inr (.inl hsame)
    · obtain rfl := Host.Outcome.next.inj hs
      exact .inr (.inr (.inl ⟨rest, hops, (resetBlock_block _).1⟩))
    · exact .inr (.inr (.inr ⟨w, rest, hops, hexec⟩))

/-- Settles O50: of the four cases of `step_status` a completion alone raises DONE, and a word alone raises BUSY; the
word is its command's, since decoding loses nothing (`encode_decode`). -/
theorem onlyCompletionRaisesDone : Obligations.OnlyCompletionRaisesDone := by
  intro s t _ hs
  obtain ⟨op, hj, hd, rfl⟩ | hsame | ⟨rest, -, hzero⟩ | ⟨w, rest, hops, hexec⟩ := step_status hs
  · exact ⟨fun _ _ => ⟨by simp [hj], hd⟩, fun _ hb => by simp at hb⟩
  · exact ⟨fun h0 h1 => by simp [hsame, h0] at h1, fun h0 h1 => by simp [hsame, h0] at h1⟩
  · exact ⟨fun _ h1 => by simp [hzero, Status.zero] at h1, fun _ h1 => by simp [hzero, Status.zero] at h1⟩
  · refine ⟨fun h0 h1 => ?_, fun h0 h1 => ?_⟩
    · simp [exec_done hexec h0] at h1
    · obtain ⟨op, hop, hj⟩ := exec_sets_busy hexec h0 h1
      refine ⟨op, rest, ?_, hj⟩
      rw [hops, ← hop, (encode_decode w).2]

/-- Settles O17: with ERR = 1 no job runs, so of the four cases of `step_status` a reset or a word is left, and NOP
changes nothing. -/
theorem errorRecordStaysUntilCommandOrReset : Obligations.ErrorRecordStaysUntilCommandOrReset := by
  intro s t h hs he hne
  obtain ⟨hb, -, -⟩ := h.flags_of_err he
  obtain ⟨op, hj, -⟩ | hsame | ⟨rest, hops, -⟩ | ⟨w, rest, hops, hexec⟩ := step_status hs
  · simp [h.busy_of_job hj] at hb
  · exact absurd hsame hne
  · exact ⟨.reset, rest, hops, .inl rfl⟩
  · refine ⟨_, rest, hops, .inr ⟨w, rfl, fun hnop => hne ?_⟩⟩
    rw [hnop, exec_nop_idle (s := s.hostMoves rest) hb] at hexec
    rw [← Host.Outcome.next.inj hexec, hostMoves_status]

end Sys2Proof.Machine
end

section
/-! Runs of the machine, the countdown of a running job, and a commanded job from its word to its end
(44_commands.md R160 to R166, 70_reset_and_hazards.md R203, R215). -/

namespace Sys2Proof.Machine

/-! ### Runs -/

theorem core_run_succ (M : Host.Core) {s u : M.State} (h : M.step s = .next u) (k : Nat) :
    M.run (k + 1) s = M.run k u := by
  rw [Host.Core.run, h]

theorem core_run_succ_next (M : Host.Core) {s t : M.State} {k : Nat} (h : M.run (k + 1) s = .next t) :
    ∃ u, M.step s = .next u ∧ M.run k u = .next t := by
  rw [Host.Core.run] at h
  split at h
  next u hu => exact ⟨u, hu, h⟩
  next => cases h
  next => cases h

/-- The machine's runs, at the machine's own types. -/
def runSteps (k : Nat) (s : State) : Result := Host.Core.run Sys2Proof.core k s

theorem run_succ {s u : State} (h : step s = .next u) (k : Nat) : runSteps (k + 1) s = runSteps k u :=
  core_run_succ Sys2Proof.core h k

/-- The first step of a run that answers a next state. -/
theorem run_succ_next {s t : State} {k : Nat} (h : runSteps (k + 1) s = .next t) :
    ∃ u, step s = .next u ∧ runSteps k u = .next t :=
  core_run_succ_next Sys2Proof.core h

/-- Two runs, one after the other. -/
theorem run_add {s u : State} {m : Nat} (h : runSteps m s = .next u) (n : Nat) :
    runSteps (m + n) s = runSteps n u := by
  induction m generalizing s with
  | zero =>
    obtain rfl := Host.Outcome.next.inj h
    rw [Nat.zero_add]
  | succ m ih =>
    obtain ⟨v, hv, hrun⟩ := run_succ_next h
    rw [Nat.add_right_comm, run_succ hv, ih hrun]

/-- The last step of a run that answers a next state. -/
theorem run_succ_last {s t : State} {k : Nat} (h : runSteps (k + 1) s = .next t) :
    ∃ u, runSteps k s = .next u ∧ step u = .next t := by
  induction k generalizing s with
  | zero =>
    obtain ⟨v, hv, hrun⟩ := run_succ_next h
    obtain rfl := Host.Outcome.next.inj hrun
    exact ⟨s, rfl, hv⟩
  | succ k ih =>
    obtain ⟨v, hv, hrun⟩ := run_succ_next h
    obtain ⟨u, hu, hlast⟩ := ih hrun
    exact ⟨u, by rw [run_succ hv, hu], hlast⟩

/-- A property of the start that every step keeps holds at every point of a run. -/
theorem run_keeps {P : State → Prop} (hkeep : ∀ u v, P u → step u = .next v → P v) {s t : State} (hs : P s) {k : Nat}
    (h : runSteps k s = .next t) : P t := by
  induction k generalizing s with
  | zero =>
    obtain rfl := Host.Outcome.next.inj h
    exact hs
  | succ k ih =>
    obtain ⟨u, hu, hrun⟩ := run_succ_next h
    exact ih (hkeep s u hs hu) hrun

/-! ### The countdown of a running job -/

theorem exec_hostOps {i : Instr} {s t : State} (h : exec i s = .next t) : t.hostOps = s.hostOps := by
  obtain ⟨-, rfl⟩ | ⟨-, ⟨-, rfl⟩ | ⟨-, rfl⟩ | ⟨e, -, rfl⟩ | ⟨op, -, -, rfl⟩⟩ := exec_next h
  all_goals rfl

@[simp] theorem storeReg_hostOps (r : Reg) (v : Word) (s : State) : (storeReg r v s).hostOps = s.hostOps := by
  cases r <;> rfl

theorem resetBlock_hostOps (s : State) : (resetBlock s).hostOps = s.hostOps := by
  cases hj : s.job with
  | none => rw [resetBlock_idle hj, resetRegisters_hostOps]
  | some op => rw [resetBlock_busy hj, resetRegisters_hostOps, drawRegion_hostOps]

/-- A host operation puts at most one operation back on the host's list, and that one only looks. -/
theorem hostStep_hostOps {op : HostOp} {s t : State} (h : hostStep op s = .next t) :
    t.hostOps = s.hostOps ∨ ∃ op', op'.looksOnly = true ∧ t.hostOps = op' :: s.hostOps := by
  obtain ⟨hlooks, -⟩ | ⟨off, size, v, -, rfl | ⟨-, r, rfl⟩⟩ | ⟨w, -, hexec⟩ | ⟨a, v, -, -, rfl⟩ | ⟨-, rfl⟩ :=
    hostStep_next h
  · exact (hostStep_looksOnly hlooks h).1
  · exact .inl rfl
  · exact .inl (storeReg_hostOps r v s)
  · exact .inl (exec_hostOps hexec)
  · exact .inl rfl
  · exact .inl (resetBlock_hostOps s)

/-- Job `op` runs with the operands it had in `s`, `d` host steps before its completion, and the host will not reset. -/
structure RunsOn (s : State) (op : JobOp) (d : Nat) (t : State) : Prop where
  inv : t.Inv
  job : t.job = some op
  delay : t.delay = d
  noReset : HostOp.reset ∉ t.hostOps
  srcBase : t.srcBase = s.srcBase
  srcLen : t.srcLen = s.srcLen
  dstBase : t.dstBase = s.dstBase
  rowWidth : t.rowWidth = s.rowWidth
  ctrl : t.ctrl = s.ctrl

/-- A step before the completion takes one off the countdown and leaves the job and its operands (log 4). -/
theorem RunsOn.step {s t u : State} {op : JobOp} {d : Nat} (h : RunsOn s op (d + 1) t) (hs : step t = .next u) :
    RunsOn s op d u := by
  have hinv := h.inv.after_step hs
  have hjob := h.job
  have hdelay : (t.hostMoves []).delay = d := by simp [hjob, h.delay]
  obtain ⟨op', -, hd, -⟩ | ⟨-, -, hstep⟩ | ⟨hop, rest, -, hops, hstep⟩ := step_cases t
  · simp [h.delay] at hd
  · rw [hstep] at hs
    obtain rfl := Host.Outcome.next.inj hs
    exact ⟨hinv, hjob, hdelay, by simp, h.srcBase, h.srcLen, h.dstBase, h.rowWidth, h.ctrl⟩
  · rw [hstep] at hs
    have hnot := h.noReset
    rw [hops, List.mem_cons, not_or] at hnot
    obtain ⟨hne, hrest⟩ := hnot
    have hno : HostOp.reset ∉ u.hostOps := by
      obtain hsame | ⟨op', hlooks, hcons⟩ := hostStep_hostOps hs
      · rw [hsame]
        exact hrest
      · rw [hcons, List.mem_cons, not_or]
        exact ⟨fun heq => by simp [← heq, HostOp.looksOnly] at hlooks, hrest⟩
    have hu := hostStep_busy (s := t.hostMoves rest) (h.inv.busy_of_job hjob) (Ne.symm hne) hs
    rw [hu] at hinv hno ⊢
    exact ⟨hinv, hjob, hdelay, hno, h.srcBase, h.srcLen, h.dstBase, h.rowWidth, h.ctrl⟩

theorem RunsOn.run {s t u : State} {op : JobOp} {d k : Nat} (h : RunsOn s op (d + k) t)
    (hr : runSteps k t = .next u) : RunsOn s op d u := by
  induction k generalizing t with
  | zero =>
    obtain rfl := Host.Outcome.next.inj hr
    exact h
  | succ k ih =>
    obtain ⟨v, hv, hrun⟩ := run_succ_next hr
    exact ih (h.step hv) hrun

/-- The completion of a job that runs on writes as many bytes as it did at the start. -/
theorem RunsOn.outputLength {s t : State} {op : JobOp} {d : Nat} (h : RunsOn s op d t) :
    outputLength op t = jobBytes op * jobTiles op s := by
  rw [outputLength_eq, jobTiles_congr op h.srcLen fun _ => h.rowWidth]

@[simp] theorem completeJob_outLen (op : JobOp) (s : State) :
    (completeJob op s).outLen = BitVec.ofNat 32 (outputLength op s) := rfl

/-- Settles O18: the countdown falls by one a step (`RunsOn.run`), and at 0 the next step is the completion. -/
theorem jobCompletesAfterItsLatency : Obligations.JobCompletesAfterItsLatency := by
  intro s t op k hinv hj hreset hrun
  have hrun : runSteps k s = .next t := hrun
  have start : RunsOn s op s.delay s := ⟨hinv, hj, rfl, hreset, rfl, rfl, rfl, rfl, rfl⟩
  refine ⟨fun hk => ?_, fun hk => ?_⟩
  · rw [← Nat.sub_add_cancel hk] at start
    have h := start.run hrun
    exact ⟨h.job, h.delay, h.srcBase, h.srcLen, h.dstBase, h.rowWidth, h.ctrl⟩
  · rw [hk] at hrun
    obtain ⟨u, hu, hlast⟩ := run_succ_last hrun
    rw [← Nat.zero_add s.delay] at start
    have h := start.run (by simpa using hu)
    rw [step_completes h.job h.delay] at hlast
    obtain rfl := Host.Outcome.next.inj hlast
    exact ⟨rfl, by simp, by simp, by rw [completeJob_outLen, h.outputLength]⟩

end Sys2Proof.Machine
end

section
/-! A commanded job from its word to its end, and the host's job sequence (44_commands.md R160 to R166,
70_reset_and_hazards.md R203). -/

namespace Sys2Proof.Machine

/-! ### The host's wait: a poll of STATUS -/

/-- BUSY is bit 0 of STATUS, the bit `wait` looks at (30_encoding.md R77). -/
theorem statusWord_and_one (st : Status) : st.word &&& 0x1 = 0x0 ↔ st.busy = false := by
  have hbit : (st.word &&& 0x1).toNat = st.word.toNat % 2 := by
    rw [BitVec.toNat_and]
    exact Nat.and_two_pow_sub_one_eq_mod st.word.toNat 1
  have hval : st.word.toNat % 2 = st.busy.toNat := by
    rw [statusWord_toNat]
    cases st.busy <;> simp only [Bool.toNat_true, Bool.toNat_false] <;> omega
  rw [← BitVec.toNat_inj, hbit, hval]
  cases st.busy <;> simp

/-- The poll of `wait` (30_encoding.md R77). -/
def pollStatus : HostOp := hostPollReg .status 0x1 0x0

theorem hostPoll_status_busy {s : State} (h : s.status.busy = true) :
    hostStep pollStatus s = .next (keepHostOp pollStatus (noteRead (.reg 0x0C s.status.word) s)) := by
  have hne : ¬readWindow 0x0C 4 s &&& 0x1 = 0x0 := fun h0 => by
    have := (statusWord_and_one s.status).1 h0
    simp [h] at this
  exact congrArg Host.Outcome.next (if_neg hne)

theorem hostPoll_status_idle {s : State} (h : s.status.busy = false) :
    hostStep pollStatus s = .next (noteRead (.reg 0x0C s.status.word) s) :=
  congrArg Host.Outcome.next (if_pos ((statusWord_and_one s.status).2 h))

/-! ### The host's list -/

/-- `s` with the host's list `ops`. -/
def withOps (ops : List HostOp) (s : State) : State := { s with hostOps := ops }

@[simp] theorem withOps_withOps (ops ops' : List HostOp) (s : State) :
    withOps ops (withOps ops' s) = withOps ops s := rfl

@[simp] theorem withOps_job (ops : List HostOp) (s : State) : (withOps ops s).job = s.job := rfl

@[simp] theorem withOps_hostOps (ops : List HostOp) (s : State) : (withOps ops s).hostOps = ops := rfl

@[simp] theorem withOps_status (ops : List HostOp) (s : State) : (withOps ops s).status = s.status := rfl

/-- On an idle block the host performs its next operation, taken off its list. -/
theorem step_host_no_job {s : State} (hj : s.job = none) {op : HostOp} {ops : List HostOp}
    (hops : s.hostOps = op :: ops) : step s = hostStep op (withOps ops s) := by
  rw [step_host (State.completesNow_of_no_job hj) hops, hostMoves_of_no_job hj, withOps]

/-! ### A started job and a delivered one -/

/-- Job `op` accepted in `s`, with `d` host steps left, the host's list `ops` and its reads `reads`. -/
def startedAt (op : JobOp) (s : State) (d : Nat) (ops : List HostOp) (reads : List HostRead) : State :=
  { startedState op (jobTiles op s) s with delay := d, hostOps := ops, hostReads := reads }

/-- Job `op` accepted in `s` and completed. -/
def deliveredAt (op : JobOp) (s : State) (ops : List HostOp) (reads : List HostRead) : State :=
  { doneState (jobBytes op * jobTiles op s) (jobMemory op s) (startedState op (jobTiles op s) s) with
    delay := 0, hostOps := ops, hostReads := reads }

section Started

variable (op : JobOp) (s : State) (d : Nat) (ops : List HostOp) (reads : List HostRead)

theorem jobTiles_startedAt : jobTiles op (startedAt op s d ops reads) = jobTiles op s := by
  cases op <;> rfl

theorem jobMemory_startedAt : jobMemory op (startedAt op s d ops reads) = jobMemory op s := by
  cases op <;> rfl

theorem jobBlock_startedAt (t : Nat) : jobBlock op (startedAt op s d ops reads) t = jobBlock op s t := by
  cases op <;> rfl

theorem statusWord_startedAt : (startedAt op s d ops reads).status.word = 1 :=
  show Status.word { Status.zero with busy := true } = 1 by decide

theorem statusWord_deliveredAt : (deliveredAt op s ops reads).status.word = 2 :=
  show Status.word { Status.zero with done := true } = 2 by decide

/-- The accepted command, from a state whose host list is already `ops` (44_commands.md R161). -/
theorem exec_commandOf_startedAt (hb : s.status.busy = false) (h : JobReady op s) :
    exec (commandOf op) (withOps ops s) = .next (startedAt op s (Config.latency s.draws) ops s.hostReads) := by
  have hready : JobReady op (withOps ops s) := by cases op <;> exact h
  have htiles : jobTiles op (withOps ops s) = jobTiles op s := by cases op <;> rfl
  rw [exec_commandOf_ready (s := withOps ops s) hb hready, htiles]
  rfl

theorem step_startedAt_idle :
    step (startedAt op s (d + 1) [] reads) = .next (startedAt op s d [] reads) :=
  step_host_idle rfl rfl

/-- While the job runs, the wait reads BUSY = 1 and stays. -/
theorem step_startedAt_wait :
    step (startedAt op s (d + 1) (pollStatus :: ops) reads) =
      .next (startedAt op s d (pollStatus :: ops) (.reg 0x0C 1 :: reads)) := by
  rw [← statusWord_startedAt op s (d + 1) (pollStatus :: ops) reads]
  exact (step_host rfl rfl).trans (hostPoll_status_busy rfl)

theorem step_startedAt_completes :
    step (startedAt op s 0 ops reads) = .next (deliveredAt op s ops reads) := by
  rw [step_completes_dutiful (s := startedAt op s 0 ops reads) rfl rfl rfl, jobTiles_startedAt, jobMemory_startedAt]
  rfl

/-- After the completion, the wait reads DONE and ends. -/
theorem step_deliveredAt_wait :
    step (deliveredAt op s (pollStatus :: ops) reads) = .next (deliveredAt op s ops (.reg 0x0C 2 :: reads)) := by
  rw [← statusWord_deliveredAt op s (pollStatus :: ops) reads]
  exact (step_host rfl rfl).trans (hostPoll_status_idle rfl)

/-- A host with nothing to do lets the job complete. -/
theorem run_startedAt_idle : runSteps (d + 1) (startedAt op s d [] reads) = .next (deliveredAt op s [] reads) := by
  induction d with
  | zero => rw [run_succ (step_startedAt_completes op s [] reads)]; rfl
  | succ d ih => rw [run_succ (step_startedAt_idle op s d reads), ih]

/-- A host that waits lets the job complete, and its last read shows DONE. -/
theorem run_startedAt_wait :
    ∃ reads', runSteps (d + 2) (startedAt op s d (pollStatus :: ops) reads) =
      .next (deliveredAt op s ops (.reg 0x0C 2 :: reads')) := by
  induction d generalizing reads with
  | zero =>
    refine ⟨reads, ?_⟩
    rw [run_succ (step_startedAt_completes op s _ reads), run_succ (step_deliveredAt_wait op s ops reads)]
    rfl
  | succ d ih =>
    obtain ⟨reads', hrun⟩ := ih (.reg 0x0C 1 :: reads)
    exact ⟨reads', by rw [run_succ (step_startedAt_wait op s d ops reads), hrun]⟩

end Started

theorem State.Inv.after_startedAt {s : State} (h : s.Inv) {op : JobOp} (hready : JobReady op s) (d : Nat)
    (ops : List HostOp) (reads : List HostRead) : (startedAt op s d ops reads).Inv := by
  have hcheck : check op s = .ok (tilesOf op s) := by rw [hready.check, tilesOf_eq]
  have hstart := h.after_startJob hcheck
  rw [startJob_clearStatus, tilesOf_eq] at hstart
  exact hstart.host_fields ops reads s.handedOn d (s.draws + 1)

/-- What a delivered job holds: its blocks, the rest of memory, and its counts. -/
theorem deliveredAt_holds {s : State} (h : s.Inv) {op : JobOp} (hready : JobReady op s) (ops : List HostOp)
    (reads : List HostRead) :
    (deliveredAt op s ops reads).tileCount.toNat = jobTiles op s ∧
      (deliveredAt op s ops reads).outLen.toNat = jobBytes op * jobTiles op s ∧
      (∀ i, i < jobTiles op s →
        memBytes (deliveredAt op s ops reads).mem (s.dstBase.toNat + jobBytes op * i) (jobBytes op) =
          jobBlock op s i) ∧
      ∀ a, ¬(s.dstBase.toNat ≤ a ∧ a < s.dstBase.toNat + jobBytes op * jobTiles op s) →
        memRead (deliveredAt op s ops reads).mem a = memRead s.mem a := by
  have hinv := h.after_startedAt hready 0 ops reads
  have hj : (startedAt op s 0 ops reads).job = some op := rfl
  have hwrites := jobMemory_writes hinv hj
  rw [jobTiles_startedAt, jobMemory_startedAt] at hwrites
  refine ⟨?_, ?_, fun i hi => ?_, hwrites.2⟩
  · have hcount := hinv.tileCount_toNat hj
    rwa [jobTiles_startedAt] at hcount
  · exact ((jobReady_iff op s).1 hready).1.outLen_toNat
  · have hblock := memBytes_jobMemory hinv hj (t := i) (by rwa [jobTiles_startedAt])
    rwa [jobMemory_startedAt, jobBlock_startedAt] at hblock

/-! ### The command's step -/

/-- On an idle block, the word of a command is presented to the state with that write taken off the host's list. -/
theorem step_command {s : State} (hj : s.job = none) {i : Instr} (hi : i.wellFormed = true) {ops : List HostOp}
    (hops : s.hostOps = .regWrite 0x08 4 (encode i) :: ops) : step s = exec i (withOps ops s) := by
  rw [step_cmd_write (State.completesNow_of_no_job hj) hops, decode_encode hi, hostMoves_of_no_job hj, withOps]

theorem step_command_withOps {s : State} (hj : s.job = none) {i : Instr} (hi : i.wellFormed = true)
    (ops : List HostOp) : step (withOps (.regWrite 0x08 4 (encode i) :: ops) s) = exec i (withOps ops s) :=
  step_command (s := withOps (.regWrite 0x08 4 (encode i) :: ops) s) hj hi rfl

theorem commandOf_wellFormed (op : JobOp) : (commandOf op).wellFormed = true := by
  cases op <;> rfl

/-- The step of a ready command. -/
theorem step_command_ready {s : State} (h : s.Inv) (hj : s.job = none) {op : JobOp} (hready : JobReady op s)
    {ops : List HostOp} (hops : s.hostOps = .regWrite 0x08 4 (encode (commandOf op)) :: ops) :
    step s = .next (startedAt op s (Config.latency s.draws) ops s.hostReads) := by
  have hb : s.status.busy = false := by simp [h.busyJob, hj]
  rw [step_command hj (commandOf_wellFormed op) hops, exec_commandOf_startedAt op s ops hb hready]

/-- Settles O22: the command's step starts the job, the host lets its LATENCY pass, and `deliveredAt_holds` is its end. -/
theorem commandedJobDelivers : Obligations.CommandedJobDelivers := by
  intro s op h hb hready hops
  obtain ⟨hj, -⟩ := h.of_idle hb
  have hrun : runSteps (Config.latency s.draws + 2) s = .next (deliveredAt op s [] s.hostReads) := by
    rw [run_succ (step_command_ready h hj hready hops), run_startedAt_idle]
  obtain ⟨htiles, hout, hblocks, hframe⟩ := deliveredAt_holds h hready [] s.hostReads
  exact ⟨_, hrun, statusWord_deliveredAt op s [] s.hostReads, rfl, rfl, htiles, hout, rfl, rfl, rfl, rfl, rfl, hblocks, hframe⟩

/-! ### The operand writes -/

/-- Operand writes performed one after the other. -/
def storeAll (ws : List (Reg × Word)) (s : State) : State := ws.foldl (fun s w => storeReg w.1 w.2 s) s

@[simp] theorem storeAll_cons (w : Reg × Word) (ws : List (Reg × Word)) (s : State) :
    storeAll (w :: ws) s = storeAll ws (storeReg w.1 w.2 s) := rfl

theorem storeReg_withOps (r : Reg) (v : Word) (s : State) (ops : List HostOp) :
    storeReg r v (withOps ops s) = withOps ops (storeReg r v s) := by
  cases r <;> rfl

theorem storeAll_withOps (ws : List (Reg × Word)) (s : State) (ops : List HostOp) :
    storeAll ws (withOps ops s) = withOps ops (storeAll ws s) := by
  induction ws generalizing s with
  | nil => rfl
  | cons w ws ih => rw [storeAll_cons, storeReg_withOps, ih, storeAll_cons]

/-- The host operations of operand writes. -/
def writeOps (ws : List (Reg × Word)) : List HostOp := ws.map fun w => hostWr w.1 w.2

/-- One operand write on an idle block. -/
theorem step_write {s : State} (hj : s.job = none) (hb : s.status.busy = false) {r : Reg} (hr : r ≠ .cmd) {v : Word}
    {ops : List HostOp} (hops : s.hostOps = hostWr r v :: ops) :
    step s = .next (withOps ops (storeReg r v s)) := by
  rw [step_host_no_job hj hops, hostWr, hostStep_write_idle (s := withOps ops s) hr v hb, storeReg_withOps]

/-- Operand writes on an idle block take one step each. -/
theorem run_writes {s : State} (hj : s.job = none) (hb : s.status.busy = false) {ws : List (Reg × Word)}
    (hws : ∀ w ∈ ws, w.1 ≠ .cmd) {ops : List HostOp} (hops : s.hostOps = writeOps ws ++ ops) :
    runSteps ws.length s = .next (withOps ops (storeAll ws s)) := by
  induction ws generalizing s with
  | nil =>
    obtain rfl : s.hostOps = ops := hops
    rfl
  | cons w ws ih =>
    have hstep : step s = .next (withOps (writeOps ws ++ ops) (storeReg w.1 w.2 s)) :=
      step_write hj hb (hws w List.mem_cons_self) hops
    rw [List.length_cons, run_succ hstep,
      ih (by simpa using hj) (by simpa using hb) (fun x hx => hws x (List.mem_cons_of_mem w hx)) rfl,
      storeAll_withOps, withOps_withOps, storeAll_cons]

/-! ### The host's job sequence -/

/-- The operand writes of a job (70_reset_and_hazards.md R203, step 4). -/
def operandWrites (o ie : Bool) (src len dst w : Word) : List (Reg × Word) :=
  [(.ctrl, Ctrl.word { rowOrder := o, ie := ie }), (.srcBase, src), (.srcLen, len), (.dstBase, dst), (.rowWidth, w)]

theorem operandWrites_ne_cmd (o ie : Bool) (src len dst w : Word) :
    ∀ x ∈ operandWrites o ie src len dst w, x.1 ≠ .cmd := by
  simp [operandWrites]

theorem jobProgram_eq (o ie : Bool) (src len dst w cmd : Word) :
    jobProgram o ie src len dst w cmd =
      writeOps (operandWrites o ie src len dst w) ++ [.regWrite 0x08 4 cmd, pollStatus] := rfl

/-- CTRL reads back as the two bits written (10_state.md R24). -/
theorem ctrlOfWord_word (c : Ctrl) : ctrlOfWord c.word = c := by
  obtain ⟨o, ie⟩ := c
  cases o <;> cases ie <;> decide

/-- The state with a job's operands in the registers. -/
def withOperands (o ie : Bool) (src len dst w : Word) (s : State) : State :=
  { s with ctrl := { rowOrder := o, ie := ie }, srcBase := src, srcLen := len, dstBase := dst, rowWidth := w }

theorem storeAll_operandWrites (o ie : Bool) (src len dst w : Word) (s : State) :
    storeAll (operandWrites o ie src len dst w) s = withOperands o ie src len dst w s := by
  simp [storeAll, operandWrites, storeReg, ctrlOfWord_word, withOperands]

/-- With BUSY = 0 any operands keep the invariant. -/
theorem State.Inv.after_withOperands {s : State} (h : s.Inv) (hb : s.status.busy = false) (o ie : Bool)
    (src len dst w : Word) : (withOperands o ie src len dst w s).Inv := by
  have hctrl := h.after_storeReg hb .ctrl (Ctrl.word { rowOrder := o, ie := ie })
  have hsrc := hctrl.after_storeReg hb .srcBase src
  have hlen := hsrc.after_storeReg hb .srcLen len
  have hdst := hlen.after_storeReg hb .dstBase dst
  have hwidth := hdst.after_storeReg hb .rowWidth w
  rw [← storeAll_operandWrites]
  exact hwidth

section JobSequence

variable {s : State} (h : s.Inv) (hj : s.job = none) {op : JobOp} {o ie : Bool} {src len dst w : Word}
  {ops : List HostOp}
  (hops : s.hostOps = jobProgram o ie src len dst w (encode (commandOf op)) ++ ops)

include h hj hops

/-- The five operand writes of the sequence. -/
theorem run_operands :
    runSteps 5 s = .next (withOps (.regWrite 0x08 4 (encode (commandOf op)) :: pollStatus :: ops)
      (withOperands o ie src len dst w s)) := by
  have hb : s.status.busy = false := by simp [h.busyJob, hj]
  rw [jobProgram_eq, List.append_assoc] at hops
  have hrun := run_writes hj hb (operandWrites_ne_cmd o ie src len dst w) hops
  rwa [storeAll_operandWrites] at hrun

/-- The sequence of a ready command ends with the job delivered and DONE read. -/
theorem run_jobProgram_ready (hready : JobReady op (withOperands o ie src len dst w s)) :
    ∃ k reads, runSteps k s =
      .next (deliveredAt op (withOperands o ie src len dst w s) ops (.reg 0x0C 2 :: reads)) := by
  have hb : s.status.busy = false := by simp [h.busyJob, hj]
  have hoperands := run_operands h hj hops
  generalize hs1 : withOperands o ie src len dst w s = s1 at hoperands hready ⊢
  have hj1 : s1.job = none := hs1 ▸ hj
  have hb1 : s1.status.busy = false := hs1 ▸ hb
  have hstart : step (withOps (.regWrite 0x08 4 (encode (commandOf op)) :: pollStatus :: ops) s1) =
      .next (startedAt op s1 (Config.latency s1.draws) (pollStatus :: ops) s1.hostReads) :=
    (step_command_withOps hj1 (commandOf_wellFormed op) (pollStatus :: ops)).trans
      (exec_commandOf_startedAt op s1 (pollStatus :: ops) hb1 hready)
  obtain ⟨reads, hwait⟩ := run_startedAt_wait op s1 (Config.latency s1.draws) ops s1.hostReads
  exact ⟨5 + (Config.latency s1.draws + 2 + 1), reads, by rw [run_add hoperands, run_succ hstart, hwait]⟩

/-- The sequence of a command that fails ends after seven steps, with the error read. -/
theorem run_jobProgram_error {e : BlockError} (he : check op (withOperands o ie src len dst w s) = .error e) :
    runSteps 7 s =
      .next (noteRead (.reg 0x0C (errorState e.code e.detail s).status.word)
        (withOps ops (errorState e.code e.detail (withOperands o ie src len dst w s)))) := by
  have hb : s.status.busy = false := by simp [h.busyJob, hj]
  have hoperands := run_operands h hj hops
  have hcheck : check op (withOps (pollStatus :: ops) (withOperands o ie src len dst w s)) = .error e :=
    (check_congr op rfl rfl rfl rfl).trans he
  have hfail : step (withOps (.regWrite 0x08 4 (encode (commandOf op)) :: pollStatus :: ops)
        (withOperands o ie src len dst w s)) =
      .next (errorState e.code e.detail (withOps (pollStatus :: ops) (withOperands o ie src len dst w s))) :=
    (step_command_withOps (s := withOperands o ie src len dst w s) hj (commandOf_wellFormed op) (pollStatus :: ops)).trans
      (exec_commandOf_error hb hcheck)
  have hpoll : step (errorState e.code e.detail (withOps (pollStatus :: ops) (withOperands o ie src len dst w s))) =
      .next (noteRead (.reg 0x0C (errorState e.code e.detail s).status.word)
        (withOps ops (errorState e.code e.detail (withOperands o ie src len dst w s)))) :=
    (step_host_no_job (s := errorState e.code e.detail (withOps _ (withOperands o ie src len dst w s))) hj rfl).trans
      (hostPoll_status_idle rfl)
  rw [run_add hoperands 2, run_succ hfail, run_succ hpoll]
  rfl

end JobSequence

/-- Settles O23: a ready sequence ends delivered (`run_jobProgram_ready`, `deliveredAt_holds`), a failing one with its
error (`run_jobProgram_error`). -/
theorem hostJobSequenceRunsToItsEnd : Obligations.HostJobSequenceRunsToItsEnd := by
  intro s s1 op o ie src len dst w h hj hops hs1
  obtain rfl : s1 = withOperands o ie src len dst w s := hs1
  have hb : s.status.busy = false := by simp [h.busyJob, hj]
  rw [← List.append_nil (jobProgram ..)] at hops
  refine ⟨fun hready => ?_, fun e he => ?_⟩
  · obtain ⟨k, reads, hrun⟩ := run_jobProgram_ready h hj hops hready
    obtain ⟨-, hout, hblocks, hframe⟩ :=
      deliveredAt_holds (h.after_withOperands hb o ie src len dst w) hready [] (.reg 0x0C 2 :: reads)
    refine ⟨k, _, hrun, rfl, ?_, rfl, hout, hblocks, hframe⟩
    simp [State.irq, deliveredAt, doneState, startedState, withOperands]
  · refine ⟨_, run_jobProgram_error h hj hops he, ?_, ?_, rfl, rfl, rfl⟩
    · simp [State.ended, errorState, withOperands, hj]
    · exact irq_errorState e.code e.detail (withOperands o ie src len dst w s)

end Sys2Proof.Machine
end

section
/-! The conversion of a bitmap from its file to the packed tiles the host hands on (40_host_header.md R98 to R103). -/

namespace Sys2Proof.Machine

/-! ### Placing bytes in memory -/

/-- `s` with memory `m`. -/
def withMem (m : Memory) (s : State) : State := { s with mem := m }

theorem jobReads_of_no_job {s : State} (hj : s.job = none) (a : Nat) : s.jobReads a = false := by
  simp [State.jobReads, hj]

theorem jobWrites_of_no_job {s : State} (hj : s.job = none) (a : Nat) : s.jobWrites a = false := by
  simp [State.jobWrites, hj]

theorem sideEffectAt_of_no_devices {s : State} (h : s.devices = []) (a : Nat) : s.sideEffectAt a = false := by
  simp [State.sideEffectAt, h]

/-- On an idle block without such memory, the host writes a byte in one step. -/
theorem step_memWrite {s : State} (hj : s.job = none) (hdev : s.devices = []) {a : Nat} (ha : a < 2 ^ 32) {v : Byte}
    {ops : List HostOp} (hops : s.hostOps = .memWrite a v :: ops) :
    step s = .next (withMem (memWrite s.mem a v) (withOps ops s)) := by
  rw [step_host_no_job hj hops]
  exact hostMemWrite_plain (s := withOps ops s) ha (sideEffectAt_of_no_devices hdev a)
    (jobReads_of_no_job hj a) (jobWrites_of_no_job hj a) v

theorem run_hostMem {s : State} (hj : s.job = none) (hdev : s.devices = []) {a : Nat} {b : List Byte}
    (ha : a + b.length ≤ 2 ^ 32) {ops : List HostOp} (hops : s.hostOps = hostMem a b ++ ops) :
    runSteps b.length s = .next (withMem (memWriteBytes s.mem a b) (withOps ops s)) := by
  induction b generalizing s a with
  | nil =>
    obtain rfl : s.hostOps = ops := hops
    rfl
  | cons v b ih =>
    rw [List.length_cons] at ha
    have hstep : step s = .next (withMem (memWrite s.mem a v) (withOps (hostMem (a + 1) b ++ ops) s)) :=
      step_memWrite hj hdev (by omega) hops
    rw [List.length_cons, run_succ hstep,
      ih (s := withMem _ (withOps (hostMem (a + 1) b ++ ops) s)) hj hdev (a := a + 1) (by omega) rfl]
    rfl

/-- What the placed bytes read as. -/
theorem memRead_memWriteBytes {m : Memory} (hm : Memory.wf m = true) (a : Nat) (b : List Byte) (x : Nat) :
    memRead (memWriteBytes m a b) x =
      if a ≤ x ∧ x < a + b.length then b.getD (x - a) 0 else memRead m x := by
  induction b generalizing m a with
  | nil =>
    have hout : ¬(a ≤ x ∧ x < a + ([] : List Byte).length) := by simp
    rw [if_neg hout]
    rfl
  | cons v b ih =>
    rw [memWriteBytes, ih (memWrite_wf hm a v), memRead_memWrite hm, List.length_cons]
    by_cases hx : x = a
    · subst hx
      rw [if_neg (by omega), if_pos rfl, if_pos (by omega), Nat.sub_self]
      rfl
    · by_cases hin : a + 1 ≤ x ∧ x < a + 1 + b.length
      · obtain ⟨j, rfl⟩ : ∃ j, x = a + 1 + j := ⟨x - (a + 1), by omega⟩
        have hj : a + 1 + j - a = j + 1 := by omega
        rw [if_pos hin, if_pos (by omega), hj, Nat.add_sub_cancel_left, List.getD_cons_succ]
      · rw [if_neg hin, if_neg hx, if_neg (by omega)]

/-! ### Reading the output -/

theorem memBytes_succ (m : Memory) (a n : Nat) :
    memBytes m a (n + 1) = memRead m a :: memBytes m (a + 1) n := by
  rw [memBytes, List.range_succ_eq_map, List.map_cons, List.map_map]
  refine congrArg _ (List.map_congr_left fun i _ => ?_)
  exact congrArg (memRead m) (by simp [Nat.add_comm i 1, Nat.add_assoc])

theorem memBytes_add (m : Memory) (a p q : Nat) :
    memBytes m a (p + q) = memBytes m a p ++ memBytes m (a + p) q := by
  simp [memBytes, List.range_add, Nat.add_assoc]

/-- A region made of blocks, one after the other. -/
theorem memBytes_blocks {m : Memory} {base len n : Nat} {f : Nat → List Byte}
    (h : ∀ i, i < n → memBytes m (base + len * i) len = f i) :
    memBytes m base (len * n) = (List.range n).flatMap f := by
  induction n with
  | zero => rfl
  | succ n ih =>
    rw [Nat.mul_succ, memBytes_add, ih fun i hi => h i (Nat.lt_succ_of_lt hi), h n (Nat.lt_succ_self n),
      List.range_succ, List.flatMap_append, List.flatMap_singleton]

/-- One byte of the output read on an idle block. -/
theorem step_gather_succ {s : State} (hj : s.job = none) (hdev : s.devices = []) {a n : Nat} (ha : a < 2 ^ 32)
    {got : List Byte} {ops : List HostOp} (hops : s.hostOps = .gather a (n + 1) got :: ops) :
    step s = .next (keepHostOp (.gather (a + 1) n (memRead s.mem a :: got))
      (noteRead (.mem a (memRead s.mem a)) (withOps ops s))) := by
  have hw : (withOps ops s).jobWrites a = false := jobWrites_of_no_job hj a
  have hread := hostMemRead_plain (s := withOps ops s) ha (sideEffectAt_of_no_devices hdev a) hw
  have hbyte : hostByte a (withOps ops s) = memRead s.mem a := by rw [hostByte, hw]; rfl
  rw [step_host_no_job hj hops, hostStep, hostGather, hread, hbyte]
  rfl

/-- The host reads `n` bytes, one a step, and hands them on. -/
theorem run_gather {s : State} (hj : s.job = none) (hdev : s.devices = []) {a n : Nat} (ha : a + n ≤ 2 ^ 32)
    {got : List Byte} {ops : List HostOp} (hops : s.hostOps = .gather a n got :: ops) :
    ∃ reads, runSteps (n + 1) s =
      .next (handResult (.output (got.reverse ++ memBytes s.mem a n)) { withOps ops s with hostReads := reads }) := by
  induction n generalizing s a got with
  | zero =>
    have hstep : step s = .next (handResult (.output got.reverse) (withOps ops s)) := step_host_no_job hj hops
    refine ⟨s.hostReads, ?_⟩
    rw [run_succ hstep, show memBytes s.mem a 0 = [] from rfl, List.append_nil]
    rfl
  | succ n ih =>
    have hstep := step_gather_succ hj hdev (by omega) hops
    obtain ⟨reads, hrun⟩ := ih (s := keepHostOp (.gather (a + 1) n (memRead s.mem a :: got))
      (noteRead (.mem a (memRead s.mem a)) (withOps ops s))) hj hdev (by omega) rfl
    refine ⟨reads, ?_⟩
    rw [run_succ hstep, hrun, memBytes_succ, List.reverse_cons, List.append_assoc]
    rfl

/-- After DONE was read the host reads OUT_LEN and hands on that many bytes at `d` (40_host_header.md R102). -/
theorem run_handOn {s : State} (hj : s.job = none) (hdev : s.devices = []) {d : Nat} (hd : d + s.outLen.toNat ≤ 2 ^ 32)
    {v : Word} {reads : List HostRead} (hreads : s.hostReads = .reg 0x0C v :: reads) (hv : v.getLsbD 1 = true)
    (hops : s.hostOps = [.handOn d]) :
    ∃ reads', runSteps (s.outLen.toNat + 2) s =
      .next (handResult (.output (memBytes s.mem d s.outLen.toNat)) { withOps [] s with hostReads := reads' }) := by
  have hstep : step s = .next (keepHostOp (.gather d s.outLen.toNat []) (hostRegRead 0x24 4 (withOps [] s))) := by
    rw [step_host_no_job hj hops]
    exact congrArg Host.Outcome.next (hostHandOn_done (s := withOps [] s) hreads hv)
  obtain ⟨reads', hrun⟩ := run_gather
    (s := keepHostOp (.gather d s.outLen.toNat []) (hostRegRead 0x24 4 (withOps [] s))) hj hdev hd rfl
  exact ⟨reads', by rw [run_succ hstep, hrun]; rfl⟩

/-! ### The bitmap's job -/

/-- A bitmap that passes the examination is 128 pixels wide and its pixels begin inside it (40_host_header.md R95,
R97). -/
theorem examine_ok_facts {b : List Byte} {m : ImageMetadata} (h : examine b = .ok m) :
    parseHeader b = .ok m ∧ m.width = 128 ∧ m.offset ≤ b.length := by
  unfold examine at h
  split at h
  · cases h
  · rename_i m' hp
    split at h
    · cases h
    · rename_i hv
      split at h
      · cases h
      · rename_i ho
        obtain rfl := Except.ok.inj h
        refine ⟨hp, ?_, ?_⟩
        · by_contra hw
          simp [validateHeader, hw] at hv
        · by_contra hlt
          simp [checkPixelOffset, not_le.1 hlt] at ho

/-- The program of a bitmap is the job sequence of a CONVERT of its pixels (40_host_header.md R98). -/
theorem bitmapProgram_eq (a d len : Nat) (ie : Bool) (m : ImageMetadata) :
    bitmapProgram a d len ie m =
      jobProgram true ie (BitVec.ofNat 32 (a + m.offset)) (BitVec.ofNat 32 (len - m.offset)) (BitVec.ofNat 32 d)
        (BitVec.ofInt 32 m.width) (encode (commandOf .convert)) := rfl

/-- `s` holds the operands of a bottom-up image of `rows` rows of 128 pixels at `src`, with its output at `d`. -/
structure HoldsBitmap (s : State) (src d rows : Nat) : Prop where
  rowOrder : s.ctrl.rowOrder = true
  srcBase : s.srcBase.toNat = src
  srcLen : s.srcLen.toNat = rows * 128
  dstBase : s.dstBase.toNat = d
  rowWidth : s.rowWidth.toNat = 128

namespace HoldsBitmap

variable {s : State} {src d rows : Nat} (h : HoldsBitmap s src d rows)

include h

theorem rows_eq : s.rows = rows := by
  rw [State.rows, h.srcLen, h.rowWidth, Nat.mul_div_cancel _ (by decide)]

theorem rowTiles_eq : rowTiles s = rows / 8 * 16 := by
  rw [rowTiles, h.srcLen, h.rowWidth, Nat.mul_div_cancel _ (by decide)]

/-- Whole bands whose regions fit and are disjoint pass every check. -/
theorem jobReady (hdev : s.devices = []) (hrows : rows % 8 = 0) (hsrc : src + rows * 128 ≤ 2 ^ 32)
    (hdst : d + 16 * (rows / 8 * 16) ≤ 2 ^ 32) (hdisj : d + 16 * (rows / 8 * 16) ≤ src ∨ src + rows * 128 ≤ d) :
    JobReady .convert s := by
  have htiles := h.rowTiles_eq
  refine ⟨⟨?_, ?_, ?_, ?_⟩, ⟨?_, ?_⟩, ?_, ordinaryMemory_of_no_devices hdev _⟩
  · rw [h.rowWidth]; decide
  · rw [h.srcLen, h.rowWidth]; omega
  · rw [h.rowWidth]
  · rw [h.srcLen, h.rowWidth, Nat.mul_div_cancel _ (by decide), hrows]
  · rw [h.srcBase, h.srcLen]; exact hsrc
  · rw [h.dstBase, htiles]; exact hdst
  · rintro ⟨-, -, hlow, hhigh⟩
    rw [h.srcBase, h.dstBase, htiles] at hlow
    rw [h.srcBase, h.srcLen, h.dstBase] at hhigh
    omega

/-- The tiles of the bitmap, from its bytes in memory (41_scanline_normalizer.md R111, 42_tile_reorder.md R123). -/
theorem tile_eq {b : List Byte} {off : Nat}
    (hmem : ∀ j, j < rows * 128 → memRead s.mem (src + j) = b.getD (off + j) 0) {t : Nat} (ht : t < rows / 8 * 16) :
    s.tile t = (List.range 64).map fun j =>
      b.getD (off + (rows - 1 - (8 * (t / 16) + j / 8)) * 128 + 8 * (t % 16) + j % 8) 0 := by
  refine List.map_congr_left fun j hj => ?_
  have hj : j < 64 := List.mem_range.1 hj
  have hlt := srcOff_lt (w := 128) (rows := rows) true (by decide) (by decide) ht (r := j / 8) (by omega)
    (c := j % 8) (by omega)
  have hbyte := hmem _ hlt
  rw [State.srcAddr, h.rowOrder, h.rowWidth, h.rows_eq, h.srcBase, hbyte, srcOff, srcRow_bottomUp]
  simp only [Nat.add_assoc]

end HoldsBitmap

/-- The packed tiles of a bottom-up image of `rows` rows of 128 pixels, whose pixels begin at byte `off` of `b`. -/
def packedBitmap (b : List Byte) (off rows : Nat) : List Byte :=
  (List.range (rows / 8 * 16)).flatMap fun i =>
    packTile ((List.range 64).map fun j =>
      b.getD (off + (rows - 1 - (8 * (i / 16) + j / 8)) * 128 + 8 * (i % 16) + j % 8) 0)

theorem toNat_ofNat_of_lt {n : Nat} (h : n < 2 ^ 32) : (BitVec.ofNat 32 n).toNat = n := by
  rw [BitVec.toNat_ofNat, Nat.mod_eq_of_lt h]

/-- What an idle block holds once the bitmap's operands are written. -/
theorem holdsBitmap_withOperands {a d rows len : Nat} {m : ImageMetadata} (hwidth : m.width = 128)
    (hsrc : a + m.offset < 2 ^ 32) (hlen : len = rows * 128) (hlt : len < 2 ^ 32) (hd : d < 2 ^ 32) (ie : Bool)
    (s : State) :
    HoldsBitmap (withOperands true ie (BitVec.ofNat 32 (a + m.offset)) (BitVec.ofNat 32 len) (BitVec.ofNat 32 d)
      (BitVec.ofInt 32 m.width) s) (a + m.offset) d rows where
  rowOrder := rfl
  srcBase := toNat_ofNat_of_lt hsrc
  srcLen := (toNat_ofNat_of_lt hlt).trans hlen
  dstBase := toNat_ofNat_of_lt hd
  rowWidth := by rw [hwidth]; rfl

/-- The end of a bitmap's conversion that began in `s`: DONE, OUT_LEN 16 bytes a tile, and the packed tiles handed on. -/
structure BitmapConverted (b : List Byte) (off rows : Nat) (s t : State) : Prop where
  ended : t.ended = true
  statusWord : t.status.word = 2
  outLen : t.outLen.toNat = 16 * (rows / 8 * 16)
  handedOn : t.handedOn = .output (packedBitmap b off rows) :: s.handedOn

/-- A delivered CONVERT of the bitmap, with the wait's read of DONE in front of the host, is handed on. -/
theorem run_handOn_bitmap {s : State} (h : s.Inv) (hdev : s.devices = []) {b : List Byte} {off src d rows : Nat}
    (hbitmap : HoldsBitmap s src d rows) (hready : JobReady .convert s)
    (hmem : ∀ j, j < rows * 128 → memRead s.mem (src + j) = b.getD (off + j) 0)
    (hdst : d + 16 * (rows / 8 * 16) ≤ 2 ^ 32) (reads : List HostRead) :
    ∃ k t, runSteps k (deliveredAt .convert s [.handOn d] (.reg 0x0C 2 :: reads)) = .next t ∧
      BitmapConverted b off rows s t := by
  obtain ⟨-, hout, hblocks, -⟩ := deliveredAt_holds h hready [.handOn d] (.reg 0x0C 2 :: reads)
  have hword := statusWord_deliveredAt .convert s [.handOn d] (.reg 0x0C 2 :: reads)
  have htiles : jobTiles .convert s = rows / 8 * 16 := hbitmap.rowTiles_eq
  rw [htiles] at hout hblocks
  rw [hbitmap.dstBase] at hblocks
  obtain ⟨reads', hrun⟩ := run_handOn (s := deliveredAt .convert s [.handOn d] (.reg 0x0C 2 :: reads)) rfl hdev
    (by rw [hout]; exact hdst) rfl (by decide) rfl
  refine ⟨_, _, hrun, rfl, hword, hout, ?_⟩
  have hbytes : memBytes (deliveredAt .convert s [.handOn d] (.reg 0x0C 2 :: reads)).mem d
      (16 * (rows / 8 * 16)) = packedBitmap b off rows :=
    memBytes_blocks fun i hi => (hblocks i hi).trans (congrArg packTile (hbitmap.tile_eq hmem hi))
  rw [handResult_handedOn, hout]
  exact congrArg (fun bytes => HostResult.output bytes :: s.handedOn) hbytes

/-- The program of an examined bitmap whose bytes are placed, run to its end. -/
theorem run_bitmapProgram {s : State} (h : s.Inv) (hj : s.job = none) (hdev : s.devices = []) {b : List Byte}
    {a d rows : Nat} {ie : Bool} {m : ImageMetadata} (hwidth : m.width = 128) (hoff : m.offset ≤ b.length)
    (hops : s.hostOps = bitmapProgram a d b.length ie m ++ [.handOn d])
    (hmem : ∀ j, j < b.length → memRead s.mem (a + j) = b.getD j 0)
    (hlen : b.length - m.offset = rows * 128) (hrows : rows % 8 = 0) (hfit : a + b.length ≤ 2 ^ 32)
    (hdst : d + 16 * (rows / 8 * 16) ≤ 2 ^ 32) (hd : d < 2 ^ 32) (ha : a + m.offset < 2 ^ 32)
    (hdisj : d + 16 * (rows / 8 * 16) ≤ a + m.offset ∨ a + b.length ≤ d) :
    ∃ k t, runSteps k s = .next t ∧ BitmapConverted b m.offset rows s t := by
  have hb : s.status.busy = false := by simp [h.busyJob, hj]
  have hbitmap := holdsBitmap_withOperands hwidth ha hlen (by omega) hd ie s
  have hinv := h.after_withOperands hb true ie (BitVec.ofNat 32 (a + m.offset)) (BitVec.ofNat 32 (b.length - m.offset))
    (BitVec.ofNat 32 d) (BitVec.ofInt 32 m.width)
  have hready := hbitmap.jobReady hdev hrows (by omega) hdst (by omega)
  rw [bitmapProgram_eq] at hops
  obtain ⟨k, reads, hrun⟩ := run_jobProgram_ready h hj hops hready
  obtain ⟨k', t, hrun', ht⟩ := run_handOn_bitmap hinv hdev hbitmap hready (b := b) (off := m.offset)
    (fun j hj => by rw [Nat.add_assoc]; exact hmem _ (by omega)) hdst reads
  exact ⟨k + k', t, by rw [run_add hrun, hrun'], ht.ended, ht.statusWord, ht.outLen, ht.handedOn⟩

/-- Settles O59: the host places the bitmap (`run_hostMem`), and its program runs to the packed tiles of the placed bytes
(`run_bitmapProgram`). -/
theorem bitmapConversionDelivers : Obligations.BitmapConversionDelivers := by
  intro b a d rows ie m s s0 h hj hdev hnoOps hex hlaunch hlen hrows hfit hdst hd ha hdisj
  obtain ⟨-, hwidth, hoff⟩ := examine_ok_facts hex
  rw [launchBitmap_ok hex, hnoOps, List.nil_append, List.append_assoc] at hlaunch
  obtain rfl := Except.ok.inj hlaunch
  have hplace := run_hostMem (s := withOps (hostMem a b ++ (bitmapProgram a d b.length ie m ++ [.handOn d])) s)
    hj hdev hfit rfl
  have hinv := run_keeps (fun _ _ => State.Inv.after_step)
    (h.host_fields (hostMem a b ++ (bitmapProgram a d b.length ie m ++ [.handOn d])) s.hostReads s.handedOn s.delay
      s.draws) hplace
  obtain ⟨k, t, hrun, ht⟩ := run_bitmapProgram hinv hj hdev hwidth hoff rfl
    (fun j hj => (memRead_memWriteBytes h.memWf a b (a + j)).trans (by rw [if_pos (by omega), Nat.add_sub_cancel_left]))
    hlen hrows hfit hdst hd ha hdisj
  have hall := (run_add hplace k).trans hrun
  refine ⟨b.length + k, t, hall, ht.ended, ht.statusWord, ht.outLen, fun hheight => ?_, ht.handedOn⟩
  have hcols : (128 : Int).natAbs / 8 = 16 := rfl
  rw [ht.outLen, hwidth, hcols, ← hheight]
  omega

end Sys2Proof.Machine
end

section
/-! What the host of a launched bitmap hands on, at every point of the run (40_host_header.md R101, R102). The run has
five phases: placing the bytes, writing the operands, waiting, looking at the STATUS read, gathering the output; and it
has finished when the host has handed a result on. -/

namespace Sys2Proof.Machine

/-! ### The phases of a launched run

`s` is the state before the launch, `src` and `len` are the operands programmed, `d` is where the host expects the
output. -/

/-- SRC_BASE, SRC_LEN and DST_BASE hold the launch's operands. -/
def Programmed (src len : Word) (d : Nat) (t : State) : Prop :=
  t.srcBase = src ∧ t.srcLen = len ∧ t.dstBase = BitVec.ofNat 32 d

/-- The command has ended: in an error, or with DONE and OUT_LEN 16 bytes a tile. -/
def CommandEnded (t : State) : Prop :=
  t.job = none ∧ (t.status.err = true ∨ t.status.done = true ∧ t.outLen.toNat = 16 * rowTiles t)

/-- What the host does once the operands are written. -/
def commandOps (d : Nat) : List HostOp := [.regWrite 0x08 4 (encode (commandOf .convert)), pollStatus, .handOn d]

/-- The operands not yet written are `ws`. -/
structure Writing (s : State) (src len : Word) (d : Nat) (ws : List (Reg × Word)) (t : State) : Prop where
  inv : t.Inv
  job : t.job = none
  hostOps : t.hostOps = writeOps ws ++ commandOps d
  notCmd : ∀ w ∈ ws, w.1 ≠ .cmd
  programmed : Programmed src len d (storeAll ws t)
  hostReads : t.hostReads = s.hostReads
  handedOn : t.handedOn = s.handedOn

/-- The bytes not yet placed are `b`, to lie at `a`; then come the operand writes `ws`. -/
structure Placing (s : State) (src len : Word) (d a : Nat) (b : List Byte) (ws : List (Reg × Word)) (t : State) :
    Prop where
  inv : t.Inv
  job : t.job = none
  hostOps : t.hostOps = hostMem a b ++ (writeOps ws ++ commandOps d)
  notCmd : ∀ w ∈ ws, w.1 ≠ .cmd
  programmed : ∀ u, Programmed src len d (storeAll ws u)
  hostReads : t.hostReads = s.hostReads
  handedOn : t.handedOn = s.handedOn

/-- The command is accepted, and the host waits for its end. -/
structure Waiting (s : State) (src len : Word) (d : Nat) (t : State) : Prop where
  inv : t.Inv
  command : t.job = some .convert ∨ CommandEnded t
  hostOps : t.hostOps = [pollStatus, .handOn d]
  programmed : Programmed src len d t
  hostReads : ∃ rs, t.hostReads = rs ++ s.hostReads
  handedOn : t.handedOn = s.handedOn

/-- The host has read the STATUS of the ended command, and looks at it. -/
structure Looking (s : State) (src len : Word) (d : Nat) (t : State) : Prop where
  inv : t.Inv
  command : CommandEnded t
  hostOps : t.hostOps = [.handOn d]
  programmed : Programmed src len d t
  hostReads : ∃ rs, t.hostReads = .reg 0x0C t.status.word :: (rs ++ s.hostReads)
  handedOn : t.handedOn = s.handedOn

/-- Since the launch, the host has read the STATUS that `t` shows. -/
def StatusRead (s t : State) : Prop :=
  ∃ rs, t.hostReads = rs ++ s.hostReads ∧ .reg 0x0C t.status.word ∈ rs

/-- DONE was read; the host has the first `i` output bytes and lacks `n`. -/
structure Gathering (s : State) (src len : Word) (d i n : Nat) (got : List Byte) (t : State) : Prop where
  inv : t.Inv
  job : t.job = none
  done : t.status.done = true
  outLen : t.outLen.toNat = 16 * rowTiles t
  hostOps : t.hostOps = [.gather (d + i) n got]
  got : got.reverse = memBytes t.mem d i
  count : i + n = t.outLen.toNat
  programmed : Programmed src len d t
  statusRead : StatusRead s t
  handedOn : t.handedOn = s.handedOn

/-- The failure an error record is handed on as (40_host_header.md R101). -/
def FailureOf (st : Status) (e : HostError) : Prop :=
  (st.errCode = 2 → e = .invalidDimensions) ∧ (st.errCode = 3 → e = .malformedPixelData) ∧
    (st.errCode ≠ 2 → st.errCode ≠ 3 → e = .ownProgramming st.errCode st.errDetail)

/-- The run has ended and the host has handed on the one result of its command. -/
def Finished (s : State) (src len : Word) (d : Nat) (t : State) : Prop :=
  t.ended = true ∧ t.srcBase = src ∧ t.srcLen = len ∧ t.dstBase = BitVec.ofNat 32 d ∧ StatusRead s t ∧
    t.status.busy = false ∧
    ((t.status.done = true ∧ t.outLen.toNat = 16 * rowTiles t ∧
        t.handedOn = .output (memBytes t.mem d t.outLen.toNat) :: s.handedOn) ∨
      (t.status.err = true ∧ ∃ e, t.handedOn = .failure e :: s.handedOn ∧ FailureOf t.status e))

/-- A point of the run. -/
inductive LaunchPhase (s : State) (src len : Word) (d : Nat) (t : State) : Prop
  | placing (a : Nat) (b : List Byte) (ws : List (Reg × Word)) (h : Placing s src len d a b ws t)
  | writing (ws : List (Reg × Word)) (h : Writing s src len d ws t)
  | waiting (h : Waiting s src len d t)
  | looking (h : Looking s src len d t)
  | gathering (i n : Nat) (got : List Byte) (h : Gathering s src len d i n got t)
  | finished (h : Finished s src len d t)

/-! ### One step of each phase -/

section Steps

variable {s t u : State} {src len : Word} {d : Nat}

theorem State.Inv.idle_of_no_job (h : t.Inv) (hj : t.job = none) : t.status.busy = false := by
  simp [h.busyJob, hj]

/-- The accepted CONVERT starts its job or ends in an error. -/
theorem Writing.waiting_of_step (h : Writing s src len d [] t) (hs : step t = .next u) : Waiting s src len d u := by
  have hinv := h.inv.after_step hs
  have hb := h.inv.idle_of_no_job h.job
  have hprogrammed : Programmed src len d t := h.programmed
  have hreads : t.hostReads = [] ++ s.hostReads := h.hostReads
  rw [step_command h.job (commandOf_wellFormed .convert) h.hostOps,
    exec_commandOf_idle .convert (s := withOps [pollStatus, .handOn d] t) hb] at hs
  obtain ⟨e, -, rfl⟩ | ⟨n, -, -, rfl⟩ := acceptJob_next hs
  · exact ⟨hinv, .inr ⟨h.job, .inl rfl⟩, rfl, hprogrammed, ⟨[], hreads⟩, h.handedOn⟩
  · exact ⟨hinv, .inl rfl, rfl, hprogrammed, ⟨[], hreads⟩, h.handedOn⟩

theorem Writing.step {ws : List (Reg × Word)} (h : Writing s src len d ws t) (hs : step t = .next u) :
    LaunchPhase s src len d u := by
  cases ws with
  | nil => exact .waiting (h.waiting_of_step hs)
  | cons w ws =>
    have hinv := h.inv.after_step hs
    rw [step_write h.job (h.inv.idle_of_no_job h.job) (h.notCmd w List.mem_cons_self) h.hostOps] at hs
    obtain rfl := Host.Outcome.next.inj hs
    refine .writing ws ⟨hinv, ?_, rfl, fun x hx => h.notCmd x (List.mem_cons_of_mem w hx), ?_, ?_, ?_⟩
    · rw [withOps_job, storeReg_job, h.job]
    · rw [storeAll_withOps]
      exact h.programmed
    · rw [← h.hostReads]
      cases w.1 <;> rfl
    · rw [← h.handedOn]
      cases w.1 <;> rfl

theorem Placing.step {a : Nat} {b : List Byte} {ws : List (Reg × Word)} (h : Placing s src len d a b ws t)
    (hs : step t = .next u) : LaunchPhase s src len d u := by
  cases b with
  | nil => exact Writing.step ⟨h.inv, h.job, h.hostOps, h.notCmd, h.programmed t, h.hostReads, h.handedOn⟩ hs
  | cons v b =>
    have hinv := h.inv.after_step hs
    rw [step_host_no_job h.job h.hostOps] at hs
    obtain ⟨-, -, rfl⟩ := hostMemWrite_next hs
    exact .placing (a + 1) b ws ⟨hinv, h.job, rfl, h.notCmd, h.programmed, h.hostReads, h.handedOn⟩

/-- A completion ends the command with DONE and the job's OUT_LEN. -/
theorem commandEnded_completeJob (h : t.Inv) (hj : t.job = some .convert) :
    CommandEnded (completeJob .convert t) := by
  obtain ⟨-, hlen, -, hwidth, -, -⟩ := completeJob_operands .convert t
  have htiles : rowTiles (completeJob .convert t) = rowTiles t := by rw [rowTiles, hlen, hwidth, rowTiles]
  refine ⟨rfl, .inr ⟨by simp, ?_⟩⟩
  rw [htiles, completeJob_outLen, outputLength_eq]
  exact (h.jobDims hj).outLen_toNat

theorem completeJob_host (op : JobOp) (s : State) :
    (completeJob op s).hostOps = s.hostOps ∧ (completeJob op s).hostReads = s.hostReads ∧
      (completeJob op s).handedOn = s.handedOn := by
  cases hr : s.raced with
  | true => simp [completeJob_raced hr]
  | false => simp [completeJob_dutiful hr]

theorem Waiting.step (h : Waiting s src len d t) (hs : step t = .next u) : LaunchPhase s src len d u := by
  have hinv := h.inv.after_step hs
  obtain ⟨rs, hreads⟩ := h.hostReads
  obtain ⟨op, hj, -, hstep⟩ | ⟨-, hnone, -⟩ | ⟨hop, rest, -, hops, hstep⟩ := step_cases t
  · rw [hstep] at hs
    obtain rfl := Host.Outcome.next.inj hs
    have hconvert : op = .convert := by
      obtain hrun | ⟨hno, -⟩ := h.command
      · exact Option.some.inj (hj.symm.trans hrun)
      · simp [hno] at hj
    subst hconvert
    obtain ⟨hbase, hlen, hdst, -⟩ := completeJob_operands .convert t
    obtain ⟨hsrc', hlen', hdst'⟩ := h.programmed
    obtain ⟨hops, hreads', hhanded⟩ := completeJob_host .convert t
    exact .waiting ⟨hinv, .inr (commandEnded_completeJob h.inv hj), hops.trans h.hostOps,
      ⟨hbase.trans hsrc', hlen.trans hlen', hdst.trans hdst'⟩, ⟨rs, hreads'.trans hreads⟩, hhanded.trans h.handedOn⟩
  · simp [h.hostOps] at hnone
  · rw [hstep] at hs
    obtain ⟨rfl, rfl⟩ : pollStatus = hop ∧ [.handOn d] = rest := by simpa [h.hostOps] using hops
    cases hb : t.status.busy with
    | true =>
      rw [hostPoll_status_busy (s := t.hostMoves _) hb] at hs
      obtain rfl := Host.Outcome.next.inj hs
      exact .waiting ⟨hinv, h.command, rfl, h.programmed, ⟨_ :: rs, congrArg _ hreads⟩, h.handedOn⟩
    | false =>
      have hended : CommandEnded t := by
        obtain hrun | hended := h.command
        · simp [h.inv.busy_of_job hrun] at hb
        · exact hended
      rw [hostPoll_status_idle (s := t.hostMoves _) hb] at hs
      obtain rfl := Host.Outcome.next.inj hs
      exact .looking ⟨hinv, hended, rfl, h.programmed, ⟨rs, congrArg _ hreads⟩, h.handedOn⟩

theorem failureOf_hostErrorOf (st : Status) : FailureOf st (hostErrorOf st.errCode st.errDetail) := by
  unfold FailureOf hostErrorOf
  refine ⟨fun h2 => if_pos h2, fun h3 => ?_, fun h2 h3 => ?_⟩
  · rw [h3]; rfl
  · rw [if_neg h2, if_neg h3]

theorem Looking.step (h : Looking s src len d t) (hs : step t = .next u) : LaunchPhase s src len d u := by
  have hinv := h.inv.after_step hs
  obtain ⟨rs, hreads⟩ := h.hostReads
  obtain ⟨hj, hend⟩ := h.command
  obtain ⟨-, hdone, herr, -⟩ := statusWord_bits t.status
  obtain ⟨hsrc, hlen, hdst⟩ := h.programmed
  rw [step_host_no_job hj h.hostOps] at hs
  obtain he | ⟨hd, hout⟩ := hend
  · obtain ⟨hb, hd, -⟩ := h.inv.flags_of_err he
    rw [hd] at hdone
    rw [he] at herr
    rw [hostStep, hostHandOn_err (s := withOps [] t) hreads hdone herr, hostErrorOfWord_status] at hs
    obtain rfl := Host.Outcome.next.inj hs
    have hended : State.ended (handResult (.failure (hostErrorOf t.status.errCode t.status.errDetail))
        (withOps [] t)) = true := by simp [State.ended, hj]
    exact .finished ⟨hended, hsrc, hlen, hdst, ⟨_ :: rs, hreads, List.mem_cons_self⟩, hb,
      .inr ⟨he, _, congrArg _ h.handedOn, failureOf_hostErrorOf t.status⟩⟩
  · rw [hd] at hdone
    rw [hostStep, hostHandOn_done (s := withOps [] t) hreads hdone] at hs
    obtain rfl := Host.Outcome.next.inj hs
    exact .gathering 0 t.outLen.toNat [] ⟨hinv, hj, hd, hout, rfl, rfl, Nat.zero_add _, h.programmed,
      ⟨_ :: _ :: rs, congrArg _ hreads, List.mem_cons_of_mem _ List.mem_cons_self⟩, h.handedOn⟩

theorem memBytes_succ_last (m : Memory) (a n : Nat) : memBytes m a (n + 1) = memBytes m a n ++ [memRead m (a + n)] :=
  memBytes_add m a n 1

theorem Gathering.step {i n : Nat} {got : List Byte} (h : Gathering s src len d i n got t)
    (hs : step t = .next u) : LaunchPhase s src len d u := by
  have hinv := h.inv.after_step hs
  obtain ⟨rs, hreads, hmem⟩ := h.statusRead
  obtain ⟨hsrc, hlen, hdst⟩ := h.programmed
  have hcount := h.count
  rw [step_host_no_job h.job h.hostOps] at hs
  obtain ⟨rfl, rfl⟩ | ⟨m, v, rfl, hread, rfl⟩ := hostGather_next hs
  · have hended : State.ended (handResult (.output got.reverse) (withOps [] t)) = true := by
      simp [State.ended, h.job]
    have hout : HostResult.output got.reverse = .output (memBytes t.mem d t.outLen.toNat) := by
      rw [h.got, ← hcount, Nat.add_zero]
    exact .finished ⟨hended, hsrc, hlen, hdst, h.statusRead, h.inv.idle_of_no_job h.job,
      .inl ⟨h.done, h.outLen, by rw [handResult_handedOn, hout]; exact congrArg _ h.handedOn⟩⟩
  · have hw : (withOps [] t).jobWrites (d + i) = false := jobWrites_of_no_job h.job _
    obtain ⟨-, -, rfl⟩ := hostMemRead_next hread
    refine .gathering (i + 1) m _ ⟨hinv, h.job, h.done, h.outLen, rfl, ?_, ?_, h.programmed,
      ⟨_ :: rs, congrArg _ hreads, List.mem_cons_of_mem _ hmem⟩, h.handedOn⟩
    · rw [List.reverse_cons, h.got, hostByte, hw]
      exact (memBytes_succ_last t.mem d i).symm
    · have : i + 1 + m = t.outLen.toNat := by omega
      exact this

theorem Finished.step (h : Finished s src len d t) (hs : step t = .next u) : LaunchPhase s src len d u := by
  rw [endedRunStays t h.1] at hs
  obtain rfl := Host.Outcome.next.inj hs
  exact .finished h

theorem LaunchPhase.step (h : LaunchPhase s src len d t) (hs : step t = .next u) : LaunchPhase s src len d u := by
  cases h with
  | placing a b ws h => exact h.step hs
  | writing ws h => exact h.step hs
  | waiting h => exact h.step hs
  | looking h => exact h.step hs
  | gathering i n got h => exact h.step hs
  | finished h => exact h.step hs

/-- Before the last phase the host has handed on nothing new. -/
theorem LaunchPhase.handedOn_or_finished (h : LaunchPhase s src len d t) :
    t.handedOn = s.handedOn ∨ Finished s src len d t := by
  cases h with
  | placing a b ws h => exact .inl h.handedOn
  | writing ws h => exact .inl h.handedOn
  | waiting h => exact .inl h.handedOn
  | looking h => exact .inl h.handedOn
  | gathering i n got h => exact .inl h.handedOn
  | finished h => exact .inr h

end Steps

/-! ### The launch -/

theorem launchBitmap_next {b : List Byte} {a d : Nat} {ie : Bool} {s t : State} (h : launchBitmap b a d ie s = .ok t) :
    ∃ m, examine b = .ok m ∧
      t = withOps (s.hostOps ++ hostMem a b ++ bitmapProgram a d b.length ie m ++ [.handOn d]) s := by
  unfold launchBitmap at h
  split at h
  · cases h
  · rename_i m hm
    exact ⟨m, hm, (Except.ok.inj h).symm⟩

/-- Settles O57: the launched state is in the first phase, every step goes from phase to phase (`LaunchPhase.step`), and
only the last has handed anything on. -/
theorem outputDeliveredOnlyWhenDone : Obligations.OutputDeliveredOnlyWhenDone := by
  intro b a d k ie m s s0 t h hj hnoOps hparse hlaunch hrun
  obtain ⟨m', hex, rfl⟩ := launchBitmap_next hlaunch
  obtain ⟨hparse', -, -⟩ := examine_ok_facts hex
  obtain rfl : m' = m := Except.ok.inj (hparse'.symm.trans hparse)
  have start : LaunchPhase s (BitVec.ofNat 32 (a + m'.offset)) (BitVec.ofNat 32 (b.length - m'.offset)) d
      (withOps (s.hostOps ++ hostMem a b ++ bitmapProgram a d b.length ie m' ++ [.handOn d]) s) :=
    .placing a b (operandWrites true ie (BitVec.ofNat 32 (a + m'.offset)) (BitVec.ofNat 32 (b.length - m'.offset))
        (BitVec.ofNat 32 d) (BitVec.ofInt 32 m'.width))
      { inv := h.host_fields _ _ _ _ _
        job := hj
        hostOps := by
          rw [withOps_hostOps, hnoOps, bitmapProgram_eq, jobProgram_eq]
          simp [commandOps]
        notCmd := operandWrites_ne_cmd _ _ _ _ _ _
        programmed := fun u => by rw [storeAll_operandWrites]; exact ⟨rfl, rfl, rfl⟩
        hostReads := rfl
        handedOn := rfl }
  exact (run_keeps (fun _ _ => LaunchPhase.step) start hrun).handedOn_or_finished

end Sys2Proof.Machine
end
